-- ==== Sys2Proof/Word.lean ====
section
/-! DEFINITION. The words of the machine and the unknown value `?` of rule R38. -/

namespace Sys2Proof

/-- A byte: 8 bits, bit 7 of weight 0x80 (rule R8). -/
abbrev Byte := BitVec 8

/-- A 16-bit pattern: a coordinate, width, height or 16-bit colour (rule R7), always unsigned (rule R8). -/
abbrev Half := BitVec 16

/-- A value that may be the unknown value `?` (rule R38): "A cell, pointer or flag holds `?` when no source says what it
holds". It is the spec's own value, not a register without a reset value. -/
inductive Unk (α : Type) where
  | unknown
  | known (a : α)
  deriving DecidableEq, Repr

/-- What a read of the value returns when `any` is the free draw of rule R38. -/
def Unk.getD {α : Type} (any : α) : Unk α → α
  | .unknown => any
  | .known a => a

/-- A function applied to a known value; `?` stays `?`. -/
def Unk.map {α β : Type} (f : α → β) : Unk α → Unk β
  | .unknown => .unknown
  | .known a => .known (f a)

@[simp] theorem Unk.getD_known {α : Type} (any a : α) : (Unk.known a).getD any = a := rfl
@[simp] theorem Unk.getD_unknown {α : Type} (any : α) : Unk.unknown.getD any = any := rfl
@[simp] theorem Unk.map_known {α β : Type} (f : α → β) (a : α) : (Unk.known a).map f = .known (f a) := rfl
@[simp] theorem Unk.map_unknown {α β : Type} (f : α → β) : (Unk.unknown : Unk α).map f = .unknown := rfl

end Sys2Proof
end

