-- ==== Sys2Proof/Config.lean ====
section
/-! DEFINITION. The configuration record `P` of rule R6 (what an implementation fixes, plain data), its constraints,
and the one source of free values. -/

namespace Sys2Proof

/-- The register names of 10_state.md section 4 (rules R39 to R49). -/
inductive RegName where
  | PWR | PLL1 | PLL2 | AWXS_L | AWXS_H | AWYS_L | AWYS_H | AWXE_L | AWXE_H | AWYE_L | AWYE_H | DX0_L | DX0_H
  | DY0_L | DY0_H | DX1_L | DX1_H | DY1_L | DY1_H | DX2_L | DX2_H | DY2_L | DY2_H | CX_L | CX_H | CY_L | CY_H
  | CRAD | FGC_R | FGC_G | FGC_B | DCR | BSX_L | BSX_H | BSY_L | BSY_H | BDX_L | BDX_H | BDY_L | BDY_H | BW_L
  | BW_H | BH_L | BH_H | BTE_CTRL0 | BTE_CTRL1 | BTK_R | BTK_G | BTK_B
  deriving DecidableEq, Repr

/-- Every register name, in the order of the declaration. -/
def RegName.all : List RegName :=
  [.PWR, .PLL1, .PLL2, .AWXS_L, .AWXS_H, .AWYS_L, .AWYS_H, .AWXE_L, .AWXE_H, .AWYE_L, .AWYE_H, .DX0_L,
   .DX0_H, .DY0_L, .DY0_H, .DX1_L, .DX1_H, .DY1_L, .DY1_H, .DX2_L, .DX2_H, .DY2_L, .DY2_H, .CX_L, .CX_H,
   .CY_L, .CY_H, .CRAD, .FGC_R, .FGC_G, .FGC_B, .DCR, .BSX_L, .BSX_H, .BSY_L, .BSY_H, .BDX_L, .BDX_H, .BDY_L,
   .BDY_H, .BW_L, .BW_H, .BH_L, .BH_H, .BTE_CTRL0, .BTE_CTRL1, .BTK_R, .BTK_G, .BTK_B]

/-- The parameter REGMAP (rules R6, R33): the 8-bit address of each name. -/
structure RegMap where
  (PWR PLL1 PLL2 AWXS_L AWXS_H AWYS_L AWYS_H AWXE_L AWXE_H AWYE_L AWYE_H DX0_L DX0_H DY0_L DY0_H DX1_L DX1_H
   DY1_L DY1_H DX2_L DX2_H DY2_L DY2_H CX_L CX_H CY_L CY_H CRAD FGC_R FGC_G FGC_B DCR BSX_L BSX_H BSY_L BSY_H
   BDX_L BDX_H BDY_L BDY_H BW_L BW_H BH_L BH_H BTE_CTRL0 BTE_CTRL1 BTK_R BTK_G BTK_B : Byte)
  deriving DecidableEq, Repr

/-- The address `REGMAP(n)`. -/
def RegMap.addr (m : RegMap) : RegName → Byte
  | .PWR => m.PWR
  | .PLL1 => m.PLL1
  | .PLL2 => m.PLL2
  | .AWXS_L => m.AWXS_L
  | .AWXS_H => m.AWXS_H
  | .AWYS_L => m.AWYS_L
  | .AWYS_H => m.AWYS_H
  | .AWXE_L => m.AWXE_L
  | .AWXE_H => m.AWXE_H
  | .AWYE_L => m.AWYE_L
  | .AWYE_H => m.AWYE_H
  | .DX0_L => m.DX0_L
  | .DX0_H => m.DX0_H
  | .DY0_L => m.DY0_L
  | .DY0_H => m.DY0_H
  | .DX1_L => m.DX1_L
  | .DX1_H => m.DX1_H
  | .DY1_L => m.DY1_L
  | .DY1_H => m.DY1_H
  | .DX2_L => m.DX2_L
  | .DX2_H => m.DX2_H
  | .DY2_L => m.DY2_L
  | .DY2_H => m.DY2_H
  | .CX_L => m.CX_L
  | .CX_H => m.CX_H
  | .CY_L => m.CY_L
  | .CY_H => m.CY_H
  | .CRAD => m.CRAD
  | .FGC_R => m.FGC_R
  | .FGC_G => m.FGC_G
  | .FGC_B => m.FGC_B
  | .DCR => m.DCR
  | .BSX_L => m.BSX_L
  | .BSX_H => m.BSX_H
  | .BSY_L => m.BSY_L
  | .BSY_H => m.BSY_H
  | .BDX_L => m.BDX_L
  | .BDX_H => m.BDX_H
  | .BDY_L => m.BDY_L
  | .BDY_H => m.BDY_H
  | .BW_L => m.BW_L
  | .BW_H => m.BW_H
  | .BH_L => m.BH_L
  | .BH_H => m.BH_H
  | .BTE_CTRL0 => m.BTE_CTRL0
  | .BTE_CTRL1 => m.BTE_CTRL1
  | .BTK_R => m.BTK_R
  | .BTK_G => m.BTK_G
  | .BTK_B => m.BTK_B

/-- The parameter PTR_POLICY (rules R6, R134): what DEV.CUR does after a DATA frame. -/
inductive PtrPolicy where
  | reuse
  | increment
  deriving DecidableEq, Repr

/-- colorDepth, 8 or 16 (rule R24). -/
inductive Depth where
  | d8
  | d16
  deriving DecidableEq, Repr

/-- The operand value of a depth. -/
def Depth.toByte : Depth → Byte
  | .d8 => 8
  | .d16 => 16

/-- One member of the closed set SUPPORTED with its rows of the tables INIT_PLL, INIT_TIMING and INIT_LAYER (rule R6). A
table row is (address of the register, byte). -/
structure Panel where
  width  : Half
  height : Half
  depth  : Depth
  pll1   : Byte
  pll2   : Byte
  timing : List (Byte × Byte)
  layer  : List (Byte × Byte)
  deriving DecidableEq, Repr

/-- The configuration record `P` of rule R6. Every field marked OPEN there is a field here; the FIXED ones are the
constants below. It is carried in the state, no step writes it, and a statement about every state is about every `P`. -/
structure Params where
  regmap       : RegMap
  ptrPolicy    : PtrPolicy
  /-- SUPPORTED, INIT_PLL, INIT_TIMING, INIT_LAYER as one finite table. -/
  panels       : List Panel
  /-- INIT_FONT. -/
  font         : List (Byte × Byte)
  /-- PWR_RST, the mask of the power register's reset bit. -/
  pwrRst       : Byte
  tRst         : Nat
  tRstPost     : Nat
  tSoft1       : Nat
  tSoft2       : Nat
  tPll         : Nat
  tPoll        : Nat
  /-- POLL_MAX; `none` is INF. -/
  pollMax      : Option Nat
  hasResetLine : Bool
  hasIntLine   : Bool
  chipSelect   : Nat
  /-- RGB332_SHIFT = (sr, sg, sb), rule R104. -/
  shiftR       : Nat
  shiftG       : Nat
  shiftB       : Nat
  deriving DecidableEq, Repr

/-- `REGMAP(n)`. -/
abbrev Params.addr (P : Params) (n : RegName) : Byte := P.regmap.addr n

/-- The panel SUPPORTED finds for the operands of INIT; `none` is "SUPPORTED is false". -/
def Params.panel? (P : Params) (width height : Half) (depth : Byte) : Option Panel :=
  P.panels.find? fun p => p.width == width && p.height == height && p.depth.toByte == depth

/-- PWR_ON (rule R6, FIXED): the display-enable bit of the power register. -/
def pwrOnByte : Byte := 0x80

/-- Two names that rule R33 allows to share an address: a transparency-colour name and the foreground-colour name in
the same position. -/
def RegName.mayAlias : RegName → RegName → Bool
  | .BTK_R, .FGC_R => true
  | .FGC_R, .BTK_R => true
  | .BTK_G, .FGC_G => true
  | .FGC_G, .BTK_G => true
  | .BTK_B, .FGC_B => true
  | .FGC_B, .BTK_B => true
  | _, _ => false

/-- REGMAP gives distinct addresses to distinct names, up to the aliases of rule R33. -/
def RegMap.distinct (m : RegMap) : Bool :=
  RegName.all.all fun a => RegName.all.all fun b => a == b || a.mayAlias b || m.addr a != m.addr b

/-- A table row's register is none of those rule R33 excludes. -/
def RegMap.tableOk (m : RegMap) (t : List (Byte × Byte)) : Bool :=
  t.all fun e => [m.DCR, m.BTE_CTRL0, m.PWR, m.PLL1, m.PLL2].all fun a => a != e.1

/-- The constraints rule R6 (and R33, R104) puts on `P`. -/
def Params.wf (P : Params) : Bool :=
  P.regmap.distinct
  && P.panels.all (fun p => P.regmap.tableOk p.timing && P.regmap.tableOk p.layer
      && p.width != 0 && p.height != 0
      && !(p.width == 320 && p.height == 200)
      && (!(p.width == 480 && p.height == 272) || (p.pll1 == 0x0A && p.pll2 == 0x02))
      && P.panels.all (fun q => !(p.width == q.width && p.height == q.height) || (p.pll1 == q.pll1 && p.pll2 == q.pll2)))
  && (P.panel? 480 272 16).isSome
  && P.regmap.tableOk P.font
  && [0x01, 0x02, 0x04, 0x08, 0x10, 0x20, 0x40].contains P.pwrRst
  && P.pollMax != some 0
  && decide (P.shiftR ≤ 5) && decide (P.shiftG ≤ 5) && decide (P.shiftB ≤ 6)

/-- The free values of the model: `Config.freeByte n k` is the `k`-th free draw (`any8`, rules R9 and R38) of the frame
that draws with counter value `n`. It has no body, so nothing is known of it. -/
opaque Config.freeByte : Nat → Nat → BitVec 8

end Sys2Proof
end

