-- ==== Sys2Proof/Machine/Board.lean ====
section
/-! DEFINITION. The configuration State.reset carries: the example parameter set EX of 93_implementation_defined.md G1 to
G3 (PRESUMED, log 10: the spec gives these values as general knowledge and no statement rests on them), with a reset line, POLL_MAX = INF
("the reference behavior", rule R6) and the pointer reused. -/

namespace Sys2Proof.Machine

/-- The example REGMAP (G1). -/
def exampleRegMap : RegMap where
  PWR := 0x01
  PLL1 := 0x88
  PLL2 := 0x89
  AWXS_L := 0x30
  AWXS_H := 0x31
  AWYS_L := 0x32
  AWYS_H := 0x33
  AWXE_L := 0x34
  AWXE_H := 0x35
  AWYE_L := 0x36
  AWYE_H := 0x37
  BTE_CTRL0 := 0x50
  BTE_CTRL1 := 0x51
  BSX_L := 0x54
  BSX_H := 0x55
  BSY_L := 0x56
  BSY_H := 0x57
  BDX_L := 0x58
  BDX_H := 0x59
  BDY_L := 0x5A
  BDY_H := 0x5B
  BW_L := 0x5C
  BW_H := 0x5D
  BH_L := 0x5E
  BH_H := 0x5F
  FGC_R := 0x63
  FGC_G := 0x64
  FGC_B := 0x65
  BTK_R := 0x63
  BTK_G := 0x64
  BTK_B := 0x65
  DCR := 0x90
  DX0_L := 0x91
  DX0_H := 0x92
  DY0_L := 0x93
  DY0_H := 0x94
  DX1_L := 0x95
  DX1_H := 0x96
  DY1_L := 0x97
  DY1_H := 0x98
  CX_L := 0x99
  CX_H := 0x9A
  CY_L := 0x9B
  CY_H := 0x9C
  CRAD := 0x9D
  DX2_L := 0xA9
  DX2_H := 0xAA
  DY2_L := 0xAB
  DY2_H := 0xAC

/-- INIT_TIMING after its first entry, which alone depends on the depth (G3): PCSR, HDWR, HNDFTR, HNDR, HSTR, HPWR,
VDHR0, VDHR1, VNDR0, VNDR1, VSTR0, VSTR1, VPWR. -/
def exampleTiming : List (Byte × Byte) :=
  [(0x04, 0x82), (0x14, 0x3B), (0x15, 0x00), (0x16, 0x01), (0x17, 0x00), (0x18, 0x05), (0x19, 0x0F), (0x1A, 0x01),
   (0x1B, 0x02), (0x1C, 0x00), (0x1D, 0x07), (0x1E, 0x00), (0x1F, 0x09)]

/-- The 480 x 272 panel of EX at a depth, with the SYSR byte of that depth (G3). -/
def examplePanel (d : Depth) (sysr : Byte) : Panel where
  width := 480
  height := 272
  depth := d
  pll1 := 0x0A
  pll2 := 0x02
  timing := (0x10, sysr) :: exampleTiming
  layer := [(0x20, 0x80)]

/-- The parameter set EX (G3). -/
def exampleParams : Params where
  regmap := exampleRegMap
  ptrPolicy := .reuse
  panels := [examplePanel .d16 0x0C, examplePanel .d8 0x00]
  font := [(0x21, 0x00), (0x22, 0x00)]
  pwrRst := 0x01
  tRst := 0
  tRstPost := 0
  tSoft1 := 0
  tSoft2 := 0
  tPll := 0
  tPoll := 0
  pollMax := none
  hasResetLine := true
  hasIntLine := false
  chipSelect := 0
  shiftR := 0
  shiftG := 0
  shiftB := 0

end Sys2Proof.Machine
end

