-- ==== Sys2Proof/Syntax.lean ====
section
/-! DEFINITION. The instructions: one constructor per row of spec/opcode_table.json, and the six formats its rows are
written in (30_encoding.md). -/

namespace Sys2Proof

/-- The formats of 30_encoding.md: the frame (rule R90), the four kinds of byte written to a command register (rules
R100, R101, R102, R107) and the command on the command port (rule R110). -/
inductive Format where
  | frame16
  | dcr8
  | bterop8
  | btestart8
  | pwr8
  | seqcmd
  deriving DecidableEq, Repr

/-- The instructions. Operands and widths are those of rules R90 to R93, R110 and R26. -/
inductive Instr where
  -- FRAME16 (rules R130 to R133); `p` is the payload SEQ sends in a read frame
  | cmdw (a : Byte)
  | datw (b : Byte)
  | datr (p : Byte)
  | stsr (p : Byte)
  -- DCR8 (rules R100, R204, R205)
  | tLine
  | tRect
  | tFrect
  | tTri
  | tFtri
  | tCirc
  | tFcirc
  -- BTEROP8, BTESTART8, PWR8 (rules R101, R102, R107)
  | bMove
  | bTmove
  | bStart
  | pwrOn
  -- SEQCMD (rule R110)
  | wrcmd (reg : Byte)
  | wrdata (byte : Byte)
  | rddata
  | rdstatus
  | wrreg (reg byte : Byte)
  | rdreg (reg : Byte)
  | wr16 (reg0 reg1 : Byte) (v : Half)
  | rd16 (reg0 reg1 : Byte)
  | init (width height : Half) (depth : Byte)
  | line (x0 y0 x1 y1 c : Half)
  | rect (x0 y0 x1 y1 c : Half)
  | frect (x0 y0 x1 y1 c : Half)
  | tri (x0 y0 x1 y1 x2 y2 c : Half)
  | ftri (x0 y0 x1 y1 x2 y2 c : Half)
  | circ (cx cy : Half) (r : Byte) (c : Half)
  | fcirc (cx cy : Half) (r : Byte) (c : Half)
  | btecopy (sl : BitVec 2) (sx sy w h : Half) (dl : BitVec 2) (dx dy : Half) (transparent : Bool) (key : Half)
  deriving DecidableEq, Repr

end Sys2Proof
end

