-- ==== Sys2Proof/Machine/State.lean ====
section
/-! DEFINITION. The state of the machine: everything the spec gives SEQ (rule R20) and DEV (rule R30), what the outside
world has still to do, and the few fields of the model's own that INVENTORY.md lists. Plain data throughout. -/

namespace Sys2Proof.Machine

/-! ### SEQ -/

/-- The control state (rule R22). -/
inductive Phase where
  | idle
  | reset
  | pll
  | timing
  | window
  | powerOn
  | paramsStaged
  | triggered
  deriving DecidableEq, Repr

/-- The typed outcome of a command (rules R28, R260). -/
inductive Result where
  | ok
  | unsupportedConfiguration
  | deviceTimeout
  | busTransportFailure
  deriving DecidableEq, Repr

/-- The numbers of rule R28. -/
def Result.code : Result → BitVec 2
  | .ok => 0
  | .unsupportedConfiguration => 1
  | .deviceTimeout => 2
  | .busTransportFailure => 3

/-- DeviceConfig (rule R24). -/
structure DeviceConfig where
  width         : Half
  height        : Half
  colorDepth    : Depth
  chipSelect    : Nat
  resetLine     : Bool
  interruptLine : Bool
  deriving DecidableEq, Repr

/-- The operand record SEQ.op (rule R26). -/
structure Op where
  code        : Byte
  reg         : Byte
  reg0        : Byte
  reg1        : Byte
  byte        : Byte
  v           : Half
  x0          : Half
  y0          : Half
  x1          : Half
  y1          : Half
  x2          : Half
  y2          : Half
  cx          : Half
  cy          : Half
  r           : Byte
  c           : Half
  sl          : BitVec 2
  dl          : BitVec 2
  sx          : Half
  sy          : Half
  dx          : Half
  dy          : Half
  w           : Half
  h           : Half
  transparent : Bool
  key         : Half
  width       : Half
  height      : Half
  depth       : Byte
  deriving DecidableEq, Repr

/-- The actions DEV decodes in a frame (rule R91). -/
inductive FrameOp where
  | cmdw
  | datw
  | datr
  | stsr
  deriving DecidableEq, Repr

/-- The opcode byte of a frame (rule R91). -/
def FrameOp.byte : FrameOp → Byte
  | .cmdw => 0x80
  | .datw => 0x00
  | .datr => 0x40
  | .stsr => 0xC0

/-- The six durations of rule R6. -/
inductive Dur where
  | tRst
  | tRstPost
  | tSoft1
  | tSoft2
  | tPll
  | tPoll
  deriving DecidableEq, Repr

/-- What a poll loop reads: a register (PollReg, rule R144) or the status register (PollStatus, rule R145), and the mask
it tests. -/
inductive PollKind where
  | reg (a m : Byte)
  | status (m : Byte)
  deriving DecidableEq, Repr

/-- What a finished command puts in SEQ.rdata (rule R28): nothing, the last byte read (rules R137, R138, R141), or the
last two as a pair, the earlier one the low byte (rule R143). -/
inductive Ret where
  | none
  | byte
  | word
  deriving DecidableEq, Repr

/-- One operation of a command's pseudocode (rules R10 to R12, R139 to R145, R160 to R170). -/
inductive Micro where
  /-- `Hold()` -/
  | hold
  /-- `Release()` -/
  | release
  /-- `Frame(op, p)` -/
  | frame (op : FrameOp) (p : Byte)
  /-- `DATW (v | PWR_RST)`, `v` the byte last read (rule R164) -/
  | writeSet
  /-- `DATW (v & ~PWR_RST)` (rule R164) -/
  | writeClr
  /-- `Delay(T)` -/
  | delay (t : Dur)
  /-- `ResetLine(level); SEQ.resetn <- level` -/
  | resetLine (level : Bool)
  /-- `SEQ.phase <- p` -/
  | phase (p : Phase)
  /-- `SEQ.pll_done <- v` -/
  | pllDone (v : Bool)
  /-- `SEQ.cur <- ?` -/
  | forget
  /-- `SEQ.pollcnt <- 0`, the start of a poll loop -/
  | pollStart
  /-- the test at the end of one poll iteration, and what it leads to -/
  | pollTest (k : PollKind)
  /-- `SEQ.cfg <- …` (rule R170) -/
  | setCfg (d : Depth)
  /-- `SEQ.rdata <- …; finish(OK)` -/
  | finish (r : Ret)
  deriving DecidableEq, Repr

/-- SEQ (rule R20); the last three fields are the model's own (log 8). -/
structure Seq where
  busy    : Bool
  phase   : Phase
  step    : Nat
  cur     : Unk Byte
  /-- `none` is `invalid` (rule R24). -/
  cfg     : Option DeviceConfig
  hold    : Bool
  op      : Op
  pollcnt : Nat
  result  : Result
  rdata   : Half
  pllDone : Bool
  resetn  : Bool
  /-- What is left of the pseudocode in progress. -/
  ucode   : List Micro
  /-- The byte the last read frame returned, and the one before it. -/
  rx      : Byte
  rxPrev  : Byte
  deriving DecidableEq, Repr

/-! ### DEV -/

/-- Which engine an operation record is about (rule R45, U2). -/
inductive Engine where
  | draw
  | circ
  | bte
  | unknown
  deriving DecidableEq, Repr

/-- The contents of registers at a trigger write. -/
abbrev Snapshot := List (RegName × Unk Byte)

/-- A record of DEV.oplog (rule R45): the engine, the byte written, the registers latched (`?` once tainted, U4). -/
structure OpRecord where
  engine : Engine
  code   : Byte
  regs   : Unk Snapshot
  deriving DecidableEq, Repr

/-- DEV (rule R30). -/
structure Dev where
  cur      : Unk Byte
  /-- DEV.REG: the known cells, in the canonical form Memory.wf; a cell that is not listed is `?` (rules R32, R38). -/
  mem      : List Host.Cell
  drawBusy : Unk Bool
  circBusy : Unk Bool
  bteBusy  : Unk Bool
  oplog    : List OpRecord
  /-- Whether DEV is in software reset while PWR is `?`; `?` is a draw at each frame (rule R303, U5; the model's own field,
  log 12). -/
  rstIfUnk : Unk Bool
  deriving DecidableEq, Repr

/-! ### The outside world -/

/-- One item the host presents: bytes in one of the formats (rules R21, R110; log 1). -/
structure Packet where
  fmt   : Format
  bytes : List Byte
  deriving DecidableEq, Repr

/-- What the transport does with a frame (rules R10, R139): it succeeds, or fails after or before DEV acted. -/
inductive Fate where
  | ok
  | failActed
  | failLost
  deriving DecidableEq, Repr

/-- What the outside world does around one SEQ primitive (log 5): in the gap before it, completion steps of DEV (rules
R206, R232) or a reset of SEQ (rules R300, R331); the fate of the frame, if it is one; and whether the model's step ends
after it (log 7). -/
structure Tick where
  drawDone : Bool := false
  circDone : Bool := false
  bteDone  : Bool := false
  seqReset : Bool := false
  fate     : Fate := .ok
  pause    : Bool := false
  deriving DecidableEq, Repr

/-- A primitive SEQ performed (rules R10, R11). A read frame's record holds the byte DEV returned; the bytes SEQ ignores
are not recorded (U12). -/
inductive Prim where
  | xfer (op : FrameOp) (payload : Byte) (reply : Option Byte)
  | xferFailed (op : FrameOp) (payload : Byte)
  | delay (t : Dur)
  | resetLine (level : Bool)
  | hold
  | release
  deriving DecidableEq, Repr

/-- A primitive and the phase SEQ was in. -/
structure Event where
  phase : Phase
  prim  : Prim
  deriving DecidableEq, Repr

/-! ### The machine -/

/-- The whole state. -/
structure State where
  /-- The configuration record of rule R6, which no step writes (log 10). -/
  P     : Params
  seq   : Seq
  dev   : Dev
  /-- What the host presents and SEQ has not accepted, first to come first. -/
  port  : List Packet
  /-- What the outside world still does, one tick a primitive; when it runs out nothing external happens. -/
  env   : List Tick
  /-- The counter free values are drawn with (log 6). -/
  draws : Nat
  /-- Every primitive performed, oldest first (log 9). -/
  bus   : List Event
  deriving DecidableEq, Repr

/-- The spec names no event that stops the machine with a fault: its failures are typed results of a command that ends and
leaves SEQ idle (rules R260, R270, R272). Nothing raises a fault, so there is no constructor, which is safe. -/
inductive Fault where
  deriving DecidableEq, Repr

/-- Why the machine gives an instruction no meaning; each is a place where the spec says "refuse". -/
inductive Refusal where
  /-- Raised by exec for an instruction without a meaning yet; safe. -/
  | notModelled (mnemonic : String)
  /-- Raised by the meanings of the seven drawing commands and of BTECOPY while SEQ.cfg is invalid (rules R200, R221, U8:
  "The model's command relation has no transition for it"); safe. -/
  | notAdmitted
  /-- Raised by BTECOPY's meaning for a layer outside {1, 2} or a vertical coordinate above 0x7FFF (rule R221, U10); safe. -/
  | bteOperands
  /-- Raised by step for a packet whose bytes are no instruction of its format (rules R93, R115, U1, U9); safe. -/
  | undecodable
  deriving DecidableEq, Repr

/-- SEQ.op after reset: don't-care in rule R52, zero here (DESIGN CHOICE, log 11). -/
def Op.reset : Op where
  code := 0
  reg := 0
  reg0 := 0
  reg1 := 0
  byte := 0
  v := 0
  x0 := 0
  y0 := 0
  x1 := 0
  y1 := 0
  x2 := 0
  y2 := 0
  cx := 0
  cy := 0
  r := 0
  c := 0
  sl := 0
  dl := 0
  sx := 0
  sy := 0
  dx := 0
  dy := 0
  w := 0
  h := 0
  transparent := false
  key := 0
  width := 0
  height := 0
  depth := 0

/-- SEQ after its own reset (rule R52). -/
def Seq.reset : Seq where
  busy := false
  phase := .idle
  step := 0
  cur := .unknown
  cfg := none
  hold := false
  op := Op.reset
  pollcnt := 0
  result := .ok
  rdata := 0
  pllDone := false
  resetn := true
  ucode := []
  rx := 0
  rxPrev := 0

/-- DEV at power-up (rules R53, R301): every field `?`, the log empty. -/
def Dev.powerUp : Dev where
  cur := .unknown
  mem := []
  drawBusy := .unknown
  circBusy := .unknown
  bteBusy := .unknown
  oplog := []
  rstIfUnk := .unknown

/-- The machine right after reset: the state `S0` of 95_test_vectors.md, with nothing presented and nothing pending. -/
def State.reset : State where
  P := exampleParams
  seq := Seq.reset
  dev := Dev.powerUp
  port := []
  env := []
  draws := 0
  bus := []

end Sys2Proof.Machine
end

