-- ==== Sys2Proof/Machine/Flags.lean ====
section
/-! DEFINITION. The busy flags, the only flags of this hardware (rule R35), and the bytes they are read in. -/

namespace Sys2Proof.Machine

/-- What a flag contributes to a byte read: its bit, or the drawn bit while it is `?` (rule R38). -/
def flagBit (f : Unk Bool) (mask any : Byte) : Byte :=
  match f with
  | .known true => mask
  | .known false => 0
  | .unknown => any &&& mask

/-- All three busy flags are 0 (rules R204, R205, R231). -/
def Dev.allIdle (d : Dev) : Bool :=
  d.drawBusy == .known false && d.circBusy == .known false && d.bteBusy == .known false

/-- What DCR reads as (rules R44, R149): START and CSTART are the flags, the other bits a draw. -/
def Dev.dcrByte (d : Dev) (any : Byte) : Byte :=
  (any &&& 0x3F) ||| flagBit d.drawBusy 0x80 any ||| flagBit d.circBusy 0x40 any

/-- What the status register reads as (rules R50, R133): bit 6 is the BTE's flag, the other bits a draw. -/
def Dev.statusByte (d : Dev) (any : Byte) : Byte :=
  (any &&& 0xBF) ||| flagBit d.bteBusy 0x40 any

/-- The completion steps a tick holds (rules R206, R232): each clears its flag, whatever it holds. -/
def Dev.complete (d : Dev) (t : Tick) : Dev :=
  { d with
    drawBusy := if t.drawDone then .known false else d.drawBusy
    circBusy := if t.circDone then .known false else d.circBusy
    bteBusy := if t.bteDone then .known false else d.bteBusy }

end Sys2Proof.Machine
end

