-- ==== Sys2Proof/Machine/Memory.lean ====
section
/-! DEFINITION. The register space DEV.REG (rule R32): 256 byte cells, a cell that is not listed being `?`. The list is
canonical: addresses strictly rising and below 256. -/

namespace Sys2Proof.Machine

/-- The canonical form. (No entry can equal what an unlisted address reads as: that is `?`, and an entry is a byte.) -/
abbrev Memory.wf (m : List Host.Cell) : Prop :=
  (m.map Prod.fst).Pairwise (· < ·) ∧ ∀ c ∈ m, c.1 < 256

/-- The cell at an address. -/
def Memory.read : List Host.Cell → Nat → Unk Byte
  | [], _ => .unknown
  | (k, v) :: m, a => if k = a then .known v else Memory.read m a

/-- `REG[a] <- b`. -/
def Memory.write : List Host.Cell → Nat → Byte → List Host.Cell
  | [], a, b => [(a, b)]
  | (k, v) :: m, a, b =>
    if a < k then (a, b) :: (k, v) :: m
    else if a = k then (a, b) :: m
    else (k, v) :: Memory.write m a b

/-- `REG[a] <- ?`. -/
def Memory.lose : List Host.Cell → Nat → List Host.Cell
  | [], _ => []
  | (k, v) :: m, a => if k = a then Memory.lose m a else (k, v) :: Memory.lose m a

/-- `REG[a]` of a device. -/
def Dev.cell (d : Dev) (a : Byte) : Unk Byte := Memory.read d.mem a.toNat

/-- `REG[a] <- b`. -/
def Dev.setCell (d : Dev) (a b : Byte) : Dev := { d with mem := Memory.write d.mem a.toNat b }

/-- `REG[a] <- ?`. -/
def Dev.loseCell (d : Dev) (a : Byte) : Dev := { d with mem := Memory.lose d.mem a.toNat }

/-- The contents of a group of registers, name by name (rule R45). -/
def Dev.snapshot (P : Params) (d : Dev) (names : List RegName) : Snapshot :=
  names.map fun n => (n, d.cell (P.addr n))

end Sys2Proof.Machine
end

