-- ==== Sys2Proof/Machine/Operands.lean ====
section
/-! DEFINITION. Operand assembly: every computation SEQ makes on an operand (rules R103 to R106, R109). All values are
unsigned bit patterns and none of these sets a flag. -/

namespace Sys2Proof.Machine

/-- `Lo(v) = v[7:0]` (rule R105). -/
def lo (v : Half) : Byte := v.extractLsb' 0 8

/-- `Hi(v) = v[15:8]` (rule R105). -/
def hi (v : Half) : Byte := v.extractLsb' 8 8

/-- `(hi << 8) | lo`, the inverse of the split (rules R105, R143). -/
def join16 (l h : Byte) : Half := h ++ l

/-- `HiL(y, l)`: the layer bit ORed into the high byte of a BTE vertical coordinate (rule R106). -/
def hiL (y : Half) (l : BitVec 2) : Byte := hi y ||| (if l = 2 then 0x80 else 0x00)

/-- `ColR(c)`: red, RGB565 at depth 16 and RGB332 at depth 8 (rules R103, R104). -/
def colR (P : Params) (d : Depth) (c : Half) : Byte :=
  match d with
  | .d16 => (c.extractLsb' 11 5).setWidth 8
  | .d8 => (c.extractLsb' 5 3).setWidth 8 <<< P.shiftR

/-- `ColG(c)` (rules R103, R104). -/
def colG (P : Params) (d : Depth) (c : Half) : Byte :=
  match d with
  | .d16 => (c.extractLsb' 5 6).setWidth 8
  | .d8 => (c.extractLsb' 2 3).setWidth 8 <<< P.shiftG

/-- `ColB(c)` (rules R103, R104). -/
def colB (P : Params) (d : Depth) (c : Half) : Byte :=
  match d with
  | .d16 => (c.extractLsb' 0 5).setWidth 8
  | .d8 => (c.extractLsb' 0 2).setWidth 8 <<< P.shiftB

/-- The colour the three register bytes stand for: the inverse of the decomposition (rules R103, R104). At depth 8 it
is the 8-bit colour, zero-extended. -/
def colJoin (P : Params) (d : Depth) (r g b : Byte) : Half :=
  match d with
  | .d16 => ((r.extractLsb' 0 5 ++ g.extractLsb' 0 6) ++ b.extractLsb' 0 5 : BitVec 16)
  | .d8 => (((r >>> P.shiftR).extractLsb' 0 3 ++ (g >>> P.shiftG).extractLsb' 0 3)
      ++ (b >>> P.shiftB).extractLsb' 0 2 : BitVec 8).setWidth 16

/-- The two writes of the soft reset: `v | PWR_RST` and `v & ~PWR_RST` (rule R107). -/
def setRst (P : Params) (v : Byte) : Byte := v ||| P.pwrRst
def clrRst (P : Params) (v : Byte) : Byte := v &&& ~~~P.pwrRst

/-- `Adv(p)` of a known pointer (rule R134): the wrap is mod 256. -/
def advByte (P : Params) (p : Byte) : Byte :=
  match P.ptrPolicy with
  | .reuse => p
  | .increment => p + 1

/-- `Adv(p)`: the pointer after a DATA frame (rule R134); `?` stays `?`. -/
def adv (P : Params) (p : Unk Byte) : Unk Byte := p.map (advByte P)

/-- `zext_16(b)` of a byte a read command returns (rule R111). -/
def zext16 (b : Byte) : Half := b.setWidth 16

end Sys2Proof.Machine
end

