-- ==== Sys2Proof/Machine/Device.lean ====
section
/-! DEFINITION. DEV's reaction to a frame: the register-addressing state machine (rules R130 to R134, R148, R149), the
triggers (R204, R205, R231), the resets (R302, R303) and the treatments U2 to U5 and U11 of 93_implementation_defined.md.
`n` is the draw counter of the frame. -/

namespace Sys2Proof.Machine

/-! ### Register groups -/

/-- The drawing geometry group (rule R43). -/
def geometryRegs : List RegName :=
  [.DX0_L, .DX0_H, .DY0_L, .DY0_H, .DX1_L, .DX1_H, .DY1_L, .DY1_H, .DX2_L, .DX2_H, .DY2_L, .DY2_H,
   .CX_L, .CX_H, .CY_L, .CY_H, .CRAD]

/-- The foreground colour group (rule R46). -/
def colourRegs : List RegName := [.FGC_R, .FGC_G, .FGC_B]

/-- What a drawing engine latches (rule R45). -/
def drawRegs : List RegName := geometryRegs ++ colourRegs

/-- What the BTE latches (rules R45, R231): the groups of rules R46 to R49. -/
def bteRegs : List RegName :=
  [.BSX_L, .BSX_H, .BSY_L, .BSY_H, .BDX_L, .BDX_H, .BDY_L, .BDY_H, .BW_L, .BW_H, .BH_L, .BH_H,
   .BTE_CTRL0, .BTE_CTRL1, .BTK_R, .BTK_G, .BTK_B] ++ colourRegs

/-- An address belongs to a group. -/
def inGroup (P : Params) (names : List RegName) (a : Byte) : Bool := names.any fun m => P.addr m == a

/-! ### Free draws -/

/-- The drawn address a frame reaches while DEV.CUR is `?` (rule R38). -/
def anyAddr (n : Nat) : Byte := Config.freeByte n 0
/-- The drawn contents of PWR, where they decide whether DEV is in software reset (rule R303, U5). -/
def anyPwr (n : Nat) : Byte := Config.freeByte n 1
/-- The drawn byte, or drawn bits, a read returns. -/
def anyRead (n : Nat) : Byte := Config.freeByte n 2
/-- The drawn contents of a size register that is `?` when the BTE is triggered (U11). -/
def anySize (n k : Nat) : Byte := Config.freeByte n (3 + k)

/-! ### Resets and unspecified behaviour -/

/-- The hard reset at `ResetLine(0)` (rule R302). DEV is then not in software reset, as INIT needs (rule R311, log 12). -/
def Dev.hardReset (d : Dev) : Dev :=
  { d with
    cur := .unknown
    mem := []
    drawBusy := .known false
    circBusy := .known false
    bteBusy := .known false
    rstIfUnk := .known false }

/-- The `any value` treatment of U2 and U3: every field of DEV but the log becomes `?`, and the log gets a record of an
UNKNOWN operation. -/
def Dev.scramble (P : Params) (d : Dev) (b : Byte) (names : List RegName) : Dev where
  cur := .unknown
  mem := []
  drawBusy := .unknown
  circBusy := .unknown
  bteBusy := .unknown
  oplog := d.oplog ++ [{ engine := .unknown, code := b, regs := .known (d.snapshot P names) }]
  rstIfUnk := .unknown

/-- The registers of the newest record of an engine become `?` (U4): the list is newest first. -/
def taintNewest (e : Engine) : List OpRecord → List OpRecord
  | [] => []
  | r :: rs => if r.engine = e then { r with regs := .unknown } :: rs else r :: taintNewest e rs

/-- The record of an engine's operation in flight becomes tainted, if it has one (its flag is 1). -/
def taintIf (busy : Unk Bool) (e : Engine) (log : List OpRecord) : List OpRecord :=
  if busy = .known true then (taintNewest e log.reverse).reverse else log

/-- The log after a data write to address `a` (U4): every operation in flight whose snapshot holds that register is
tainted. -/
def Dev.taintedLog (P : Params) (d : Dev) (a : Byte) : List OpRecord :=
  let l := if inGroup P drawRegs a then taintIf d.circBusy .circ (taintIf d.drawBusy .draw d.oplog) else d.oplog
  if inGroup P bteRegs a then taintIf d.bteBusy .bte l else l

/-- DEV is in software reset at this frame (rule R303, U5): PWR says so; while PWR is `?` it is what `rstIfUnk` says, a
drawn byte for PWR if that too is `?`. -/
def Dev.inReset (P : Params) (n : Nat) (d : Dev) : Bool :=
  match d.cell (P.addr .PWR) with
  | .known b => b &&& P.pwrRst != 0
  | .unknown => d.rstIfUnk.getD (anyPwr n &&& P.pwrRst != 0)

/-! ### Data writes -/

/-- The operation codes of rule R204. -/
def drawCodes : List Byte := [0x00, 0x10, 0x30, 0x01, 0x21]

/-- The operation codes of rule R205. -/
def circCodes : List Byte := [0x00, 0x20]

/-- A flag after a DCR write without a start bit: the effect on an operation in flight is unspecified (rule R205), so a
flag that is 1 becomes `?` (log 15). -/
def disturbed (f : Unk Bool) : Unk Bool := if f = .known true then .unknown else f

/-- A data write to DCR (rules R204, R205, U2, U3). A byte with any of bits 3:1 set falls under U2 (U7), with a start bit because
its code is unlisted. DESIGN CHOICE, unsafe: any other byte without a start bit starts nothing, as rule R205 says, where rule R115
calls it unspecified (log 34). -/
def Dev.writeDcr (P : Params) (d : Dev) (b : Byte) : Dev :=
  match b.getLsbD 7, b.getLsbD 6 with
  | true, false =>
    if drawCodes.contains (b &&& 0x7F) && d.allIdle then
      { d with
        drawBusy := .known true
        oplog := d.oplog ++ [{ engine := .draw, code := b, regs := .known (d.snapshot P drawRegs) }] }
    else d.scramble P b drawRegs
  | false, true =>
    if circCodes.contains (b &&& 0xBF) && d.allIdle then
      { d with
        circBusy := .known true
        oplog := d.oplog ++ [{ engine := .circ, code := b, regs := .known (d.snapshot P drawRegs) }] }
    else d.scramble P b drawRegs
  | true, true => d.scramble P b drawRegs
  | false, false =>
    if b &&& 0x0E = 0 then
      { d with
        drawBusy := disturbed d.drawBusy
        circBusy := disturbed d.circBusy
        oplog := taintIf d.circBusy .circ (taintIf d.drawBusy .draw d.oplog) }
    else d.scramble P b drawRegs

/-- The BTE's operation byte is one of the two given (rule R231). -/
def Dev.bteOperationOk (P : Params) (d : Dev) : Bool :=
  d.cell (P.addr .BTE_CTRL1) == .known 0xC2 || d.cell (P.addr .BTE_CTRL1) == .known 0xC5

/-- A latched width or height is 0 (rule R231, U11); a `?` byte of it is a draw. -/
def Dev.bteSizeZero (P : Params) (n : Nat) (d : Dev) : Bool :=
  ((d.cell (P.addr .BW_L)).getD (anySize n 0) == 0 && (d.cell (P.addr .BW_H)).getD (anySize n 1) == 0)
  || ((d.cell (P.addr .BH_L)).getD (anySize n 2) == 0 && (d.cell (P.addr .BH_H)).getD (anySize n 3) == 0)

/-- A data write to BTE_CTRL0 (rule R231, U2, U3, U11). Without bit 7 it starts nothing, as rule R231 says, and
taints (U4). DESIGN CHOICE, unsafe: rule R115 calls such a byte unspecified (log 34). -/
def Dev.writeBteStart (P : Params) (n : Nat) (d : Dev) (b : Byte) : Dev :=
  if b.getLsbD 7 then
    if b == 0x80 && d.bteOperationOk P && d.allIdle && !d.bteSizeZero P n then
      { d with
        bteBusy := .known true
        oplog := d.oplog ++ [{ engine := .bte, code := b, regs := .known (d.snapshot P bteRegs) }] }
    else d.scramble P b bteRegs
  else { d with oplog := d.taintedLog P (P.addr .BTE_CTRL0) }

/-- A data write to PWR (rule R303). With the reset bit set every other cell and the pointer become `?` and the flags 0. -/
def Dev.writePwr (P : Params) (d : Dev) (b : Byte) : Dev :=
  if b &&& P.pwrRst != 0 then
    { d with
      cur := .unknown
      mem := [((P.addr .PWR).toNat, b)]
      drawBusy := .known false
      circBusy := .known false
      bteBusy := .known false }
  else d.setCell (P.addr .PWR) b

/-- `DevWrite(a, b)` (rule R148), the tests in the order the rule gives them. Any byte is stored in BTE_CTRL1 (rule R48; log 34). -/
def Dev.write (P : Params) (n : Nat) (d : Dev) (a b : Byte) : Dev :=
  if a = P.addr .DCR then d.writeDcr P b
  else if a = P.addr .BTE_CTRL0 then d.writeBteStart P n b
  else if a = P.addr .PWR then d.writePwr P b
  else { d.setCell a b with oplog := d.taintedLog P a }

/-- `DevRead(a)` (rule R149). -/
def Dev.read (P : Params) (n : Nat) (d : Dev) (a : Byte) : Byte :=
  if a = P.addr .DCR then d.dcrByte (anyRead n)
  else if a = P.addr .BTE_CTRL0 then anyRead n
  else (d.cell a).getD (anyRead n)

/-! ### Frames -/

/-- The address a DATA frame reaches (rules R131, R132). -/
def Dev.target (n : Nat) (d : Dev) : Byte := d.cur.getD (anyAddr n)

/-- A DATA frame to register `a` is disturbed by software reset (U5). -/
def Dev.blocked (P : Params) (n : Nat) (d : Dev) (a : Byte) : Bool := a != P.addr .PWR && d.inReset P n

/-- `CMDW a` at DEV (rule R130). -/
def Dev.cmdw (d : Dev) (a : Byte) : Dev := { d with cur := .known a }

/-- The write of `DATW b` before the pointer moves (rule R131, U5). -/
def Dev.datwCell (P : Params) (n : Nat) (d : Dev) (b : Byte) : Dev :=
  if d.blocked P n (d.target n) then d.loseCell (d.target n) else d.write P n (d.target n) b

/-- `DATW b` at DEV (rule R131). -/
def Dev.datw (P : Params) (n : Nat) (d : Dev) (b : Byte) : Dev :=
  { d.datwCell P n b with cur := adv P (d.datwCell P n b).cur }

/-- The byte `DATR` returns (rule R132, U5). -/
def Dev.datrByte (P : Params) (n : Nat) (d : Dev) : Byte :=
  if d.blocked P n (d.target n) then anyRead n else d.read P n (d.target n)

/-- DEV after a frame (rules R130 to R133). -/
def Dev.after (P : Params) (n : Nat) (d : Dev) (op : FrameOp) (p : Byte) : Dev :=
  match op with
  | .cmdw => d.cmdw p
  | .datw => d.datw P n p
  | .datr => { d with cur := adv P d.cur }
  | .stsr => d

/-- The byte a frame returns to SEQ, where it is one SEQ reads (rules R92, R132, R133). -/
def Dev.reply (P : Params) (n : Nat) (d : Dev) (op : FrameOp) : Option Byte :=
  match op with
  | .cmdw => none
  | .datw => none
  | .datr => some (d.datrByte P n)
  | .stsr => some (d.statusByte (anyRead n))

end Sys2Proof.Machine
end

