-- ==== Sys2Proof/Machine/Ops.lean ====
section
/-! DEFINITION. The operations SEQ's pseudocode is made of: the primitives (rules R10, R11), `Frame` (R139), `abort` and
`finish` (R12, R21, R270), acceptance (R21), the poll loop (R144, R145), and running a list of micro-operations. -/

namespace Sys2Proof.Machine

/-! ### The gap before a primitive -/

/-- What the outside world does around the next primitive; nothing once `env` has run out. -/
def State.now (s : State) : Tick := s.env.headD {}

/-- The gap before a primitive: the tick is used up and its completion steps happen (rules R13, R206, R232). -/
def State.gap (s : State) : State := { s with env := s.env.tail, dev := s.dev.complete s.now }

/-- SEQ's own reset (rules R52, R300): SEQ returns to its reset values, SEQ.op keeps what it holds (don't-care), the
pseudocode in progress is dropped, and DEV is not touched. -/
def State.resetSeq (s : State) : State := { s with seq := { Seq.reset with op := s.seq.op } }

/-- A primitive is performed: SEQ.step counts it (rule R22) and `bus` records it. -/
def State.perform (s : State) (p : Prim) : State :=
  { s with
    seq := { s.seq with step := s.seq.step + 1 }
    bus := s.bus ++ [{ phase := s.seq.phase, prim := p }] }

/-! ### Ending a command -/

/-- `Release()` (rule R11). -/
def State.release (s : State) : State :=
  { s.perform .release with seq := { (s.perform .release).seq with hold := false } }

/-- `ResetLine(level); SEQ.resetn <- level` (rules R11, R163). Level 0 resets DEV (rule R302), and SEQ's shadow is `?` from then
on, as rule R54 asks of a device reset (log 19). -/
def State.driveReset (s : State) (level : Bool) : State :=
  { s.perform (.resetLine level) with
    seq := { (s.perform (.resetLine level)).seq with
      resetn := level
      cur := if level then s.seq.cur else .unknown }
    dev := if level then s.dev else s.dev.hardReset }

/-- SEQ.cfg after a failure: an INIT that a transport failure ends leaves it invalid (rule R171, log 17). -/
def Seq.cfgAfterAbort (q : Seq) (x : Result) : Option DeviceConfig :=
  if q.busy && q.op.code == 0x10 && x == .busTransportFailure then none else q.cfg

/-- A primitive of `abort`, and what follows it: like any primitive it has a gap before it (rule R13), in which DEV may complete
and SEQ may be reset (log 18). -/
def State.closing (s : State) (body k : State → State) : State :=
  if s.now.seqReset then s.gap.resetSeq else k (body s.gap)

/-- `if SEQ.hold = 1: Release()` (rule R270), and what follows. -/
def State.letGo (s : State) (k : State → State) : State := if s.seq.hold then s.closing State.release k else k s

/-- `if SEQ.resetn = 0: ResetLine(1); SEQ.resetn <- 1` (rule R270), and what follows. -/
def State.lineHigh (s : State) (k : State → State) : State :=
  if s.seq.resetn then k s else s.closing (fun t => t.driveReset true) k

/-- `SEQ.result <- X; SEQ.phase <- IDLE; SEQ.busy <- 0` (rule R270). -/
def State.post (s : State) (x : Result) : State :=
  { s with
    seq := { s.seq with
      result := x
      phase := .idle
      busy := false
      cfg := s.seq.cfgAfterAbort x
      ucode := [] } }

/-- `abort(X)` (rule R270), the only entry into failure handling: the bus and the reset line are released, the result is
posted, SEQ is idle. There is nothing to return from (rule R272). -/
def State.abort (s : State) (x : Result) : State := s.letGo fun t => t.lineHigh fun u => u.post x

/-- SEQ.rdata when a command ends OK (rules R28, R137, R138, R141, R143). -/
def Seq.returned (q : Seq) (r : Ret) : Half :=
  match r with
  | .none => q.rdata
  | .byte => zext16 q.rx
  | .word => join16 q.rxPrev q.rx

/-- `finish(code)` (rules R12, R21), with the value a read command returns. -/
def State.finish (s : State) (x : Result) (r : Ret) : State :=
  { s with
    seq := { s.seq with
      result := x
      rdata := s.seq.returned r
      phase := .idle
      busy := false
      ucode := [] } }

/-- Acceptance (rule R21). -/
def State.accept (s : State) (op : Op) : State :=
  { s with seq := { s.seq with op := op, busy := true, step := 0, pollcnt := 0 } }

/-! ### One frame -/

/-- A data write through SEQ's pointer that resets DEV (rule R303): the shadow names PWR and the byte has the reset bit. -/
def Seq.resetsDevice (P : Params) (q : Seq) (b : Byte) : Bool := q.cur == .known (P.addr .PWR) && b &&& P.pwrRst != 0

/-- SEQ.cur after a frame that did not fail (rule R139); a data write that resets DEV leaves it `?` (rules R23, R54, D47). -/
def Seq.curAfter (P : Params) (q : Seq) (op : FrameOp) (p : Byte) : Unk Byte :=
  match op with
  | .cmdw => .known p
  | .datw => if q.resetsDevice P p then .unknown else adv P q.cur
  | .datr => adv P q.cur
  | .stsr => q.cur

/-- DEV has performed the frame's action and SEQ takes the byte it returned. -/
def State.sent (s : State) (op : FrameOp) (p : Byte) : State :=
  let reply := s.dev.reply s.P s.draws op
  let t := s.perform (.xfer op p reply)
  { t with
    seq := { t.seq with
      cur := s.seq.curAfter s.P op p
      rx := reply.getD s.seq.rx
      rxPrev := if reply.isSome then s.seq.rx else s.seq.rxPrev }
    dev := s.dev.after s.P s.draws op p
    draws := s.draws + 1 }

/-- The transport failed: SEQ.cur is `?`, and DEV either acted on the frame or did not (rule R139). -/
def State.unsent (s : State) (op : FrameOp) (p : Byte) (acted : Bool) : State :=
  let t := s.perform (.xferFailed op p)
  { t with
    seq := { t.seq with cur := .unknown }
    dev := if acted then s.dev.after s.P s.draws op p else s.dev
    draws := s.draws + 1 }

/-! ### Micro-operations -/

/-- What a micro-operation leads to: the next one, the end of the model's step (log 7), the end of the command, or another
poll iteration. -/
inductive Flow where
  | go (s : State)
  | pause (s : State)
  | halt (s : State)
  | again (k : PollKind) (s : State)

/-- The gap before a primitive, in which SEQ may be reset (rules R300, R331). -/
def State.inGap (s : State) (body : State → Flow) : Flow :=
  if s.now.seqReset then .halt s.gap.resetSeq else body s.gap

/-- After a primitive the model's step may end (log 7). -/
def Tick.onward (t : Tick) (s : State) : Flow := if t.pause then .pause s else .go s

/-- A primitive that cannot fail (rule R11). -/
def State.primitive (s : State) (body : State → State) : Flow := s.inGap fun t => s.now.onward (body t)

/-- `Frame(op, p)` (rule R139): the transport's answer decides. -/
def State.frame (s : State) (op : FrameOp) (p : Byte) : Flow :=
  s.inGap fun t =>
    match s.now.fate with
    | .ok => s.now.onward (t.sent op p)
    | .failActed => .halt ((t.unsent op p true).abort .busTransportFailure)
    | .failLost => .halt ((t.unsent op p false).abort .busTransportFailure)

/-- The frames of one poll iteration: `RdReg(a)` or `STSR` (rules R144, R145). -/
def pollFrames (k : PollKind) : List Micro :=
  match k with
  | .reg a _ => [.frame .cmdw a, .frame .datr 0x00]
  | .status _ => [.frame .stsr 0x00]

/-- The mask a poll tests. -/
def PollKind.mask : PollKind → Byte
  | .reg _ m => m
  | .status m => m

/-- The end of a poll iteration (rules R144, R145): clear bits end the loop; a busy read is counted; the POLL_MAX-th one
is DeviceTimeout; otherwise SEQ waits T_POLL and reads again. -/
def State.pollTest (s : State) (k : PollKind) : Flow :=
  if s.seq.rx &&& k.mask = 0 then .go s
  else
    let s1 := { s with seq := { s.seq with pollcnt := s.seq.pollcnt + 1 } }
    if s.P.pollMax = some s1.seq.pollcnt then .halt (s1.abort .deviceTimeout)
    else s1.inGap fun t => .again k (t.perform (.delay .tPoll))

/-- One micro-operation. -/
def State.micro (s : State) (m : Micro) : Flow :=
  match m with
  | .hold => s.primitive fun t => { t.perform .hold with seq := { (t.perform .hold).seq with hold := true } }
  | .release => s.primitive State.release
  | .frame op p => s.frame op p
  | .writeSet => s.frame .datw (setRst s.P s.seq.rx)
  | .writeClr => s.frame .datw (clrRst s.P s.seq.rx)
  | .delay d => s.primitive fun t => t.perform (.delay d)
  | .resetLine level => s.primitive fun t => t.driveReset level
  | .phase p => .go { s with seq := { s.seq with phase := p } }
  | .pllDone v => .go { s with seq := { s.seq with pllDone := v } }
  | .forget => .go { s with seq := { s.seq with cur := .unknown } }
  | .pollStart => .go { s with seq := { s.seq with pollcnt := 0 } }
  | .pollTest k => s.pollTest k
  | .setCfg d =>
    .go { s with
      seq := { s.seq with
        cfg := some
          { width := s.seq.op.width
            height := s.seq.op.height
            colorDepth := d
            chipSelect := s.P.chipSelect
            resetLine := s.P.hasResetLine
            interruptLine := s.P.hasIntLine } } }
  | .finish r => .halt (s.finish .ok r)

/-- The pseudocode in progress is remembered for the next step. -/
def State.keep (s : State) (k : List Micro) : State := { s with seq := { s.seq with ucode := k } }

/-- Runs micro-operations until they end, the command ends, the step is to end, or a poll iteration has read busy (then the
next step makes the next iteration, log 7). -/
def run : List Micro → State → State
  | [], s => s.keep []
  | m :: k, s =>
    match s.micro m with
    | .go t => run k t
    | .pause t => t.keep k
    | .halt t => t
    | .again p t => t.keep (pollFrames p ++ m :: k)

/-- Frames in one bus-held window of their own: "`Frame` must be called with `SEQ.hold = 1`" (rules R25, R139, D13). Where SEQ
holds the bus already, the window is the enclosing command's (rule R121). -/
def State.inWindow (s : State) (body : List Micro) : State :=
  run (if s.seq.hold then body else [.hold] ++ body ++ [.release]) s

end Sys2Proof.Machine
end

