-- ==== Sys2Proof/Machine/Programs.lean ====
section
/-! DEFINITION. The pseudocode of the procedures and commands as lists of micro-operations: "the microprogram of each
command is the pseudocode of its rule" (rule R22). They read their operands from SEQ.op (rule R26). -/

namespace Sys2Proof.Machine

/-- `WrReg` at an address (rule R140). -/
def wrAddr (a b : Byte) : List Micro := [.frame .cmdw a, .frame .datw b]

/-- `RdReg` at an address (rule R141): the byte is SEQ's last byte read. -/
def rdAddr (a : Byte) : List Micro := [.frame .cmdw a, .frame .datr 0x00]

/-- `Wr16` at two addresses (rule R142). -/
def wr16Addr (aL aH : Byte) (v : Half) : List Micro := wrAddr aL (lo v) ++ wrAddr aH (hi v)

/-- `WrReg(n, b)` with a register name. -/
def wrReg (P : Params) (n : RegName) (b : Byte) : List Micro := wrAddr (P.addr n) b

/-- `Wr16` with register names. -/
def wr16 (P : Params) (nL nH : RegName) (v : Half) : List Micro := wr16Addr (P.addr nL) (P.addr nH) v

/-- `WrColour(R, G, B, c)` (rules R103, R104, R121, R201). -/
def wrColour (P : Params) (d : Depth) (nR nG nB : RegName) (c : Half) : List Micro :=
  wrReg P nR (colR P d c) ++ wrReg P nG (colG P d c) ++ wrReg P nB (colB P d c)

/-- One `WrReg` per entry of a table, in list order (rules R165 to R167). -/
def wrTable (t : List (Byte × Byte)) : List Micro := t.flatMap fun e => wrAddr e.1 e.2

/-- A whole poll loop (rules R144, R145). -/
def poll (k : PollKind) : List Micro := .pollStart :: (pollFrames k ++ [.pollTest k])

/-- A command in one bus-held window: `Hold(); body; Release(); finish(OK)` (rules R25, R135 to R143). -/
def window (body : List Micro) (r : Ret) : List Micro := [.hold] ++ body ++ [.release, .finish r]

/-- The end every engine command has in common: the trigger writes, the poll, idle, the release (rules R197 to R199, R220). -/
def triggerAndPoll (trigger : List Micro) (k : PollKind) : List Micro :=
  [.phase .paramsStaged] ++ trigger ++ [.phase .triggered] ++ poll k ++ [.phase .idle]

/-- Start and end point of a drawing command (rules R197, R198). -/
def stageTwoPoints (P : Params) (o : Op) : List Micro :=
  wr16 P .DX0_L .DX0_H o.x0 ++ wr16 P .DY0_L .DY0_H o.y0 ++ wr16 P .DX1_L .DX1_H o.x1 ++ wr16 P .DY1_L .DY1_H o.y1

/-- `Draw2` after its admission (rule R197). -/
def draw2 (P : Params) (d : Depth) (o : Op) (t : Byte) : List Micro :=
  window (stageTwoPoints P o
    ++ wrColour P d .FGC_R .FGC_G .FGC_B o.c
    ++ triggerAndPoll (wrReg P .DCR t) (.reg (P.addr .DCR) 0x80)) .none

/-- `Draw3` after its admission (rule R198). -/
def draw3 (P : Params) (d : Depth) (o : Op) (t : Byte) : List Micro :=
  window (stageTwoPoints P o
    ++ wr16 P .DX2_L .DX2_H o.x2 ++ wr16 P .DY2_L .DY2_H o.y2
    ++ wrColour P d .FGC_R .FGC_G .FGC_B o.c
    ++ triggerAndPoll (wrReg P .DCR t) (.reg (P.addr .DCR) 0x80)) .none

/-- `DrawC` after its admission (rule R199). -/
def drawC (P : Params) (d : Depth) (o : Op) (t : Byte) : List Micro :=
  window (wr16 P .CX_L .CX_H o.cx ++ wr16 P .CY_L .CY_H o.cy
    ++ wrReg P .CRAD o.r
    ++ wrColour P d .FGC_R .FGC_G .FGC_B o.c
    ++ triggerAndPoll (wrReg P .DCR t) (.reg (P.addr .DCR) 0x40)) .none

/-- A BTE corner: x, then y with the layer bit in its high byte (rules R106, R223). -/
def stageCorner (P : Params) (xL xH yL yH : RegName) (x y : Half) (l : BitVec 2) : List Micro :=
  wr16 P xL xH x ++ wrReg P yL (lo y) ++ wrReg P yH (hiL y l)

/-- The operation byte (rules R101, R225). -/
def bteOperation (transparent : Bool) : Byte := if transparent then 0xC5 else 0xC2

/-- `BTECOPY` after its admission and the zero-size test (rule R220). -/
def bteCopy (P : Params) (d : Depth) (o : Op) : List Micro :=
  window (stageCorner P .BSX_L .BSX_H .BSY_L .BSY_H o.sx o.sy o.sl
    ++ stageCorner P .BDX_L .BDX_H .BDY_L .BDY_H o.dx o.dy o.dl
    ++ wr16 P .BW_L .BW_H o.w ++ wr16 P .BH_L .BH_H o.h
    ++ (if o.transparent then wrColour P d .BTK_R .BTK_G .BTK_B o.key else [])
    ++ triggerAndPoll (wrReg P .BTE_CTRL1 (bteOperation o.transparent) ++ wrReg P .BTE_CTRL0 0x80) (.status 0x40)) .none

/-- `HardReset()` (rule R163). -/
def hardResetSteps : List Micro :=
  [.resetLine false, .delay .tRst, .resetLine true, .delay .tRstPost, .forget]

/-- `SoftReset()` (rule R164): six frames, the register read once. -/
def softResetSteps (P : Params) : List Micro :=
  rdAddr (P.addr .PWR)
    ++ [.frame .cmdw (P.addr .PWR), .writeSet, .delay .tSoft1]
    ++ [.frame .cmdw (P.addr .PWR), .writeClr, .delay .tSoft2, .forget]

/-- The reset path (rule R162). -/
def resetSteps (P : Params) : List Micro := if P.hasResetLine then hardResetSteps else softResetSteps P

/-- `INIT` after validation, for the panel SUPPORTED found (rules R160, R165 to R170). -/
def initProgram (P : Params) (o : Op) (p : Panel) : List Micro :=
  [.hold, .phase .reset, .pllDone false] ++ resetSteps P
    ++ [.phase .pll]
    ++ wrReg P .PLL1 p.pll1 ++ [.delay .tPll] ++ wrReg P .PLL2 p.pll2 ++ [.delay .tPll]
    ++ [.pllDone true, .phase .timing] ++ wrTable p.timing
    ++ [.phase .window] ++ wrTable p.layer
    ++ wr16 P .AWXS_L .AWXS_H 0 ++ wr16 P .AWYS_L .AWYS_H 0
    ++ wr16 P .AWXE_L .AWXE_H (o.width - 1) ++ wr16 P .AWYE_L .AWYE_H (o.height - 1)
    ++ wrTable P.font
    ++ [.phase .powerOn] ++ wrReg P .PWR pwrOnByte
    ++ [.release, .setCfg p.depth, .finish .none]

end Sys2Proof.Machine
end

