-- ==== Sys2Proof/Machine/Access.lean ====
section
/-! DEFINITION. The eight register-access commands (40_register_access.md). -/

namespace Sys2Proof.Machine

/-- A command is accepted when SEQ is idle and then runs; presented while SEQ is busy it "is not accepted and has no effect; it
waits" (rule R21). -/
def State.command (s : State) (op : Op) (prog : List Micro) : Host.Outcome State Fault Refusal :=
  if s.seq.busy then .next s else .next (run prog (s.accept op))

/-- WRCMD reg (rule R135). -/
def execWrcmd (reg : Byte) (s : State) : Host.Outcome State Fault Refusal :=
  let op := { s.seq.op with code := 0x01, reg := reg }
  s.command op (window [.frame .cmdw op.reg] .none)

/-- WRDATA byte (rule R136). -/
def execWrdata (byte : Byte) (s : State) : Host.Outcome State Fault Refusal :=
  let op := { s.seq.op with code := 0x02, byte := byte }
  s.command op (window [.frame .datw op.byte] .none)

/-- RDDATA (rule R137). -/
def execRddata (s : State) : Host.Outcome State Fault Refusal :=
  let op := { s.seq.op with code := 0x03 }
  s.command op (window [.frame .datr 0x00] .byte)

/-- RDSTATUS (rule R138). -/
def execRdstatus (s : State) : Host.Outcome State Fault Refusal :=
  let op := { s.seq.op with code := 0x04 }
  s.command op (window [.frame .stsr 0x00] .byte)

/-- WRREG reg, byte (rule R140). -/
def execWrreg (reg byte : Byte) (s : State) : Host.Outcome State Fault Refusal :=
  let op := { s.seq.op with code := 0x05, reg := reg, byte := byte }
  s.command op (window (wrAddr op.reg op.byte) .none)

/-- RDREG reg (rule R141). -/
def execRdreg (reg : Byte) (s : State) : Host.Outcome State Fault Refusal :=
  let op := { s.seq.op with code := 0x06, reg := reg }
  s.command op (window (rdAddr op.reg) .byte)

/-- WR16 reg0, reg1, v (rule R142). -/
def execWr16 (reg0 reg1 : Byte) (v : Half) (s : State) : Host.Outcome State Fault Refusal :=
  let op := { s.seq.op with code := 0x07, reg0 := reg0, reg1 := reg1, v := v }
  s.command op (window (wr16Addr op.reg0 op.reg1 op.v) .none)

/-- RD16 reg0, reg1 (rule R143): the low register first. -/
def execRd16 (reg0 reg1 : Byte) (s : State) : Host.Outcome State Fault Refusal :=
  let op := { s.seq.op with code := 0x08, reg0 := reg0, reg1 := reg1 }
  s.command op (window (rdAddr op.reg0 ++ rdAddr op.reg1) .word)

end Sys2Proof.Machine
end

