-- ==== Sys2Proof/WellFormed.lean ====
section
/-! DEFINITION. What the spec asks of an instruction before any state is looked at. -/

namespace Sys2Proof

/-- A LayerSelector has "values {1,2}" (rule R7). -/
def layerOk (l : BitVec 2) : Bool := l == 1 || l == 2

/-- A BTE vertical coordinate leaves bit 7 of its high byte to the layer (rule R221). -/
def bteYOk (y : Half) : Bool := decide (y ≤ 0x7FFF)

/-- The part of BTECOPY's admission that is about its operands (rule R221). -/
def bteOperandsOk (sl dl : BitVec 2) (sy dy : Half) : Bool :=
  layerOk sl && layerOk dl && bteYOk sy && bteYOk dy

/-- Well-formedness. SEQ sends 0x00 as the payload of a read frame (rule R92); BTECOPY's layers and vertical coordinates
are those of rule R221; every other operand is checked by its width alone. -/
def Instr.wf : Instr → Bool
  | .cmdw _ => true
  | .datw _ => true
  | .datr p => p == 0
  | .stsr p => p == 0
  | .tLine => true
  | .tRect => true
  | .tFrect => true
  | .tTri => true
  | .tFtri => true
  | .tCirc => true
  | .tFcirc => true
  | .bMove => true
  | .bTmove => true
  | .bStart => true
  | .pwrOn => true
  | .wrcmd _ => true
  | .wrdata _ => true
  | .rddata => true
  | .rdstatus => true
  | .wrreg _ _ => true
  | .rdreg _ => true
  | .wr16 _ _ _ => true
  | .rd16 _ _ => true
  | .init _ _ _ => true
  | .line _ _ _ _ _ => true
  | .rect _ _ _ _ _ => true
  | .frect _ _ _ _ _ => true
  | .tri _ _ _ _ _ _ _ => true
  | .ftri _ _ _ _ _ _ _ => true
  | .circ _ _ _ _ => true
  | .fcirc _ _ _ _ => true
  | .btecopy sl _ sy _ _ dl _ dy _ _ => bteOperandsOk sl dl sy dy

end Sys2Proof
end

