-- ==== Sys2Proof/Machine/Bte.lean ====
section
/-! DEFINITION. The Block Transfer Engine controller (43_bte.md). -/

namespace Sys2Proof.Machine

/-- The operands of BTECOPY in SEQ.op (rule R26). -/
def Op.copy (o : Op) (sl : BitVec 2) (sx sy w h : Half) (dl : BitVec 2) (dx dy : Half) (transparent : Bool) (key : Half) : Op :=
  { o with code := 0x30, sl := sl, sx := sx, sy := sy, w := w, h := h, dl := dl, dx := dx, dy := dy,
           transparent := transparent, key := key }

/-- BTECOPY (rule R220): it waits while SEQ is busy (R21); it is admitted under the conditions of rule R221; a zero width or
height ends it before the bus is touched (rule R222). -/
def execBtecopy (sl : BitVec 2) (sx sy w h : Half) (dl : BitVec 2) (dx dy : Half) (transparent : Bool) (key : Half)
    (s : State) : Host.Outcome State Fault Refusal :=
  let op := s.seq.op.copy sl sx sy w h dl dx dy transparent key
  if s.seq.busy then .next s
  else
    match s.seq.cfg with
    | none => .refused .notAdmitted
    | some c =>
      if bteOperandsOk op.sl op.dl op.sy op.dy then
        if op.w = 0 ∨ op.h = 0 then .next ((s.accept op).finish .ok .none)
        else .next (run (bteCopy s.P c.colorDepth op) (s.accept op))
      else .refused .bteOperands

end Sys2Proof.Machine
end

