-- ==== Sys2Proof/Machine/Drawing.lean ====
section
/-! DEFINITION. The Drawing Command Engine (42_drawing_engine.md). -/

namespace Sys2Proof.Machine

/-- A drawing command: it waits while SEQ is busy (rule R21), it is admitted only when SEQ.cfg is valid (rule R200), and then
runs with the colour depth of SEQ.cfg. -/
def State.draw (s : State) (op : Op) (prog : Depth → List Micro) : Host.Outcome State Fault Refusal :=
  if s.seq.busy then .next s
  else
    match s.seq.cfg with
    | none => .refused .notAdmitted
    | some c => .next (run (prog c.colorDepth) (s.accept op))

/-- The operands of a two-point command in SEQ.op (rule R26). -/
def Op.twoPoint (o : Op) (code : Byte) (x0 y0 x1 y1 c : Half) : Op :=
  { o with code := code, x0 := x0, y0 := y0, x1 := x1, y1 := y1, c := c }

/-- The operands of a three-point command in SEQ.op (rule R26). -/
def Op.threePoint (o : Op) (code : Byte) (x0 y0 x1 y1 x2 y2 c : Half) : Op :=
  { o with code := code, x0 := x0, y0 := y0, x1 := x1, y1 := y1, x2 := x2, y2 := y2, c := c }

/-- The operands of a circle command in SEQ.op (rule R26). -/
def Op.circle (o : Op) (code : Byte) (cx cy : Half) (r : Byte) (c : Half) : Op :=
  { o with code := code, cx := cx, cy := cy, r := r, c := c }

/-- LINE (rule R190). -/
def execLine (x0 y0 x1 y1 c : Half) (s : State) : Host.Outcome State Fault Refusal :=
  let op := s.seq.op.twoPoint 0x20 x0 y0 x1 y1 c
  s.draw op fun d => draw2 s.P d op 0x80

/-- RECT (rule R191). -/
def execRect (x0 y0 x1 y1 c : Half) (s : State) : Host.Outcome State Fault Refusal :=
  let op := s.seq.op.twoPoint 0x21 x0 y0 x1 y1 c
  s.draw op fun d => draw2 s.P d op 0x90

/-- FRECT (rule R192). -/
def execFrect (x0 y0 x1 y1 c : Half) (s : State) : Host.Outcome State Fault Refusal :=
  let op := s.seq.op.twoPoint 0x22 x0 y0 x1 y1 c
  s.draw op fun d => draw2 s.P d op 0xB0

/-- TRI (rule R193). -/
def execTri (x0 y0 x1 y1 x2 y2 c : Half) (s : State) : Host.Outcome State Fault Refusal :=
  let op := s.seq.op.threePoint 0x23 x0 y0 x1 y1 x2 y2 c
  s.draw op fun d => draw3 s.P d op 0x81

/-- FTRI (rule R194). -/
def execFtri (x0 y0 x1 y1 x2 y2 c : Half) (s : State) : Host.Outcome State Fault Refusal :=
  let op := s.seq.op.threePoint 0x24 x0 y0 x1 y1 x2 y2 c
  s.draw op fun d => draw3 s.P d op 0xA1

/-- CIRC (rule R195). -/
def execCirc (cx cy : Half) (r : Byte) (c : Half) (s : State) : Host.Outcome State Fault Refusal :=
  let op := s.seq.op.circle 0x25 cx cy r c
  s.draw op fun d => drawC s.P d op 0x40

/-- FCIRC (rule R196). -/
def execFcirc (cx cy : Half) (r : Byte) (c : Half) (s : State) : Host.Outcome State Fault Refusal :=
  let op := s.seq.op.circle 0x26 cx cy r c
  s.draw op fun d => drawC s.P d op 0x60

end Sys2Proof.Machine
end

