-- ==== Sys2Proof/Machine/Frames.lean ====
section
/-! DEFINITION. The four frames as instructions (rules R130 to R133): each is SEQ's `Frame` of rule R139, the only way
to use the bus, in a bus-held window (log 2). -/

namespace Sys2Proof.Machine

/-- CMDW a (rules R130, R139). -/
def execCmdw (a : Byte) (s : State) : Host.Outcome State Fault Refusal := .next (s.inWindow [.frame .cmdw a])

/-- DATW b (rules R131, R139). -/
def execDatw (b : Byte) (s : State) : Host.Outcome State Fault Refusal := .next (s.inWindow [.frame .datw b])

/-- DATR (rules R132, R139); DEV ignores the payload (rule R93). -/
def execDatr (p : Byte) (s : State) : Host.Outcome State Fault Refusal := .next (s.inWindow [.frame .datr p])

/-- STSR (rules R133, R139); DEV ignores the payload (rule R93). -/
def execStsr (p : Byte) (s : State) : Host.Outcome State Fault Refusal := .next (s.inWindow [.frame .stsr p])

end Sys2Proof.Machine
end

