-- ==== Sys2Proof/Machine/Init.lean ====
section
/-! DEFINITION. The Device Initialization Sequencer (41_init_sequencer.md). -/

namespace Sys2Proof.Machine

/-- INIT width, height, depth (rule R160). Validation comes first and performs no primitive (rule R161). -/
def execInit (width height : Half) (depth : Byte) (s : State) : Host.Outcome State Fault Refusal :=
  let op := { s.seq.op with code := 0x10, width := width, height := height, depth := depth }
  if s.seq.busy then .next s
  else
    match s.P.panel? op.width op.height op.depth with
    | none => .next ((s.accept op).finish .unsupportedConfiguration .none)
    | some p => .next (run (initProgram s.P op p) (s.accept op))

end Sys2Proof.Machine
end

