-- ==== Sys2Proof/Machine/Triggers.lean ====
section
/-! DEFINITION. The trigger, control and power bytes as instructions: each is SEQ's `WrReg` of the byte to the register it
is written to (rules R100 to R102, R107, R140), in one bus-held window (rules R25, R139; log 2). What DEV does
with the byte is rules R204, R205, R231 and R303. -/

namespace Sys2Proof.Machine

/-- T_LINE, 0x80 to DCR (rules R100, R204). -/
def execTLine (s : State) : Host.Outcome State Fault Refusal := .next (s.inWindow (wrReg s.P .DCR 0x80))

/-- T_RECT, 0x90 to DCR (rules R100, R204). -/
def execTRect (s : State) : Host.Outcome State Fault Refusal := .next (s.inWindow (wrReg s.P .DCR 0x90))

/-- T_FRECT, 0xB0 to DCR (rules R100, R204). -/
def execTFrect (s : State) : Host.Outcome State Fault Refusal := .next (s.inWindow (wrReg s.P .DCR 0xB0))

/-- T_TRI, 0x81 to DCR (rules R100, R204). -/
def execTTri (s : State) : Host.Outcome State Fault Refusal := .next (s.inWindow (wrReg s.P .DCR 0x81))

/-- T_FTRI, 0xA1 to DCR (rules R100, R204). -/
def execTFtri (s : State) : Host.Outcome State Fault Refusal := .next (s.inWindow (wrReg s.P .DCR 0xA1))

/-- T_CIRC, 0x40 to DCR (rules R100, R205). -/
def execTCirc (s : State) : Host.Outcome State Fault Refusal := .next (s.inWindow (wrReg s.P .DCR 0x40))

/-- T_FCIRC, 0x60 to DCR (rules R100, R205). -/
def execTFcirc (s : State) : Host.Outcome State Fault Refusal := .next (s.inWindow (wrReg s.P .DCR 0x60))

/-- B_MOVE, 0xC2 to BTE_CTRL1 (rules R101, R225). -/
def execBMove (s : State) : Host.Outcome State Fault Refusal := .next (s.inWindow (wrReg s.P .BTE_CTRL1 0xC2))

/-- B_TMOVE, 0xC5 to BTE_CTRL1 (rules R101, R225: the quirk is kept). -/
def execBTmove (s : State) : Host.Outcome State Fault Refusal := .next (s.inWindow (wrReg s.P .BTE_CTRL1 0xC5))

/-- B_START, 0x80 to BTE_CTRL0 (rules R102, R231). -/
def execBStart (s : State) : Host.Outcome State Fault Refusal := .next (s.inWindow (wrReg s.P .BTE_CTRL0 0x80))

/-- PWR_ON, 0x80 to PWR (rules R107, R169, R303). -/
def execPwrOn (s : State) : Host.Outcome State Fault Refusal := .next (s.inWindow (wrReg s.P .PWR pwrOnByte))

end Sys2Proof.Machine
end

