-- ==== Sys2Proof/Machine/Dispatch.lean ====
section
/-! DEFINITION. One arm per instruction. -/

namespace Sys2Proof.Machine

def exec (i : Instr) (s : State) : Host.Outcome State Fault Refusal :=
  match i with
  | .cmdw a => Sys2Proof.Machine.execCmdw a s
  | .datw b => Sys2Proof.Machine.execDatw b s
  | .datr p => Sys2Proof.Machine.execDatr p s
  | .stsr p => Sys2Proof.Machine.execStsr p s
  | .tLine => Sys2Proof.Machine.execTLine s
  | .tRect => Sys2Proof.Machine.execTRect s
  | .tFrect => Sys2Proof.Machine.execTFrect s
  | .tTri => Sys2Proof.Machine.execTTri s
  | .tFtri => Sys2Proof.Machine.execTFtri s
  | .tCirc => Sys2Proof.Machine.execTCirc s
  | .tFcirc => Sys2Proof.Machine.execTFcirc s
  | .bMove => Sys2Proof.Machine.execBMove s
  | .bTmove => Sys2Proof.Machine.execBTmove s
  | .bStart => Sys2Proof.Machine.execBStart s
  | .pwrOn => Sys2Proof.Machine.execPwrOn s
  | .wrcmd reg => Sys2Proof.Machine.execWrcmd reg s
  | .wrdata byte => Sys2Proof.Machine.execWrdata byte s
  | .rddata => Sys2Proof.Machine.execRddata s
  | .rdstatus => Sys2Proof.Machine.execRdstatus s
  | .wrreg reg byte => Sys2Proof.Machine.execWrreg reg byte s
  | .rdreg reg => Sys2Proof.Machine.execRdreg reg s
  | .wr16 reg0 reg1 v => Sys2Proof.Machine.execWr16 reg0 reg1 v s
  | .rd16 reg0 reg1 => Sys2Proof.Machine.execRd16 reg0 reg1 s
  | .init width height depth => Sys2Proof.Machine.execInit width height depth s
  | .line x0 y0 x1 y1 c => Sys2Proof.Machine.execLine x0 y0 x1 y1 c s
  | .rect x0 y0 x1 y1 c => Sys2Proof.Machine.execRect x0 y0 x1 y1 c s
  | .frect x0 y0 x1 y1 c => Sys2Proof.Machine.execFrect x0 y0 x1 y1 c s
  | .tri x0 y0 x1 y1 x2 y2 c => Sys2Proof.Machine.execTri x0 y0 x1 y1 x2 y2 c s
  | .ftri x0 y0 x1 y1 x2 y2 c => Sys2Proof.Machine.execFtri x0 y0 x1 y1 x2 y2 c s
  | .circ cx cy r c => Sys2Proof.Machine.execCirc cx cy r c s
  | .fcirc cx cy r c => Sys2Proof.Machine.execFcirc cx cy r c s
  | .btecopy sl sx sy w h dl dx dy transparent key => Sys2Proof.Machine.execBtecopy sl sx sy w h dl dx dy transparent key s

end Sys2Proof.Machine
end

