-- ==== Sys2Proof/Decode.lean ====
section
/-! DEFINITION. Decoding: total on any bytes of any format, rejecting by name; and the encoder written from the same
tables (30_encoding.md). The spec fixes a command's code and the order of its operands (rule R110) and not their bytes on
the port: one byte for an operand of at most 8 bits (unused upper bits 0), two for one of 16 bits, low byte first (DESIGN
CHOICE, log 4). -/

namespace Sys2Proof

open Sys2Proof.Machine

/-- Why bytes are no instruction. -/
inductive DecodeError where
  /-- Bytes are missing. -/
  | truncated
  /-- Bytes are left over: a format has a fixed length (rule R116). -/
  | trailingBytes
  /-- A frame opcode byte other than the four (rule R93, U1). -/
  | undefinedFrameOpcode (b : Byte)
  /-- A DCR byte other than the seven (rule R115). -/
  | undefinedTrigger (b : Byte)
  /-- A BTE_CTRL1 byte other than 0xC2 and 0xC5 (rule R115). -/
  | undefinedOperation (b : Byte)
  /-- A BTE_CTRL0 byte other than 0x80 (rule R115). -/
  | undefinedStart (b : Byte)
  /-- A power byte other than PWR_ON (rule R107). -/
  | undefinedPower (b : Byte)
  /-- A command code outside rule R110 (U9). -/
  | undefinedCommand (b : Byte)
  /-- An operand byte with a bit above the operand's width set (log 4). -/
  | reservedOperandBits
  deriving DecidableEq, Repr

/-- FRAME16 (rules R90, R91, R93): the opcode byte first, then the payload. -/
def decodeFrame (op p : Byte) : Except DecodeError Instr :=
  match op.toNat with
  | 0x80 => .ok (.cmdw p)
  | 0x00 => .ok (.datw p)
  | 0x40 => .ok (.datr p)
  | 0xC0 => .ok (.stsr p)
  | _ => .error (.undefinedFrameOpcode op)

/-- DCR8 (rule R100). -/
def decodeTrigger (b : Byte) : Except DecodeError Instr :=
  match b.toNat with
  | 0x80 => .ok .tLine
  | 0x90 => .ok .tRect
  | 0xB0 => .ok .tFrect
  | 0x81 => .ok .tTri
  | 0xA1 => .ok .tFtri
  | 0x40 => .ok .tCirc
  | 0x60 => .ok .tFcirc
  | _ => .error (.undefinedTrigger b)

/-- BTEROP8 (rule R101). -/
def decodeOperation (b : Byte) : Except DecodeError Instr :=
  match b.toNat with
  | 0xC2 => .ok .bMove
  | 0xC5 => .ok .bTmove
  | _ => .error (.undefinedOperation b)

/-- BTESTART8 (rule R102). -/
def decodeStart (b : Byte) : Except DecodeError Instr :=
  match b.toNat with
  | 0x80 => .ok .bStart
  | _ => .error (.undefinedStart b)

/-- PWR8: the one whole byte the table lists (rules R107, R169). DESIGN CHOICE, safe: the two other kinds of rule R107, which
depend on the byte just read from PWR, are no packets of their own; a host writes them with WRREG or DATW (log 35). -/
def decodePower (b : Byte) : Except DecodeError Instr :=
  match b.toNat with
  | 0x80 => .ok .pwrOn
  | _ => .error (.undefinedPower b)

/-- The codes of the five-operand drawing commands (rule R110). -/
def decodeTwoPoint (mk : Half → Half → Half → Half → Half → Instr) :
    List Byte → Except DecodeError (Instr × List Byte)
  | a0 :: a1 :: b0 :: b1 :: c0 :: c1 :: d0 :: d1 :: e0 :: e1 :: k =>
    .ok (mk (join16 a0 a1) (join16 b0 b1) (join16 c0 c1) (join16 d0 d1) (join16 e0 e1), k)
  | _ => .error .truncated

/-- The codes of the triangle commands (rule R110). -/
def decodeThreePoint (mk : Half → Half → Half → Half → Half → Half → Half → Instr) :
    List Byte → Except DecodeError (Instr × List Byte)
  | a0 :: a1 :: b0 :: b1 :: c0 :: c1 :: d0 :: d1 :: e0 :: e1 :: f0 :: f1 :: g0 :: g1 :: k =>
    .ok (mk (join16 a0 a1) (join16 b0 b1) (join16 c0 c1) (join16 d0 d1) (join16 e0 e1) (join16 f0 f1) (join16 g0 g1), k)
  | _ => .error .truncated

/-- The codes of the circle commands (rule R110). -/
def decodeCircle (mk : Half → Half → Byte → Half → Instr) : List Byte → Except DecodeError (Instr × List Byte)
  | a0 :: a1 :: b0 :: b1 :: r :: c0 :: c1 :: k => .ok (mk (join16 a0 a1) (join16 b0 b1) r (join16 c0 c1), k)
  | _ => .error .truncated

/-- The operands of BTECOPY (rule R110). -/
def decodeCopy : List Byte → Except DecodeError (Instr × List Byte)
  | sl :: sx0 :: sx1 :: sy0 :: sy1 :: w0 :: w1 :: h0 :: h1 :: dl :: dx0 :: dx1 :: dy0 :: dy1 :: tr :: k0 :: k1 :: k =>
    if sl.toNat < 4 ∧ dl.toNat < 4 ∧ tr.toNat < 2 then
      .ok (.btecopy (sl.setWidth 2) (join16 sx0 sx1) (join16 sy0 sy1) (join16 w0 w1) (join16 h0 h1) (dl.setWidth 2)
        (join16 dx0 dx1) (join16 dy0 dy1) (tr.getLsbD 0) (join16 k0 k1), k)
    else .error .reservedOperandBits
  | _ => .error .truncated

/-- SEQCMD (rule R110): the code byte and the operands after it. -/
def decodeCommand (code : Byte) (ops : List Byte) : Except DecodeError (Instr × List Byte) :=
  match code.toNat with
  | 0x01 => match ops with
    | reg :: k => .ok (.wrcmd reg, k)
    | _ => .error .truncated
  | 0x02 => match ops with
    | b :: k => .ok (.wrdata b, k)
    | _ => .error .truncated
  | 0x03 => .ok (.rddata, ops)
  | 0x04 => .ok (.rdstatus, ops)
  | 0x05 => match ops with
    | reg :: b :: k => .ok (.wrreg reg b, k)
    | _ => .error .truncated
  | 0x06 => match ops with
    | reg :: k => .ok (.rdreg reg, k)
    | _ => .error .truncated
  | 0x07 => match ops with
    | r0 :: r1 :: v0 :: v1 :: k => .ok (.wr16 r0 r1 (join16 v0 v1), k)
    | _ => .error .truncated
  | 0x08 => match ops with
    | r0 :: r1 :: k => .ok (.rd16 r0 r1, k)
    | _ => .error .truncated
  | 0x10 => match ops with
    | w0 :: w1 :: h0 :: h1 :: d :: k => .ok (.init (join16 w0 w1) (join16 h0 h1) d, k)
    | _ => .error .truncated
  | 0x20 => decodeTwoPoint .line ops
  | 0x21 => decodeTwoPoint .rect ops
  | 0x22 => decodeTwoPoint .frect ops
  | 0x23 => decodeThreePoint .tri ops
  | 0x24 => decodeThreePoint .ftri ops
  | 0x25 => decodeCircle .circ ops
  | 0x26 => decodeCircle .fcirc ops
  | 0x30 => decodeCopy ops
  | _ => .error (.undefinedCommand code)

/-- One byte of a one-byte format, the rest left. -/
def decodeByte (f : Byte → Except DecodeError Instr) : List Byte → Except DecodeError (Instr × List Byte)
  | b :: k => (f b).map fun i => (i, k)
  | [] => .error .truncated

/-- The decoder: the instruction at the head of bytes of a format, and the bytes after it. -/
def decode : Format → List Byte → Except DecodeError (Instr × List Byte)
  | .frame16, op :: p :: k => (decodeFrame op p).map fun i => (i, k)
  | .frame16, _ => .error .truncated
  | .dcr8, bs => decodeByte decodeTrigger bs
  | .bterop8, bs => decodeByte decodeOperation bs
  | .btestart8, bs => decodeByte decodeStart bs
  | .pwr8, bs => decodeByte decodePower bs
  | .seqcmd, code :: k => decodeCommand code k
  | .seqcmd, [] => .error .truncated

/-- A whole packet: exactly one instruction (a format's length is fixed, rule R116). -/
def decodeWhole (f : Format) (bs : List Byte) : Except DecodeError Instr :=
  match decode f bs with
  | .ok (i, []) => .ok i
  | .ok (_, _ :: _) => .error .trailingBytes
  | .error e => .error e

/-- The two bytes of a 16-bit operand on the command port (log 4). -/
def half (v : Half) : List Byte := [lo v, hi v]

/-- The format an instruction is written in. -/
def Instr.format : Instr → Format
  | .cmdw _ | .datw _ | .datr _ | .stsr _ => .frame16
  | .tLine | .tRect | .tFrect | .tTri | .tFtri | .tCirc | .tFcirc => .dcr8
  | .bMove | .bTmove => .bterop8
  | .bStart => .btestart8
  | .pwrOn => .pwr8
  | .wrcmd _ | .wrdata _ | .rddata | .rdstatus | .wrreg _ _ | .rdreg _ | .wr16 _ _ _ | .rd16 _ _ | .init _ _ _
  | .line _ _ _ _ _ | .rect _ _ _ _ _ | .frect _ _ _ _ _ | .tri _ _ _ _ _ _ _ | .ftri _ _ _ _ _ _ _
  | .circ _ _ _ _ | .fcirc _ _ _ _ | .btecopy _ _ _ _ _ _ _ _ _ _ => .seqcmd

/-- The encoder (rules R91, R92, R100 to R102, R107, R110). -/
def encode : Instr → List Byte
  | .cmdw a => [0x80, a]
  | .datw b => [0x00, b]
  | .datr p => [0x40, p]
  | .stsr p => [0xC0, p]
  | .tLine => [0x80]
  | .tRect => [0x90]
  | .tFrect => [0xB0]
  | .tTri => [0x81]
  | .tFtri => [0xA1]
  | .tCirc => [0x40]
  | .tFcirc => [0x60]
  | .bMove => [0xC2]
  | .bTmove => [0xC5]
  | .bStart => [0x80]
  | .pwrOn => [0x80]
  | .wrcmd reg => [0x01, reg]
  | .wrdata b => [0x02, b]
  | .rddata => [0x03]
  | .rdstatus => [0x04]
  | .wrreg reg b => [0x05, reg, b]
  | .rdreg reg => [0x06, reg]
  | .wr16 r0 r1 v => [0x07, r0, r1] ++ half v
  | .rd16 r0 r1 => [0x08, r0, r1]
  | .init w h d => 0x10 :: (half w ++ half h ++ [d])
  | .line x0 y0 x1 y1 c => 0x20 :: (half x0 ++ half y0 ++ half x1 ++ half y1 ++ half c)
  | .rect x0 y0 x1 y1 c => 0x21 :: (half x0 ++ half y0 ++ half x1 ++ half y1 ++ half c)
  | .frect x0 y0 x1 y1 c => 0x22 :: (half x0 ++ half y0 ++ half x1 ++ half y1 ++ half c)
  | .tri x0 y0 x1 y1 x2 y2 c => 0x23 :: (half x0 ++ half y0 ++ half x1 ++ half y1 ++ half x2 ++ half y2 ++ half c)
  | .ftri x0 y0 x1 y1 x2 y2 c => 0x24 :: (half x0 ++ half y0 ++ half x1 ++ half y1 ++ half x2 ++ half y2 ++ half c)
  | .circ cx cy r c => 0x25 :: (half cx ++ half cy ++ [r] ++ half c)
  | .fcirc cx cy r c => 0x26 :: (half cx ++ half cy ++ [r] ++ half c)
  | .btecopy sl sx sy w h dl dx dy tr key =>
    0x30 :: ([sl.setWidth 8] ++ half sx ++ half sy ++ half w ++ half h ++ [dl.setWidth 8] ++ half dx ++ half dy
      ++ [if tr then 1 else 0] ++ half key)

/-! ### Words as spec/opcode_table.json numbers them -/

/-- Byte `k` of a word, byte 0 the least significant. -/
def wordByte (w k : Nat) : Byte := BitVec.ofNat 8 (w / 2 ^ (8 * k))

/-- How many operand bytes follow a command code (rule R110; 0 for a code outside it). -/
def operandBytes (code : Byte) : Nat :=
  match code.toNat with
  | 0x01 => 1
  | 0x02 => 1
  | 0x05 => 2
  | 0x06 => 1
  | 0x07 => 4
  | 0x08 => 2
  | 0x10 => 5
  | 0x20 => 10
  | 0x21 => 10
  | 0x22 => 10
  | 0x23 => 14
  | 0x24 => 14
  | 0x25 => 7
  | 0x26 => 7
  | 0x30 => 17
  | _ => 0

/-- The packet a table word stands for. A 16-bit word is a frame, its opcode byte (bits 15:8, rule R62) first on the wire.
Any other word is a byte, with the operand bytes of a command above it; a byte alone does not say which register it is
written to (0x80 is T_LINE, B_START and PWR_ON), so the formats are tried in the order command, DCR, BTE_CTRL1, BTE_CTRL0,
PWR (log 3). -/
def tablePacket (nbits w : Nat) : Format × List Byte :=
  if nbits = 16 then (.frame16, [wordByte w 1, wordByte w 0])
  else
    let b := wordByte w 0
    let cmd := (List.range (operandBytes b + 1)).map (wordByte w)
    match decodeWhole .seqcmd cmd, decodeTrigger b, decodeOperation b, decodeStart b with
    | .ok _, _, _, _ => (.seqcmd, cmd)
    | _, .ok _, _, _ => (.dcr8, [b])
    | _, _, .ok _, _ => (.bterop8, [b])
    | _, _, _, .ok _ => (.btestart8, [b])
    | _, _, _, _ => (.pwr8, [b])

/-- The instruction the decoder reads from a table word. -/
def decodeTableWord (nbits w : Nat) : Option Instr :=
  match decodeWhole (tablePacket nbits w).1 (tablePacket nbits w).2 with
  | .ok i => some i
  | .error _ => none

end Sys2Proof
end

