-- ==== Sys2Proof/Machine/Fetch.lean ====
section
/-! DEFINITION. What the machine does next: it goes on with the command in progress, accepts the next packet of the command
port, or waits (rules R21, R22, R52). -/

namespace Sys2Proof.Machine

/-- What a step does. -/
inductive Work where
  /-- a command, or a procedure, in progress goes on and leaves this state -/
  | resume (t : State)
  /-- SEQ waits; the outside world may act -/
  | wait (t : State)
  /-- an instruction is taken from the port -/
  | start (i : Instr) (t : State)
  /-- the packet at the port is no instruction -/
  | stop (r : Refusal)

/-- SEQ performs no primitive: one tick passes, in which DEV may complete or SEQ be reset. -/
def State.wait (s : State) : State := if s.now.seqReset then s.gap.resetSeq else s.gap

/-- The command in progress goes on where it stopped. -/
def State.resume (s : State) : State := run s.seq.ucode (s.keep [])

/-- What the next step does. A packet is taken only when nothing is in progress (rule R21). -/
def State.nextWork (s : State) : Work :=
  if s.seq.ucode ≠ [] then .resume s.resume
  else if s.seq.busy then .wait s.wait
  else
    match s.port with
    | [] => .wait s.wait
    | p :: ps =>
      match decodeWhole p.fmt p.bytes with
      | .ok i => .start i { s with port := ps }
      | .error _ => .stop .undecodable

/-- The host presents a packet before whatever else it has to present, to a SEQ with nothing in progress. -/
def State.present (s : State) (p : Packet) : State :=
  { s with
    seq := { s.seq with busy := false, ucode := [] }
    port := p :: s.port }

end Sys2Proof.Machine
end

