-- ==== Sys2Proof/Machine/Step.lean ====
section
/-! DEFINITION. One step of the machine (log 7). -/

namespace Sys2Proof.Machine

/-- One step: three outcomes. -/
def step (s : State) : Host.Outcome State Fault Refusal :=
  match s.nextWork with
  | .resume t => .next t
  | .wait t => .next t
  | .start i t => exec i t
  | .stop r => .refused r

/-- `s` with the instruction of a table word presented so that the next step runs it. -/
def State.withFetchWord (s : State) (nbits w : Nat) : State :=
  s.present { fmt := (tablePacket nbits w).1, bytes := (tablePacket nbits w).2 }

end Sys2Proof.Machine
end

