-- ==== Sys2Proof/Safety.lean ====
section
/-! DEFINITION. What counts as a safe run, and the words claims are stated in. -/

namespace Sys2Proof.Machine

/-! ### The outside world in a claim -/

/-- A tick in which the transport succeeds, SEQ is not reset and the model's step goes on; DEV may complete in it. -/
def Tick.calm (t : Tick) : Bool := t.fate == .ok && !t.pause && !t.seqReset

/-- Every pending tick is calm: no transport failure, no SEQ reset. -/
def State.calm (s : State) : Bool := s.env.all Tick.calm

/-- The completion steps of a list of ticks, in order (rules R206, R232). -/
def Dev.completeAll (d : Dev) (ts : List Tick) : Dev := ts.foldl Dev.complete d

/-- DEV is not in software reset (rule R303; log 12 while PWR is `?`). -/
def Dev.awake (P : Params) (d : Dev) : Bool :=
  match d.cell (P.addr .PWR) with
  | .known b => b &&& P.pwrRst == 0
  | .unknown => d.rstIfUnk == .known false

/-- An address without special behaviour (rule R148): plain storage. -/
def plainReg (P : Params) (a : Byte) : Bool := a != P.addr .DCR && a != P.addr .BTE_CTRL0 && a != P.addr .PWR

/-! ### Invariants -/

/-- Running these micro-operations from the given SEQ outputs leaves SEQ idle: the bus released, the reset line high, no
command in progress, the phase IDLE (rules R21, R25, R29); and every frame among them is sent with the bus held (R25, R139). -/
def closes (hold resetn busy idle : Bool) : List Micro → Bool
  | [] => !hold && resetn && !busy && idle
  | .hold :: k => closes true resetn busy idle k
  | .release :: k => closes false resetn busy idle k
  | .resetLine l :: k => closes hold l busy idle k
  | .phase p :: k => closes hold resetn busy (p == .idle) k
  | .finish _ :: _ => !hold && resetn
  | .frame _ _ :: k => hold && closes hold resetn busy idle k
  | .writeSet :: k => hold && closes hold resetn busy idle k
  | .writeClr :: k => hold && closes hold resetn busy idle k
  | .delay _ :: k => closes hold resetn busy idle k
  | .pllDone _ :: k => closes hold resetn busy idle k
  | .forget :: k => closes hold resetn busy idle k
  | .pollStart :: k => closes hold resetn busy idle k
  | .pollTest _ :: k => hold && closes hold resetn busy idle k
  | .setCfg _ :: k => closes hold resetn busy idle k

/-- What SEQ has in progress ends with SEQ idle; with nothing in progress SEQ is idle. -/
def State.closed (s : State) : Bool := closes s.seq.hold s.seq.resetn s.seq.busy (s.seq.phase == .idle) s.seq.ucode

/-- SEQ is idle (rules R21, R22, R25, R29). -/
def State.idle (s : State) : Bool :=
  !s.seq.hold && s.seq.resetn && !s.seq.busy && s.seq.phase == .idle && s.seq.ucode.isEmpty

/-- The shadow invariant (rule R54): where SEQ.cur is known it is DEV.CUR. The one exception: a byte of U2, U3 or U11 has left
DEV.CUR `?` with "SEQ is unaffected", and its UNKNOWN record is in the log (log 19). -/
def State.shadowed (s : State) : Bool :=
  match s.seq.cur with
  | .unknown => true
  | .known a => s.dev.cur == .known a || s.dev.cur == .unknown && s.dev.oplog.any fun r => r.engine == .unknown

/-- The codes of the commands that trigger and poll an engine (rule R110). -/
def engineCodes : List Byte := [0x20, 0x21, 0x22, 0x23, 0x24, 0x25, 0x26, 0x30]

/-- The command of these operands is a block copy of zero size (rule R222). -/
def Op.zeroSize (o : Op) : Bool := o.code == 0x30 && (o.w == 0 || o.h == 0)

/-- A micro-operation belongs to what SEQ is doing: only an engine command polls, only INIT sets SEQ.cfg, a block copy of zero
size sends no frame. -/
def Micro.fits (q : Seq) : Micro → Bool
  | .frame _ _ | .writeSet | .writeClr => !(q.busy && q.op.zeroSize)
  | .pollTest _ => q.busy && engineCodes.contains q.op.code && !q.op.zeroSize
  | .setCfg _ => q.busy && q.op.code == 0x10
  | .hold | .release | .delay _ | .resetLine _ | .phase _ | .pllDone _ | .forget | .pollStart | .finish _ => true

/-- What SEQ has in progress is of the command its operand record names. -/
def State.fits (s : State) : Bool := s.seq.ucode.all (Micro.fits s.seq)

/-- A safe state: the parameters meet rule R6, memory is canonical, SEQ ends idle, the shadow does not lie, and what is in
progress is of the command in SEQ.op. -/
abbrev State.safe (s : State) : Prop :=
  s.P.wf = true ∧ Memory.wf s.dev.mem ∧ s.closed = true ∧ s.shadowed = true ∧ s.fits = true

/-! ### What is on the wire -/

/-- The wire bytes (opcode, payload) of the frames among events, failed ones included. -/
def frames (l : List Event) : List (Byte × Byte) :=
  l.filterMap fun e =>
    match e.prim with
    | .xfer op p _ => some (op.byte, p)
    | .xferFailed op p => some (op.byte, p)
    | .delay _ => none
    | .resetLine _ => none
    | .hold => none
    | .release => none

/-- The frames of register writes (address, byte), each a CMDW and a DATW (rule R61). -/
def wire (w : List (Byte × Byte)) : List (Byte × Byte) := w.flatMap fun e => [(0x80, e.1), (0x00, e.2)]

/-- Primitives performed in one phase. -/
def events (p : Phase) (l : List Prim) : List Event := l.map fun x => ⟨p, x⟩

/-- The primitives of register writes (address, byte) that went through. -/
def writePrims (w : List (Byte × Byte)) : List Prim :=
  w.flatMap fun e => [.xfer .cmdw e.1 none, .xfer .datw e.2 none]

/-! ### What is left of a state -/

/-- The three busy flags (rule R35): drawing, circle, block transfer. -/
def Dev.flags (d : Dev) : Unk Bool × Unk Bool × Unk Bool := (d.drawBusy, d.circBusy, d.bteBusy)

/-- Every field of DEV but the log is `?` (the treatment of U2 and U3), and the log has one record more, of an UNKNOWN
operation. -/
def Dev.scrambled (d e : Dev) (b : Byte) : Prop :=
  (∀ x, e.cell x = .unknown) ∧ e.flags = (.unknown, .unknown, .unknown) ∧ e.cur = .unknown
    ∧ ∃ r : OpRecord, r.engine = .unknown ∧ r.code = b ∧ e.oplog = d.oplog ++ [r]

/-- `s` with SEQ and DEV as given, after `n` ticks and `m` frames and with these events on the bus: the configuration, what
the host presents and everything else are as they were. -/
def State.after (s : State) (q : Seq) (d : Dev) (n m : Nat) (ev : List Event) : State :=
  { s with seq := q, dev := d, env := s.env.drop n, draws := s.draws + m, bus := s.bus ++ ev }

/-- SEQ after a command that ended OK: the operands, how many primitives it performed, the shadow (rules R21, R22, R26). -/
def Seq.answered (q : Seq) (op : Op) (steps : Nat) (cur : Unk Byte) : Seq :=
  { q with busy := false, phase := .idle, step := steps, cur := cur, hold := false, op := op, pollcnt := 0, result := .ok,
           ucode := [] }

/-- SEQ.cur after a data write that went through: moved by the policy, or `?` where the write resets DEV (rules R134, R54). -/
def State.curAfterWrite (s : State) (b : Byte) : Unk Byte :=
  if s.seq.cur = .known (s.P.addr .PWR) ∧ b &&& s.P.pwrRst ≠ 0 then .unknown else adv s.P s.seq.cur

/-! ### A bus-held window of frames that are no command's -/

/-- How many primitives a window of `n` frames performs: the frames alone where SEQ holds the bus already. -/
def State.windowTicks (s : State) (n : Nat) : Nat := if s.seq.hold then n else n + 2

/-- The primitives of a window around `l`. -/
def State.windowPrims (s : State) (l : List Prim) : List Prim := if s.seq.hold then l else [.hold] ++ l ++ [.release]

/-- DEV when frame `k` of a window (the first is 0) arrives, as far as its own completion steps go. -/
def State.devAtFrame (s : State) (k : Nat) : Dev := s.dev.completeAll (s.env.take (if s.seq.hold then k + 1 else k + 2))

/-- The tick of the gap before a window's `Release`, after `n` frames. -/
def State.closingTicks (s : State) (n : Nat) : List Tick := if s.seq.hold then [] else (s.env.drop (n + 1)).take 1

/-- `s` after a window of `n` frames that is no command's: SEQ is as given but for the primitives it counted, DEV is as given
right after the last frame and completes in the gap before the `Release`. -/
def State.afterWindow (s : State) (q : Seq) (d : Dev) (n : Nat) (l : List Prim) : State :=
  s.after { q with step := q.step + s.windowTicks n, ucode := [] } (d.completeAll (s.closingTicks n)) (s.windowTicks n) n
    (events s.seq.phase (s.windowPrims l))

/-- A window opened, where SEQ does not hold the bus. -/
def State.grab (s : State) : State :=
  if s.seq.hold then s
  else { s.gap.perform .hold with seq := { (s.gap.perform .hold).seq with hold := true } }

/-- The window of `s.grab` closed at `t`. -/
def State.drop (s t : State) : State := if s.seq.hold then t else t.gap.release

/-- Instructions executed one after the other. -/
def execAll : List Instr → State → Host.Outcome State Fault Refusal
  | [], s => .next s
  | i :: l, s =>
    match exec i s with
    | .next t => execAll l t
    | .fault f => .fault f
    | .refused r => .refused r

/-- A command accepted and its bus-held window opened: `Hold()` (rules R21, R25). -/
def State.opened (s : State) (op : Op) : State :=
  let t := (s.accept op).gap.perform .hold
  { t with seq := { t.seq with hold := true } }

/-- The window closed and the command ended: `Release(); finish(OK)` (rules R12, R25). -/
def State.ended (s : State) (r : Ret) : State := s.gap.release.finish .ok r

/-- Two states alike in everything but the pointer policy, DEV's pointer and SEQ's shadow of it (rule R146). -/
def State.sameButPointer (s t : State) : Prop :=
  t = { s with
    P := { s.P with ptrPolicy := t.P.ptrPolicy }
    seq := { s.seq with cur := t.seq.cur }
    dev := { s.dev with cur := t.dev.cur } }

/-- A command is `Hold()`, these frames one after the other, `Release(); finish(OK)` (rules R135 to R143). -/
def State.windowed (s : State) (i : Instr) (op : Op) (fs : List Instr) (r : Ret) : Prop :=
  ∃ u, execAll fs (s.opened op) = .next u ∧ exec i s = .next (u.ended r)

/-- What a data read of address `a` may return (rules R44, R132, R149): the byte of a cell that holds one, and the busy bits
of DCR. It says nothing of a byte that is a free draw. -/
def Dev.readsAs (P : Params) (d : Dev) (a r : Byte) : Prop :=
  (a ≠ P.addr .DCR → a ≠ P.addr .BTE_CTRL0 → (d.awake P = true ∨ a = P.addr .PWR) → ∀ v, d.cell a = .known v → r = v)
    ∧ (a = P.addr .DCR → d.awake P = true →
        (∀ f, d.drawBusy = .known f → r.getLsbD 7 = f) ∧ (∀ f, d.circBusy = .known f → r.getLsbD 6 = f))

/-- The engines and codes of the logged operations, without what was latched. -/
def Dev.logHeads (d : Dev) : List (Engine × Byte) := d.oplog.map fun r => (r.engine, r.code)

/-- The busy flag a poll waits for (rules R35, R197 to R199, R226). -/
def PollKind.flag (k : PollKind) (d : Dev) : Unk Bool :=
  match k with
  | .reg _ m => if m = 0x80 then d.drawBusy else d.circBusy
  | .status _ => d.bteBusy

/-- The primitives of one poll read that returns `b` (rules R144, R145). -/
def PollKind.prims (k : PollKind) (b : Byte) : List Prim :=
  match k with
  | .reg a _ => [.xfer .cmdw a none, .xfer .datr 0x00 (some b)]
  | .status _ => [.xfer .stsr 0x00 (some b)]

/-- The three polls of the engine commands (rules R197 to R199, R220). -/
def enginePolls (P : Params) : List PollKind := [.reg (P.addr .DCR) 0x80, .reg (P.addr .DCR) 0x40, .status 0x40]

/-- SEQ's shadow after one poll read: a register poll leaves it at the register, moved as the policy says. -/
def PollKind.curAfter (P : Params) (k : PollKind) (c : Unk Byte) : Unk Byte :=
  match k with
  | .reg a _ => .known (advByte P a)
  | .status _ => c

/-- The busy flag of an engine (rule R35); an UNKNOWN operation has none. -/
def Dev.flagOf (d : Dev) : Engine → Unk Bool
  | .draw => d.drawBusy
  | .circ => d.circBusy
  | .bte => d.bteBusy
  | .unknown => .known false

/-- The registers an engine latches at its trigger (rule R45). -/
def Engine.latched : Engine → List RegName
  | .draw => geometryRegs ++ colourRegs
  | .circ => geometryRegs ++ colourRegs
  | .bte => bteRegs
  | .unknown => []

/-- A micro-operation that is a primitive (rules R10, R11), with a gap before it (rule R13). -/
def Micro.isPrimitive : Micro → Bool
  | .hold | .release | .frame _ _ | .writeSet | .writeClr | .delay _ | .resetLine _ => true
  | .phase _ | .pllDone _ | .forget | .pollStart | .pollTest _ | .setCfg _ | .finish _ => false

/-- What is left of an engine command whose poll goes on: the next read, the test, and the end of the command (rules R197 to
R199, R220). -/
def pollingRest (k : PollKind) : List Micro := pollFrames k ++ [.pollTest k, .phase .idle, .release, .finish .none]

/-- The results the command of an operand record can end with (rule R264). -/
def resultsOfOp (P : Params) (o : Op) : List Result :=
  if o.zeroSize then [.ok]
  else
    [.ok, .busTransportFailure] ++ (if o.code = 0x10 then [.unsupportedConfiguration] else [])
      ++ (if o.code ∈ engineCodes ∧ P.pollMax ≠ none then [.deviceTimeout] else [])

/-- The results a command can end with (rule R264). -/
def resultsOf (P : Params) : Instr → List Result
  | .wrcmd _ | .wrdata _ | .rddata | .rdstatus | .wrreg _ _ | .rdreg _ | .wr16 _ _ _ | .rd16 _ _ => [.ok, .busTransportFailure]
  | .init _ _ _ => [.ok, .unsupportedConfiguration, .busTransportFailure]
  | .line _ _ _ _ _ | .rect _ _ _ _ _ | .frect _ _ _ _ _ | .tri _ _ _ _ _ _ _ | .ftri _ _ _ _ _ _ _ | .circ _ _ _ _
  | .fcirc _ _ _ _ => [.ok, .busTransportFailure] ++ (if P.pollMax = none then [] else [.deviceTimeout])
  | .btecopy _ _ _ w h _ _ _ _ _ =>
    if w = 0 ∨ h = 0 then [.ok]
    else [.ok, .busTransportFailure] ++ (if P.pollMax = none then [] else [.deviceTimeout])
  | .cmdw _ | .datw _ | .datr _ | .stsr _ | .tLine | .tRect | .tFrect | .tTri | .tFtri | .tCirc | .tFcirc | .bMove | .bTmove
  | .bStart | .pwrOn => []

/-! ### Register writes of the commands, by name -/

/-- A 16-bit value as the two register writes it is staged with, low first (rule R105). -/
def pairWrites (nL nH : RegName) (v : Half) : List (RegName × Byte) := [(nL, lo v), (nH, hi v)]

/-- A colour as the three foreground writes it is staged with (rules R103, R104, R201). -/
def colourWrites (P : Params) (d : Depth) (c : Half) : List (RegName × Byte) :=
  [(.FGC_R, colR P d c), (.FGC_G, colG P d c), (.FGC_B, colB P d c)]

/-- The staging writes of a two-point command (rule R197). -/
def twoPointWrites (P : Params) (d : Depth) (x0 y0 x1 y1 c : Half) : List (RegName × Byte) :=
  pairWrites .DX0_L .DX0_H x0 ++ pairWrites .DY0_L .DY0_H y0 ++ pairWrites .DX1_L .DX1_H x1
    ++ pairWrites .DY1_L .DY1_H y1 ++ colourWrites P d c

/-- The staging writes of a three-point command (rule R198). -/
def threePointWrites (P : Params) (d : Depth) (x0 y0 x1 y1 x2 y2 c : Half) : List (RegName × Byte) :=
  pairWrites .DX0_L .DX0_H x0 ++ pairWrites .DY0_L .DY0_H y0 ++ pairWrites .DX1_L .DX1_H x1
    ++ pairWrites .DY1_L .DY1_H y1 ++ pairWrites .DX2_L .DX2_H x2 ++ pairWrites .DY2_L .DY2_H y2 ++ colourWrites P d c

/-- The staging writes of a circle command (rule R199). -/
def circleWrites (P : Params) (d : Depth) (cx cy : Half) (r : Byte) (c : Half) : List (RegName × Byte) :=
  pairWrites .CX_L .CX_H cx ++ pairWrites .CY_L .CY_H cy ++ [(.CRAD, r)] ++ colourWrites P d c

/-- The staging writes of a block copy (rules R220, R223 to R225): corners with their layer bits, size, and the transparency
colour of a transparent copy. -/
def copyWrites (P : Params) (d : Depth) (sl : BitVec 2) (sx sy w h : Half) (dl : BitVec 2) (dx dy : Half) (transparent : Bool)
    (key : Half) : List (RegName × Byte) :=
  pairWrites .BSX_L .BSX_H sx ++ [(.BSY_L, lo sy), (.BSY_H, hiL sy sl)]
    ++ pairWrites .BDX_L .BDX_H dx ++ [(.BDY_L, lo dy), (.BDY_H, hiL dy dl)]
    ++ pairWrites .BW_L .BW_H w ++ pairWrites .BH_L .BH_H h
    ++ (if transparent then [(.BTK_R, colR P d key), (.BTK_G, colG P d key), (.BTK_B, colB P d key)] else [])

/-- Register writes by name as writes by address. -/
def atAddr (P : Params) (w : List (RegName × Byte)) : List (Byte × Byte) := w.map fun e => (P.addr e.1, e.2)

/-- DEV after register writes to plain storage: each register holds the byte written, every other cell what it held. -/
def Dev.holds (P : Params) (d e : Dev) (w : List (RegName × Byte)) : Prop :=
  (∀ r ∈ w, e.cell (P.addr r.1) = .known r.2) ∧ ∀ x, (∀ r ∈ w, x ≠ P.addr r.1) → e.cell x = d.cell x

/-- The window writes of INIT: start (0, 0), end (width - 1, height - 1) (rule R168). -/
def windowWrites (width height : Half) : List (RegName × Byte) :=
  pairWrites .AWXS_L .AWXS_H 0 ++ pairWrites .AWYS_L .AWYS_H 0
    ++ pairWrites .AWXE_L .AWXE_H (width - 1) ++ pairWrites .AWYE_L .AWYE_H (height - 1)

/-- The register writes of INIT after its reset step, in order (rules R165 to R169). -/
def initWrites (P : Params) (p : Panel) (width height : Half) : List (Byte × Byte) :=
  [(P.addr .PLL1, p.pll1), (P.addr .PLL2, p.pll2)] ++ p.timing ++ p.layer ++ atAddr P (windowWrites width height) ++ P.font
    ++ [(P.addr .PWR, 0x80)]

/-- The primitives of INIT's reset step (rules R162 to R164); `v` is the byte SoftReset read. -/
def resetPrims (P : Params) (v : Byte) : List Prim :=
  if P.hasResetLine then [.resetLine false, .delay .tRst, .resetLine true, .delay .tRstPost]
  else
    [.xfer .cmdw (P.addr .PWR) none, .xfer .datr 0x00 (some v),
     .xfer .cmdw (P.addr .PWR) none, .xfer .datw (v ||| P.pwrRst) none, .delay .tSoft1,
     .xfer .cmdw (P.addr .PWR) none, .xfer .datw (v &&& ~~~P.pwrRst) none, .delay .tSoft2]

/-- Everything a successful INIT does on the bus, phase by phase (rules R160 to R172); `ph` is the phase it was accepted in. -/
def initEvents (P : Params) (p : Panel) (width height : Half) (ph : Phase) (v : Byte) : List Event :=
  events ph [.hold] ++ events .reset (resetPrims P v)
    ++ events .pll (writePrims [(P.addr .PLL1, p.pll1)] ++ [.delay .tPll] ++ writePrims [(P.addr .PLL2, p.pll2)] ++ [.delay .tPll])
    ++ events .timing (writePrims p.timing)
    ++ events .window (writePrims (p.layer ++ atAddr P (windowWrites width height) ++ P.font))
    ++ events .powerOn (writePrims [(P.addr .PWR, 0x80)] ++ [.release])

/-- Everything an engine command that polls once does on the bus (rules R197 to R203, R220, R227): staging in the phase it was
accepted in, the trigger writes in PARAMS_STAGED, the poll in TRIGGERED, the release in IDLE. -/
def commandEvents (ph : Phase) (staging trigger : List (Byte × Byte)) (poll : List Prim) : List Event :=
  events ph ([.hold] ++ writePrims staging) ++ events .paramsStaged (writePrims trigger) ++ events .triggered poll
    ++ events .idle [.release]

/-- The byte a list of writes leaves at an address, or what was there. -/
def lastWrite (w : List (Byte × Byte)) (x : Byte) (base : Unk Byte) : Unk Byte :=
  w.foldl (fun u e => if x = e.1 then .known e.2 else u) base

end Sys2Proof.Machine
end

