-- ==== Sys2Proof/Certificates/Slice0/Obligations.lean ====
section
/-! DEFINITION. The statements for the provers, one per entry of OBLIGATIONS.json. In them `s.after q d n m ev` is `s` with SEQ
`q` and DEV `d`, `n` ticks and `m` frames later, with the events `ev` on the bus and nothing else changed; `s.afterWindow q d n l`
is the same after a bus-held window of `n` frames that is no command's (log 2), `d` being DEV right after the last of them; and
`s.devAtFrame k` is DEV as its own completion steps leave it when frame `k` of such a window arrives (Safety.lean). -/

section Statements

open Sys2Proof Sys2Proof.Machine

/-! ### Encodings -/

/-- Decoding what the encoder writes, with any bytes after it, gives the instruction back and leaves those bytes. -/
def Obligations.DecodeEncodeRoundTrip : Prop :=
  ∀ (i : Instr) (rest : List Byte), decode i.format (encode i ++ rest) = .ok (i, rest)

/-- What decodes to an instruction is its encoding, in its format: each instruction has one spelling, and a format gives no
bytes two meanings. That it is so rests on the model's choices: the byte layout of the commands, with set upper operand bits
refused (log 4), and the payload of DATR and STSR, which DEV ignores, kept as an operand (log 26). -/
def Obligations.DecodedBytesAreTheEncoding : Prop :=
  ∀ (f : Format) (bs : List Byte) (i : Instr) (rest : List Byte),
    decode f bs = .ok (i, rest) → i.format = f ∧ bs = encode i ++ rest

/-- Bytes written out from the tables of rules R91, R100, R101, R102, R107 and R110 decode to their instructions. The byte
layout of the commands' operands is the model's choice (log 4). -/
def Obligations.TableBytesDecode : Prop :=
  decodeWhole .frame16 [0x80, 0x90] = .ok (.cmdw 0x90) ∧ decodeWhole .frame16 [0x00, 0x0A] = .ok (.datw 0x0A)
    ∧ decodeWhole .frame16 [0x40, 0x00] = .ok (.datr 0x00) ∧ decodeWhole .frame16 [0xC0, 0x00] = .ok (.stsr 0x00)
    ∧ decodeWhole .dcr8 [0x80] = .ok .tLine ∧ decodeWhole .dcr8 [0xB0] = .ok .tFrect ∧ decodeWhole .dcr8 [0x60] = .ok .tFcirc
    ∧ decodeWhole .bterop8 [0xC2] = .ok .bMove ∧ decodeWhole .bterop8 [0xC5] = .ok .bTmove
    ∧ decodeWhole .btestart8 [0x80] = .ok .bStart ∧ decodeWhole .pwr8 [0x80] = .ok .pwrOn
    ∧ decodeWhole .seqcmd [0x05, 0x90, 0xB0] = .ok (.wrreg 0x90 0xB0)
    ∧ decodeWhole .seqcmd [0x22, 0x0A, 0x00, 0x0A, 0x00, 0x32, 0x00, 0x32, 0x00, 0x00, 0xF8]
        = .ok (.frect 10 10 50 50 0xF800)

/-- A frame whose opcode byte is none of the four is no instruction, and a machine presented with it refuses it (U1; the port's
packets are the model's, log 1). -/
def Obligations.UndefinedOpcodeRefused : Prop :=
  ∀ (op p : Byte), op ≠ 0x00 → op ≠ 0x40 → op ≠ 0x80 → op ≠ 0xC0 →
    decode .frame16 [op, p] = .error (.undefinedFrameOpcode op)
      ∧ ∀ (s : State) (ps : List Packet), s.seq.ucode = [] → s.seq.busy = false → s.port = ⟨.frame16, [op, p]⟩ :: ps →
          step s = .refused .undecodable

/-! ### The step -/

/-- With nothing in progress and a packet presented whose bytes decode to `i`, the step takes the packet and executes `i`
(packets: log 1). -/
def Obligations.StepRunsPresentedInstruction : Prop :=
  ∀ (s : State) (p : Packet) (ps : List Packet) (i : Instr), s.seq.ucode = [] → s.seq.busy = false → s.port = p :: ps →
    decodeWhole p.fmt p.bytes = .ok i → step s = exec i { s with port := ps }

/-- A table word presented by withFetchWord is what the next step runs (log 1). -/
def Obligations.StepRunsFetchWord : Prop :=
  ∀ (s : State) (nbits w : Nat) (i : Instr), decodeTableWord nbits w = some i →
    step (s.withFetchWord nbits w) = exec i { s with seq := { s.seq with busy := false, ucode := [] } }

/-- While SEQ is busy a command has no effect, and no step takes a packet from the port. -/
def Obligations.NothingAcceptedWhileBusy : Prop :=
  (∀ (i : Instr) (s : State), i.format = .seqcmd → s.seq.busy = true → exec i s = .next s)
    ∧ ∀ (s t : State), s.seq.busy = true → step s = .next t → t.port = s.port

/-- A reset of SEQ in a gap: the one in which SEQ waits, the one before any primitive (of a raw frame, a trigger byte, a command
just accepted, or what is left of one, whichever its next primitive is), the one before a poll's delay or its release, and the
one before the release after a failed frame. Every field of SEQ has the value of rule R52 (SEQ.op, don't-care there, is kept),
nothing is sent or released, and DEV is as it was but for its own completion steps. That the rest of a command is dropped at
once, the line back high with no event, is log 30; that the model's own fields are cleared with SEQ is log 8. -/
def Obligations.SeqResetInAnyGap : Prop :=
  let q : Op → Seq := fun op =>
    { busy := false, phase := .idle, step := 0, cur := .unknown, cfg := none, hold := false, op := op, pollcnt := 0, result := .ok,
      rdata := 0, pllDone := false, resetn := true, ucode := [], rx := 0, rxPrev := 0 }
  (∀ (s : State), s.now.seqReset = true →
    let t : Op → State := fun op => s.after (q op) (s.dev.complete s.now) 1 0 []
    (s.seq.ucode = [] → (s.seq.busy = true ∨ s.port = []) → step s = .next (t s.seq.op))
      ∧ (∀ i, i.format ≠ .seqcmd → exec i s = .next (t s.seq.op))
      ∧ (∀ i u, i.format = .seqcmd → s.seq.busy = false → exec i s = .next u → u.bus = s.bus ∧ (u.env = s.env ∨ u = t u.seq.op))
      ∧ (∀ m k, m.isPrimitive = true → s.seq.ucode = m :: k → step s = .next (t s.seq.op))
      ∧ ∀ p k, s.seq.ucode = .pollTest p :: k → s.seq.rx &&& p.mask ≠ 0 →
          (s.P.pollMax ≠ some (s.seq.pollcnt + 1) ∨ s.seq.hold = true) → step s = .next (t s.seq.op))
    ∧ ∀ (s : State) (t0 t1 : Tick) (ts : List Tick) (op : FrameOp) (p : Byte) (k : List Micro), s.seq.ucode = .frame op p :: k →
      s.seq.hold = true → s.seq.resetn = true → s.env = t0 :: t1 :: ts → t0.seqReset = false → t0.fate ≠ .ok → t1.seqReset = true →
      ∃ u, step { s with env := t0 :: { t1 with seqReset := false } :: ts } = .next u
        ∧ step s = .next (s.after (q s.seq.op) u.dev 2 1 (events s.seq.phase [.xferFailed op p]))

/-- While SEQ waits, a step lets DEV complete: a completion step clears its engine's flag, whatever it held, and nothing else
changes. When they happen is input data (log 5, log 28). -/
def Obligations.EnginesCompleteWhileSeqWaits : Prop :=
  ∀ (s : State), s.seq.ucode = [] → (s.seq.busy = true ∨ s.port = []) → s.now.seqReset = false →
    ∃ d, step s = .next (s.after s.seq d 1 0 [])
      ∧ d = { s.dev with drawBusy := d.drawBusy, circBusy := d.circBusy, bteBusy := d.bteBusy }
      ∧ d.drawBusy = (if s.now.drawDone then .known false else s.dev.drawBusy)
      ∧ d.circBusy = (if s.now.circDone then .known false else s.dev.circBusy)
      ∧ d.bteBusy = (if s.now.bteDone then .known false else s.dev.bteBusy)

/-! ### The four frames -/

/-- CMDW loads the pointer and touches nothing else of DEV; SEQ's shadow follows. -/
def Obligations.CmdwLoadsPointer : Prop :=
  ∀ (a : Byte) (s : State), s.calm = true →
    ∃ d, exec (.cmdw a) s = .next (s.afterWindow { s.seq with cur := .known a } d 1 [.xfer .cmdw a none])
      ∧ d.cur = .known a ∧ (∀ x, d.cell x = s.dev.cell x) ∧ d = { s.devAtFrame 0 with cur := .known a }

/-- DATW to plain storage, at the pointer or, while that is `?`, at a drawn address: the byte is stored there, every other
cell, every flag and every logged operation stays (a record may lose what it latched, U4), and the pointer moves as the policy
says; so does its shadow, unless SEQ has to take the write for a reset of DEV (log 19). Every byte is stored in BTE_CTRL1 (the
model's choice, log 34), and unnamed addresses are plain storage (UNNAMED_PLAIN, U6, log 22). -/
def Obligations.DatwStoresInPlainRegister : Prop :=
  ∀ (b a : Byte) (s : State), s.calm = true → a = s.dev.cur.getD (anyAddr s.draws) → plainReg s.P a = true →
    s.dev.inReset s.P s.draws = false →
    ∃ d, exec (.datw b) s = .next (s.afterWindow { s.seq with cur := s.curAfterWrite b } d 1 [.xfer .datw b none])
      ∧ (∀ x, d.cell x = if x = a then .known b else s.dev.cell x)
      ∧ d.flags = (s.devAtFrame 0).flags ∧ d.cur = adv s.P s.dev.cur
      ∧ d.oplog = (s.devAtFrame 0).taintedLog s.P a ∧ d.logHeads = s.dev.logHeads ∧ d.rstIfUnk = s.dev.rstIfUnk

/-- A data write that reaches PWR, at the pointer or at the address drawn while that is `?`, stores its byte even in software
reset. With the reset bit set every other cell and the pointer become `?` and the flags 0; without it nothing else changes. SEQ's
shadow is `?` where it named PWR and the byte has the reset bit (log 19), and moves as the policy says otherwise. -/
def Obligations.PowerWriteMayResetDevice : Prop :=
  ∀ (b : Byte) (s : State), s.P.wf = true → s.calm = true → s.dev.cur.getD (anyAddr s.draws) = s.P.addr .PWR →
    ∃ d, exec (.datw b) s = .next (s.afterWindow { s.seq with cur := s.curAfterWrite b } d 1 [.xfer .datw b none])
      ∧ d.oplog = s.dev.oplog ∧ d.rstIfUnk = s.dev.rstIfUnk
      ∧ (if b &&& s.P.pwrRst = 0 then
          (∀ x, d.cell x = if x = s.P.addr .PWR then .known b else s.dev.cell x)
            ∧ d.flags = (s.devAtFrame 0).flags ∧ d.cur = adv s.P s.dev.cur
        else
          (∀ x, d.cell x = if x = s.P.addr .PWR then .known b else .unknown)
            ∧ d.flags = (.known false, .known false, .known false) ∧ d.cur = .unknown)

/-- In software reset a DATW to any register but PWR leaves that cell `?` and does nothing else: no trigger, no flag (U5; log 12
while PWR is `?`). -/
def Obligations.DatwLostInSoftwareReset : Prop :=
  ∀ (b a : Byte) (s : State), s.calm = true → a = s.dev.cur.getD (anyAddr s.draws) → a ≠ s.P.addr .PWR →
    s.dev.inReset s.P s.draws = true →
    ∃ d, exec (.datw b) s = .next (s.afterWindow { s.seq with cur := s.curAfterWrite b } d 1 [.xfer .datw b none])
      ∧ (∀ x, d.cell x = if x = a then .unknown else s.dev.cell x)
      ∧ d.flags = (s.devAtFrame 0).flags ∧ d.cur = adv s.P s.dev.cur ∧ d.oplog = s.dev.oplog
      ∧ d.rstIfUnk = s.dev.rstIfUnk

/-- A data write of any byte that reaches DCR, at the pointer or at the address drawn while that is `?`, with the flags as DEV's
completion steps before it leave them. One of the seven trigger bytes on an idle device starts its engine and logs it with what
the registers hold; another byte with a start bit, or a trigger while a flag is not 0, leaves DEV unknown (U2, U3; log 13); a byte
without a start bit and with bits 3:1 clear leaves the flag of a drawing engine that is running `?`, and changes nothing where none
is (log 15; the model's choice of rule R205 over rule R115, log 34); with bits 3:1 set it leaves DEV unknown (U7). -/
def Obligations.DcrWriteTriggers : Prop :=
  ∀ (b : Byte) (s : State), s.P.wf = true → s.calm = true → s.dev.cur.getD (anyAddr s.draws) = s.P.addr .DCR →
    s.dev.inReset s.P s.draws = false →
    ∃ d, exec (.datw b) s = .next (s.afterWindow { s.seq with cur := s.curAfterWrite b } d 1 [.xfer .datw b none])
      ∧ let e := s.devAtFrame 0
        let kept := (∀ x, d.cell x = s.dev.cell x) ∧ d.cur = adv s.P s.dev.cur ∧ d.rstIfUnk = s.dev.rstIfUnk
        if b.getLsbD 7 = false ∧ b.getLsbD 6 = false ∧ b &&& 0x0E = 0 then
          kept ∧ d.drawBusy = (if e.drawBusy = .known true then .unknown else e.drawBusy)
            ∧ d.circBusy = (if e.circBusy = .known true then .unknown else e.circBusy) ∧ d.bteBusy = e.bteBusy
            ∧ d.logHeads = s.dev.logHeads
            ∧ (e.drawBusy ≠ .known true → e.circBusy ≠ .known true → d.oplog = s.dev.oplog)
        else if b ∈ ([0x80, 0x90, 0xB0, 0x81, 0xA1] : List Byte) ∧ e.allIdle = true then
          kept ∧ d.flags = (.known true, .known false, .known false)
            ∧ d.oplog = s.dev.oplog ++ [⟨.draw, b, .known (s.dev.snapshot s.P drawRegs)⟩]
        else if b ∈ ([0x40, 0x60] : List Byte) ∧ e.allIdle = true then
          kept ∧ d.flags = (.known false, .known true, .known false)
            ∧ d.oplog = s.dev.oplog ++ [⟨.circ, b, .known (s.dev.snapshot s.P drawRegs)⟩]
        else s.dev.scrambled d b

/-- A data write of any byte that reaches BTE_CTRL0, at the pointer or at the address drawn while that is `?`. 0x80 on an idle
device with a known operation byte and a size that is not zero starts the block transfer and logs it; another byte with bit 7, or
0x80 otherwise, leaves DEV unknown (U2, U3, U11; log 13, log 16); a byte without bit 7 starts nothing and, as the model chooses,
is not stored either, whether or not a transfer runs (log 14; U4 has the cell take the byte; log 34 for rule R115). The size is
zero exactly when one of the latched pairs is, where they are known. -/
def Obligations.BteStartWriteTriggers : Prop :=
  (∀ (P : Params) (n : Nat) (d : Dev) (w0 w1 h0 h1 : Byte), d.cell (P.addr .BW_L) = .known w0 → d.cell (P.addr .BW_H) = .known w1 →
      d.cell (P.addr .BH_L) = .known h0 → d.cell (P.addr .BH_H) = .known h1 →
      (d.bteSizeZero P n = true ↔ join16 w0 w1 = 0 ∨ join16 h0 h1 = 0))
    ∧ ∀ (b : Byte) (s : State), s.P.wf = true → s.calm = true → s.dev.cur.getD (anyAddr s.draws) = s.P.addr .BTE_CTRL0 →
      s.dev.inReset s.P s.draws = false →
      ∃ d, exec (.datw b) s = .next (s.afterWindow { s.seq with cur := s.curAfterWrite b } d 1 [.xfer .datw b none])
        ∧ let e := s.devAtFrame 0
          let kept := (∀ x, d.cell x = s.dev.cell x) ∧ d.cur = adv s.P s.dev.cur ∧ d.rstIfUnk = s.dev.rstIfUnk
          if b.getLsbD 7 = false then
            kept ∧ d.flags = e.flags ∧ d.logHeads = s.dev.logHeads
          else if b = 0x80 ∧ e.allIdle = true ∧ s.dev.bteSizeZero s.P s.draws = false
              ∧ (s.dev.cell (s.P.addr .BTE_CTRL1) = .known 0xC2 ∨ s.dev.cell (s.P.addr .BTE_CTRL1) = .known 0xC5) then
            kept ∧ d.flags = (.known false, .known false, .known true)
              ∧ d.oplog = s.dev.oplog ++ [⟨.bte, b, .known (s.dev.snapshot s.P bteRegs)⟩]
          else s.dev.scrambled d b

/-- DATR, with any payload, returns what the register at the pointer (or at a drawn address) reads as and changes neither a
cell nor a flag nor the log; the pointer and its shadow move as the policy says. -/
def Obligations.DatrReturnsRegister : Prop :=
  ∀ (p : Byte) (s : State), s.calm = true →
    ∃ d r, exec (.datr p) s
        = .next (s.afterWindow { s.seq with cur := adv s.P s.seq.cur, rx := r, rxPrev := s.seq.rx } d 1 [.xfer .datr p (some r)])
      ∧ (s.devAtFrame 0).readsAs s.P (s.dev.cur.getD (anyAddr s.draws)) r
      ∧ (∀ x, d.cell x = s.dev.cell x) ∧ d = { s.devAtFrame 0 with cur := adv s.P s.dev.cur }

/-- STSR, with any payload, returns a byte whose bit 6 is the BTE's flag where that is known; DEV, its pointer with it, and
SEQ's shadow are as they were. -/
def Obligations.StsrReturnsStatus : Prop :=
  ∀ (p : Byte) (s : State), s.calm = true →
    ∃ r, exec (.stsr p) s
        = .next (s.afterWindow { s.seq with rx := r, rxPrev := s.seq.rx } (s.devAtFrame 0) 1 [.xfer .stsr p (some r)])
      ∧ ∀ f, (s.devAtFrame 0).bteBusy = .known f → r.getLsbD 6 = f

/-- The pointer after a DATA frame: where it was under `reuse`, one further mod 256 under `increment`, `?` if it was `?`. A DATW
leaves it `?` exactly where the write resets DEV (it reaches PWR with the reset bit, rule R303) or leaves DEV unknown (U2, U3,
U11: the log has gained an UNKNOWN record). SEQ's shadow moves by the same function, but is `?` after a write it must take for a
reset of DEV (rule R54, log 19). CMDW and STSR never advance. -/
def Obligations.PointerMovesByPolicy : Prop :=
  (∀ (P : Params) (p : Byte),
      adv P .unknown = .unknown ∧ (P.ptrPolicy = .reuse → adv P (.known p) = .known p)
        ∧ (P.ptrPolicy = .increment → adv P (.known p) = .known (BitVec.ofNat 8 ((p.toNat + 1) % 256))))
    ∧ ∀ (b : Byte) (s : State), s.P.wf = true → s.calm = true →
      ∃ t u v w, exec (.datw b) s = .next t
        ∧ t.seq.cur = (if s.seq.cur = .known (s.P.addr .PWR) ∧ b &&& s.P.pwrRst ≠ 0 then .unknown else adv s.P s.seq.cur)
        ∧ t.dev.cur
            = (if s.dev.cur.getD (anyAddr s.draws) = s.P.addr .PWR ∧ b &&& s.P.pwrRst ≠ 0
                ∨ t.dev.logHeads = s.dev.logHeads ++ [(.unknown, b)] then .unknown
              else adv s.P s.dev.cur)
        ∧ exec (.datr b) s = .next u ∧ u.seq.cur = adv s.P s.seq.cur ∧ u.dev.cur = adv s.P s.dev.cur
        ∧ exec (.cmdw b) s = .next v ∧ v.seq.cur = .known b ∧ v.dev.cur = .known b
        ∧ exec (.stsr b) s = .next w ∧ w.seq.cur = s.seq.cur ∧ w.dev.cur = s.dev.cur

/-- A frame the transport fails (its tick is the first where SEQ holds the bus already, else the second, after Hold): DEV has acted
on it as if it had gone through, or not at all (log 21), and completes in the gaps of the release after it (log 18); SEQ's shadow
is `?`, the bus and the reset line are released, and SEQ is idle with BusTransportFailure posted. -/
def Obligations.FailedFrameAborts : Prop :=
  ∀ (p : Byte) (s : State) (pre post : List Tick) (f : Tick), s.env = pre ++ f :: post →
    pre.length = (if s.seq.hold then 0 else 1) → f.fate ≠ .ok → (∀ x ∈ s.env, x.seqReset = false ∧ x.pause = false) →
    let m := if s.seq.resetn then 1 else 2
    let n := pre.length + 1 + m
    ∀ e ∈ ([(.cmdw p, .cmdw), (.datw p, .datw), (.datr p, .datr), (.stsr p, .stsr)] : List (Instr × FrameOp)),
      ∃ t u, exec e.1 s = .next t ∧ exec e.1 { s with env := pre ++ { f with fate := .ok } :: post } = .next u
        ∧ t.dev = (if f.fate = .failActed then u.dev.completeAll ((post.take m).drop pre.length)
            else s.dev.completeAll (s.env.take n))
        ∧ t.seq.cur = .unknown ∧ t.seq.result = .busTransportFailure ∧ t.seq.busy = false ∧ t.seq.hold = false
        ∧ t.seq.phase = .idle ∧ t.seq.resetn = true ∧ t.seq.ucode = [] ∧ t.seq.rdata = s.seq.rdata ∧ t.seq.op = s.seq.op
        ∧ t.seq.step = s.seq.step + n
        ∧ t.seq.pllDone = s.seq.pllDone ∧ (s.seq.busy = false → t.seq.cfg = s.seq.cfg) ∧ t.P = s.P ∧ t.port = s.port
        ∧ t.env = s.env.drop n
        ∧ t.bus = s.bus ++ events s.seq.phase ((if s.seq.hold then [] else [.hold]) ++ [.xferFailed e.2 p, .release]
            ++ (if s.seq.resetn then [] else [.resetLine true]))

/-! ### Trigger, control and power bytes -/

/-- A trigger, control or power byte is SEQ's CMDW to its register and DATW of the byte in one bus-held window, whatever DEV is
doing (log 2). -/
def Obligations.TriggerBytesAreTwoFrames : Prop :=
  ∀ (s : State), s.calm = true →
    ∀ e ∈ ([(.tLine, .DCR, 0x80), (.tRect, .DCR, 0x90), (.tFrect, .DCR, 0xB0), (.tTri, .DCR, 0x81), (.tFtri, .DCR, 0xA1),
        (.tCirc, .DCR, 0x40), (.tFcirc, .DCR, 0x60), (.bMove, .BTE_CTRL1, 0xC2), (.bTmove, .BTE_CTRL1, 0xC5),
        (.bStart, .BTE_CTRL0, 0x80), (.pwrOn, .PWR, 0x80)] : List (Instr × RegName × Byte)),
      ∃ u, execAll [.cmdw (s.P.addr e.2.1), .datw e.2.2] s.grab = .next u ∧ exec e.1 s = .next (s.drop u)

/-- The seven drawing and circle triggers on a device whose flags are 0 when the byte arrives: the engine's flag is set, its
operation is logged with the byte and with what every register of rules R43 and R46 holds, and no cell changes. -/
def Obligations.DrawingTriggersStart : Prop :=
  ∀ (s : State), s.P.wf = true → s.calm = true → s.dev.awake s.P = true →
    (s.devAtFrame 1).allIdle = true →
    ∀ e ∈ ([(.tLine, 0x80, .draw), (.tRect, 0x90, .draw), (.tFrect, 0xB0, .draw), (.tTri, 0x81, .draw), (.tFtri, 0xA1, .draw),
        (.tCirc, 0x40, .circ), (.tFcirc, 0x60, .circ)] : List (Instr × Byte × Engine)),
      ∃ d, exec e.1 s
          = .next (s.afterWindow { s.seq with cur := .known (advByte s.P (s.P.addr .DCR)) } d 2
              (writePrims [(s.P.addr .DCR, e.2.1)]))
        ∧ (∀ x, d.cell x = s.dev.cell x)
        ∧ d.flags = (.known (e.2.2 == .draw), .known (e.2.2 == .circ), .known false)
        ∧ d.oplog = s.dev.oplog ++ [⟨e.2.2, e.2.1, .known (s.dev.snapshot s.P (geometryRegs ++ colourRegs))⟩]
        ∧ d.cur = .known (advByte s.P (s.P.addr .DCR)) ∧ d.rstIfUnk = s.dev.rstIfUnk

/-- B_MOVE and B_TMOVE store their byte in BTE_CTRL1 and start nothing. -/
def Obligations.BteOperationBytesAreStored : Prop :=
  ∀ (s : State), s.P.wf = true → s.calm = true → s.dev.awake s.P = true →
    ∀ e ∈ ([(.bMove, 0xC2), (.bTmove, 0xC5)] : List (Instr × Byte)),
      ∃ d, exec e.1 s
          = .next (s.afterWindow { s.seq with cur := .known (advByte s.P (s.P.addr .BTE_CTRL1)) } d 2
              (writePrims [(s.P.addr .BTE_CTRL1, e.2)]))
        ∧ s.dev.holds s.P d [(.BTE_CTRL1, e.2)]
        ∧ d.flags = (s.devAtFrame 1).flags ∧ d.logHeads = s.dev.logHeads
        ∧ d.cur = .known (advByte s.P (s.P.addr .BTE_CTRL1)) ∧ d.rstIfUnk = s.dev.rstIfUnk

/-- B_START on a device whose flags are 0 when the byte arrives, whose operation byte is one of the two and whose width and
height are known and not zero: the BTE's flag is set, the transfer is logged with what its registers hold, and no cell
changes. -/
def Obligations.BteStartStarts : Prop :=
  ∀ (s : State) (w0 w1 h0 h1 : Byte), s.P.wf = true → s.calm = true → s.dev.awake s.P = true →
    (s.devAtFrame 1).allIdle = true →
    (s.dev.cell (s.P.addr .BTE_CTRL1) = .known 0xC2 ∨ s.dev.cell (s.P.addr .BTE_CTRL1) = .known 0xC5) →
    s.dev.cell (s.P.addr .BW_L) = .known w0 → s.dev.cell (s.P.addr .BW_H) = .known w1 → join16 w0 w1 ≠ 0 →
    s.dev.cell (s.P.addr .BH_L) = .known h0 → s.dev.cell (s.P.addr .BH_H) = .known h1 → join16 h0 h1 ≠ 0 →
    ∃ d, exec .bStart s
        = .next (s.afterWindow { s.seq with cur := .known (advByte s.P (s.P.addr .BTE_CTRL0)) } d 2
            (writePrims [(s.P.addr .BTE_CTRL0, 0x80)]))
      ∧ (∀ x, d.cell x = s.dev.cell x) ∧ d.flags = (.known false, .known false, .known true)
      ∧ d.oplog = s.dev.oplog ++ [⟨.bte, 0x80, .known (s.dev.snapshot s.P bteRegs)⟩]
      ∧ d.cur = .known (advByte s.P (s.P.addr .BTE_CTRL0)) ∧ d.rstIfUnk = s.dev.rstIfUnk

/-- PWR_ON stores 0x80 in PWR, in software reset too, and changes no other cell, no flag and no record; DEV is not in
software reset after it. -/
def Obligations.PowerOnStoresByte : Prop :=
  ∀ (s : State), s.P.wf = true → s.calm = true →
    ∃ d, exec .pwrOn s
        = .next (s.afterWindow { s.seq with cur := .known (advByte s.P (s.P.addr .PWR)) } d 2
            (writePrims [(s.P.addr .PWR, 0x80)]))
      ∧ s.dev.holds s.P d [(.PWR, 0x80)] ∧ d.flags = (s.devAtFrame 1).flags ∧ d.oplog = s.dev.oplog
      ∧ d.cur = .known (advByte s.P (s.P.addr .PWR)) ∧ d.rstIfUnk = s.dev.rstIfUnk ∧ d.awake s.P = true

/-! ### Register-access commands -/

/-- Each of the eight register-access commands is its frames inside one bus-held window, whatever registers it names and
whatever DEV is doing. -/
def Obligations.RegisterCommandsAreTheirFrames : Prop :=
  ∀ (s : State) (reg reg0 reg1 b : Byte) (v : Half), s.calm = true → s.seq.busy = false →
    let o := s.seq.op
    s.windowed (.wrcmd reg) { o with code := 0x01, reg := reg } [.cmdw reg] .none
      ∧ s.windowed (.wrdata b) { o with code := 0x02, byte := b } [.datw b] .none
      ∧ s.windowed .rddata { o with code := 0x03 } [.datr 0x00] .byte
      ∧ s.windowed .rdstatus { o with code := 0x04 } [.stsr 0x00] .byte
      ∧ s.windowed (.wrreg reg b) { o with code := 0x05, reg := reg, byte := b } [.cmdw reg, .datw b] .none
      ∧ s.windowed (.rdreg reg) { o with code := 0x06, reg := reg } [.cmdw reg, .datr 0x00] .byte
      ∧ s.windowed (.wr16 reg0 reg1 v) { o with code := 0x07, reg0 := reg0, reg1 := reg1, v := v }
          [.cmdw reg0, .datw (v.extractLsb' 0 8), .cmdw reg1, .datw (v.extractLsb' 8 8)] .none
      ∧ s.windowed (.rd16 reg0 reg1) { o with code := 0x08, reg0 := reg0, reg1 := reg1 }
          [.cmdw reg0, .datr 0x00, .cmdw reg1, .datr 0x00] .word

/-- WRCMD leaves the pointer and SEQ's shadow at its operand and touches nothing else of DEV. -/
def Obligations.WrcmdSelectsRegister : Prop :=
  ∀ (reg : Byte) (s : State), s.calm = true → s.seq.busy = false →
    ∃ d, exec (.wrcmd reg) s
        = .next (s.after (s.seq.answered { s.seq.op with code := 0x01, reg := reg } 3 (.known reg)) d 3 1
            (events s.seq.phase [.hold, .xfer .cmdw reg none, .release]))
      ∧ d = { s.dev.completeAll (s.env.take 3) with cur := .known reg } ∧ ∀ x, d.cell x = s.dev.cell x

/-- WRDATA stores its byte at the pointer, or at the address drawn while that is `?`, where that is plain storage, in one bus-held
window. SEQ's shadow moves as the policy says, unless it has to take the write for a reset of DEV (log 19). Every byte is stored in
BTE_CTRL1 (the model's choice, log 34), and unnamed addresses are plain storage (UNNAMED_PLAIN, U6, log 22). -/
def Obligations.WrdataStoresAtPointer : Prop :=
  ∀ (b a : Byte) (s : State), s.calm = true → s.seq.busy = false → a = s.dev.cur.getD (anyAddr s.draws) → plainReg s.P a = true →
    s.dev.inReset s.P s.draws = false →
    ∃ d, exec (.wrdata b) s
        = .next (s.after (s.seq.answered { s.seq.op with code := 0x02, byte := b } 3 (s.curAfterWrite b)) d 3 1
            (events s.seq.phase [.hold, .xfer .datw b none, .release]))
      ∧ (∀ x, d.cell x = if x = a then .known b else s.dev.cell x)
      ∧ d.flags = (s.dev.completeAll (s.env.take 3)).flags ∧ d.cur = adv s.P s.dev.cur ∧ d.logHeads = s.dev.logHeads
      ∧ d.rstIfUnk = s.dev.rstIfUnk

/-- RDDATA returns, zero-extended, what the register at the pointer (or at a drawn address) reads as. -/
def Obligations.RddataReturnsAtPointer : Prop :=
  ∀ (s : State), s.calm = true → s.seq.busy = false →
    ∃ d r, exec .rddata s
        = .next (s.after
            { s.seq.answered { s.seq.op with code := 0x03 } 3 (adv s.P s.seq.cur) with
              rdata := r.setWidth 16, rx := r, rxPrev := s.seq.rx } d 3 1
            (events s.seq.phase [.hold, .xfer .datr 0x00 (some r), .release]))
      ∧ (s.dev.completeAll (s.env.take 2)).readsAs s.P (s.dev.cur.getD (anyAddr s.draws)) r
      ∧ d = { s.dev.completeAll (s.env.take 3) with cur := adv s.P s.dev.cur } ∧ ∀ x, d.cell x = s.dev.cell x

/-- RDSTATUS returns a byte, zero-extended, whose bit 6 is the BTE's flag; the pointer and its shadow are unchanged. -/
def Obligations.RdstatusReturnsStatus : Prop :=
  ∀ (s : State), s.calm = true → s.seq.busy = false →
    ∃ r, exec .rdstatus s
        = .next (s.after
            { s.seq.answered { s.seq.op with code := 0x04 } 3 s.seq.cur with
              rdata := r.setWidth 16, rx := r, rxPrev := s.seq.rx } (s.dev.completeAll (s.env.take 3)) 3 1
            (events s.seq.phase [.hold, .xfer .stsr 0x00 (some r), .release]))
      ∧ ∀ f, (s.dev.completeAll (s.env.take 2)).bteBusy = .known f → r.getLsbD 6 = f

/-- WRREG stores its byte in a plain register, whatever the pointer held, and nothing else changes. Every byte is stored in
BTE_CTRL1 (the model's choice, log 34), and unnamed addresses are plain storage (UNNAMED_PLAIN, U6, log 22). -/
def Obligations.WrregStoresByte : Prop :=
  ∀ (reg b : Byte) (s : State), s.calm = true → s.seq.busy = false → plainReg s.P reg = true → s.dev.awake s.P = true →
    ∃ d, exec (.wrreg reg b) s
        = .next (s.after (s.seq.answered { s.seq.op with code := 0x05, reg := reg, byte := b } 4 (.known (advByte s.P reg))) d 4 2
            (events s.seq.phase ([.hold] ++ writePrims [(reg, b)] ++ [.release])))
      ∧ (∀ x, d.cell x = if x = reg then .known b else s.dev.cell x)
      ∧ d.flags = (s.dev.completeAll (s.env.take 4)).flags ∧ d.cur = .known (advByte s.P reg) ∧ d.logHeads = s.dev.logHeads
      ∧ d.rstIfUnk = s.dev.rstIfUnk

/-- RDREG returns, zero-extended, what its register reads as, whatever the pointer held, and changes neither a cell nor a
flag. -/
def Obligations.RdregReturnsByte : Prop :=
  ∀ (reg : Byte) (s : State), s.calm = true → s.seq.busy = false →
    ∃ d r, exec (.rdreg reg) s
        = .next (s.after
            { s.seq.answered { s.seq.op with code := 0x06, reg := reg } 4 (.known (advByte s.P reg)) with
              rdata := r.setWidth 16, rx := r, rxPrev := s.seq.rx } d 4 2
            (events s.seq.phase [.hold, .xfer .cmdw reg none, .xfer .datr 0x00 (some r), .release]))
      ∧ (s.dev.completeAll (s.env.take 3)).readsAs s.P reg r
      ∧ d = { s.dev.completeAll (s.env.take 4) with cur := .known (advByte s.P reg) } ∧ ∀ x, d.cell x = s.dev.cell x

/-- WR16 stores the low byte and then the high byte in two plain registers; if they are one register, it holds the high
byte. Every byte is stored in BTE_CTRL1 (the model's choice, log 34), and unnamed addresses are plain storage (UNNAMED_PLAIN, U6,
log 22). -/
def Obligations.Wr16StoresPair : Prop :=
  ∀ (reg0 reg1 : Byte) (v : Half) (s : State), s.calm = true → s.seq.busy = false → plainReg s.P reg0 = true →
    plainReg s.P reg1 = true → s.dev.awake s.P = true →
    ∃ d, exec (.wr16 reg0 reg1 v) s
        = .next (s.after (s.seq.answered { s.seq.op with code := 0x07, reg0 := reg0, reg1 := reg1, v := v } 6
              (.known (advByte s.P reg1))) d 6 4
            (events s.seq.phase ([.hold] ++ writePrims [(reg0, v.extractLsb' 0 8), (reg1, v.extractLsb' 8 8)] ++ [.release])))
      ∧ (∀ x, d.cell x = if x = reg1 then .known (v.extractLsb' 8 8)
          else if x = reg0 then .known (v.extractLsb' 0 8) else s.dev.cell x)
      ∧ d.flags = (s.dev.completeAll (s.env.take 6)).flags ∧ d.cur = .known (advByte s.P reg1) ∧ d.logHeads = s.dev.logHeads
      ∧ d.rstIfUnk = s.dev.rstIfUnk

/-- RD16 returns the two bytes its registers read as, the first one low, and changes neither a cell nor a flag. -/
def Obligations.Rd16ReturnsPair : Prop :=
  ∀ (reg0 reg1 : Byte) (s : State), s.calm = true → s.seq.busy = false →
    ∃ d l h, exec (.rd16 reg0 reg1) s
        = .next (s.after
            { s.seq.answered { s.seq.op with code := 0x08, reg0 := reg0, reg1 := reg1 } 6 (.known (advByte s.P reg1)) with
              rdata := ((h.setWidth 16 : Half) <<< 8) ||| (l.setWidth 16 : Half), rx := h, rxPrev := l } d 6 4
            (events s.seq.phase [.hold, .xfer .cmdw reg0 none, .xfer .datr 0x00 (some l), .xfer .cmdw reg1 none,
              .xfer .datr 0x00 (some h), .release]))
      ∧ (s.dev.completeAll (s.env.take 3)).readsAs s.P reg0 l ∧ (s.dev.completeAll (s.env.take 5)).readsAs s.P reg1 h
      ∧ d = { s.dev.completeAll (s.env.take 6) with cur := .known (advByte s.P reg1) } ∧ ∀ x, d.cell x = s.dev.cell x

/-- A 16-bit value written to two plain registers by WR16 is what RD16 of them returns, and a byte written by WRREG is what
RDREG returns, whatever the engines do meanwhile. Read back from an unnamed address this assumes UNNAMED_PLAIN (U6, log 22), and
every byte is stored in BTE_CTRL1 (the model's choice, log 34). -/
def Obligations.WriteReadRoundTrip : Prop :=
  ∀ (s : State), s.calm = true → s.seq.busy = false → s.dev.awake s.P = true →
    (∀ (reg0 reg1 : Byte) (v : Half), plainReg s.P reg0 = true → plainReg s.P reg1 = true → reg0 ≠ reg1 →
      ∃ t u, exec (.wr16 reg0 reg1 v) s = .next t ∧ exec (.rd16 reg0 reg1) t = .next u ∧ u.seq.result = .ok ∧ u.seq.rdata = v)
    ∧ ∀ (reg b : Byte), plainReg s.P reg = true →
      ∃ t u, exec (.wrreg reg b) s = .next t ∧ exec (.rdreg reg) t = .next u ∧ u.seq.result = .ok ∧ u.seq.rdata = b.setWidth 16

/-- The result of every command but WRDATA and RDDATA, in any world, does not depend on the pointer policy or on what the
pointer and its shadow held. -/
def Obligations.PointerPolicyIndependence : Prop :=
  ∀ (i : Instr) (s t : State), i.format = .seqcmd → (∀ b, i ≠ .wrdata b) → i ≠ .rddata → s.sameButPointer t →
    (∃ s' t', exec i s = .next s' ∧ exec i t = .next t' ∧ s'.sameButPointer t')
      ∨ ∃ r, exec i s = .refused r ∧ exec i t = .refused r

/-! ### INIT -/

/-- A triple SUPPORTED does not hold of ends INIT with UnsupportedConfiguration and no primitive: the configuration, the
shadow, the bus, the line and all of DEV are as they were. The only depths are 8 and 16, 320 x 200 is never supported and
480 x 272 at depth 16 always is. -/
def Obligations.UnsupportedInitTouchesNothing : Prop :=
  ∀ (width height : Half) (depth : Byte) (s : State), s.seq.busy = false →
    (s.P.panel? width height depth = none →
      exec (.init width height depth) s
        = .next (s.after
            { s.seq with
              op := { s.seq.op with code := 0x10, width := width, height := height, depth := depth }
              step := 0
              pollcnt := 0
              result := .unsupportedConfiguration
              busy := false
              phase := .idle
              ucode := [] } s.dev 0 0 []))
      ∧ (depth ≠ 8 → depth ≠ 16 → s.P.panel? width height depth = none)
      ∧ (s.P.wf = true → s.P.panel? 320 200 depth = none ∧ s.P.panel? 480 272 16 ≠ none)

/-- A supported INIT, from any state of DEV, in a calm world: its events are those of rules R160 to R172 in their phases; DEV
holds the last byte written at every address written, `?` everywhere else, 0 in its flags, and the log it had; SEQ.cfg is
the new configuration. In the soft reset the byte read is what PWR held. -/
def Obligations.InitBringsDeviceUp : Prop :=
  ∀ (width height : Half) (depth : Byte) (p : Panel) (s : State), s.P.wf = true → s.calm = true → s.seq.busy = false →
    s.P.panel? width height depth = some p →
    ∃ d q v, (∀ b, s.dev.cell (s.P.addr .PWR) = .known b → v = b)
      ∧ exec (.init width height depth) s
        = .next (s.after q d (initEvents s.P p width height s.seq.phase v).length
            (frames (initEvents s.P p width height s.seq.phase v)).length (initEvents s.P p width height s.seq.phase v))
      ∧ q = { s.seq.answered { s.seq.op with code := 0x10, width := width, height := height, depth := depth }
              (initEvents s.P p width height s.seq.phase v).length (.known (advByte s.P (s.P.addr .PWR))) with
            cfg := some ⟨width, height, p.depth, s.P.chipSelect, s.P.hasResetLine, s.P.hasIntLine⟩
            pllDone := true
            resetn := s.P.hasResetLine || s.seq.resetn
            rx := q.rx
            rxPrev := q.rxPrev }
      ∧ p.depth.toByte = depth
      ∧ (∀ x, d.cell x = lastWrite (initWrites s.P p width height) x .unknown)
      ∧ d.flags = (.known false, .known false, .known false) ∧ d.oplog = s.dev.oplog
      ∧ d.cur = .known (advByte s.P (s.P.addr .PWR))

/-- A successful INIT emits 22 frames and two per table entry, six more without a reset line; the first is CMDW PLL1 with a
line and CMDW PWR without, and the last two are CMDW PWR, DATW 0x80. -/
def Obligations.InitFrameCount : Prop :=
  ∀ (width height : Half) (depth : Byte) (p : Panel) (s : State), s.calm = true → s.seq.busy = false → s.P.wf = true →
    s.P.panel? width height depth = some p →
    ∃ t l, exec (.init width height depth) s = .next t ∧ t.seq.result = .ok ∧ t.seq.busy = false ∧ t.bus = s.bus ++ l
      ∧ (frames l).length
          = 22 + 2 * (p.timing.length + p.layer.length + s.P.font.length) + (if s.P.hasResetLine then 0 else 6)
      ∧ (frames l).head? = some (0x80, if s.P.hasResetLine then s.P.addr .PLL1 else s.P.addr .PWR)
      ∧ (frames l).drop ((frames l).length - 2) = [(0x80, s.P.addr .PWR), (0x00, 0x80)]

/-- An INIT that a transport failure ends leaves no configuration, whatever SEQ.cfg held; one that ends otherwise leaves the old
one (validation) or the new one (success). No partial success is visible (log 17). -/
def Obligations.InitExposesNoPartialSuccess : Prop :=
  ∀ (width height : Half) (depth : Byte) (s t : State), s.seq.busy = false → (∀ k ∈ s.env, k.seqReset = false) →
    exec (.init width height depth) s = .next t → t.seq.busy = false →
    (t.seq.result = .busTransportFailure ∧ t.seq.cfg = none)
      ∨ (t.seq.result = .unsupportedConfiguration ∧ t.seq.cfg = s.seq.cfg)
      ∨ (t.seq.result = .ok ∧ ∃ c : DeviceConfig, t.seq.cfg = some c ∧ c.width = width ∧ c.height = height
          ∧ c.colorDepth.toByte = depth ∧ c.chipSelect = s.P.chipSelect ∧ c.resetLine = s.P.hasResetLine
          ∧ c.interruptLine = s.P.hasIntLine)

/-! ### Drawing -/

/-- A drawing or block command is refused while SEQ.cfg is invalid, and BTECOPY also for a layer outside {1, 2} or a vertical
coordinate above 0x7FFF. -/
def Obligations.EngineCommandsNeedAdmission : Prop :=
  ∀ (s : State) (x0 y0 x1 y1 x2 y2 c w h : Half) (r : Byte) (sl dl : BitVec 2) (tr : Bool), s.seq.busy = false →
    (s.seq.cfg = none →
      ∀ i ∈ [Instr.line x0 y0 x1 y1 c, .rect x0 y0 x1 y1 c, .frect x0 y0 x1 y1 c, .tri x0 y0 x1 y1 x2 y2 c,
          .ftri x0 y0 x1 y1 x2 y2 c, .circ x0 y0 r c, .fcirc x0 y0 r c, .btecopy sl x0 y0 w h dl x1 y1 tr c],
        exec i s = .refused .notAdmitted)
      ∧ (s.seq.cfg ≠ none →
          (sl ≠ 1 ∧ sl ≠ 2) ∨ (dl ≠ 1 ∧ dl ≠ 2) ∨ 0x7FFF < y0.toNat ∨ 0x7FFF < y1.toNat →
          exec (.btecopy sl x0 y0 w h dl x1 y1 tr c) s = .refused .bteOperands)

/-- LINE, RECT and FRECT on an idle device, the engine completing before the first poll read: start point, end point and
colour are staged, the trigger byte is written, its operation is logged with the staged registers, one read sees the flag
clear, and the command ends OK. Nothing else changes. -/
def Obligations.TwoPointCommandsDraw : Prop :=
  ∀ (x0 y0 x1 y1 c : Half) (g : DeviceConfig) (s : State), s.P.wf = true → s.calm = true → s.seq.busy = false →
    s.seq.cfg = some g → s.dev.awake s.P = true → s.dev.allIdle = true →
    ((s.env.drop 25).take 2).any (·.drawDone) = true →
    ∀ e ∈ ([(.line x0 y0 x1 y1 c, 0x20, 0x80), (.rect x0 y0 x1 y1 c, 0x21, 0x90), (.frect x0 y0 x1 y1 c, 0x22, 0xB0)]
        : List (Instr × Byte × Byte)),
      let w := twoPointWrites s.P g.colorDepth x0 y0 x1 y1 c
      ∃ d r, r &&& 0x80 = 0
        ∧ exec e.1 s
          = .next (s.after
              { s.seq.answered { s.seq.op with code := e.2.1, x0 := x0, y0 := y0, x1 := x1, y1 := y1, c := c } 28
                  (.known (advByte s.P (s.P.addr .DCR))) with rx := r, rxPrev := s.seq.rx } d 28 26
              (commandEvents s.seq.phase (atAddr s.P w) [(s.P.addr .DCR, e.2.2)]
                [.xfer .cmdw (s.P.addr .DCR) none, .xfer .datr 0x00 (some r)]))
        ∧ s.dev.holds s.P d w ∧ d.flags = (.known false, .known false, .known false)
        ∧ d.oplog = s.dev.oplog ++ [⟨.draw, e.2.2, .known (d.snapshot s.P (geometryRegs ++ colourRegs))⟩]
        ∧ d.cur = .known (advByte s.P (s.P.addr .DCR)) ∧ d.rstIfUnk = s.dev.rstIfUnk

/-- TRI and FTRI likewise, the third point staged before the colour. -/
def Obligations.ThreePointCommandsDraw : Prop :=
  ∀ (x0 y0 x1 y1 x2 y2 c : Half) (g : DeviceConfig) (s : State), s.P.wf = true → s.calm = true → s.seq.busy = false →
    s.seq.cfg = some g → s.dev.awake s.P = true → s.dev.allIdle = true →
    ((s.env.drop 33).take 2).any (·.drawDone) = true →
    ∀ e ∈ ([(.tri x0 y0 x1 y1 x2 y2 c, 0x23, 0x81), (.ftri x0 y0 x1 y1 x2 y2 c, 0x24, 0xA1)] : List (Instr × Byte × Byte)),
      let w := threePointWrites s.P g.colorDepth x0 y0 x1 y1 x2 y2 c
      ∃ d r, r &&& 0x80 = 0
        ∧ exec e.1 s
          = .next (s.after
              { s.seq.answered
                  { s.seq.op with code := e.2.1, x0 := x0, y0 := y0, x1 := x1, y1 := y1, x2 := x2, y2 := y2, c := c } 36
                  (.known (advByte s.P (s.P.addr .DCR))) with rx := r, rxPrev := s.seq.rx } d 36 34
              (commandEvents s.seq.phase (atAddr s.P w) [(s.P.addr .DCR, e.2.2)]
                [.xfer .cmdw (s.P.addr .DCR) none, .xfer .datr 0x00 (some r)]))
        ∧ s.dev.holds s.P d w ∧ d.flags = (.known false, .known false, .known false)
        ∧ d.oplog = s.dev.oplog ++ [⟨.draw, e.2.2, .known (d.snapshot s.P (geometryRegs ++ colourRegs))⟩]
        ∧ d.cur = .known (advByte s.P (s.P.addr .DCR)) ∧ d.rstIfUnk = s.dev.rstIfUnk

/-- CIRC and FCIRC likewise, with the circle's own start bit: the circle's flag is set and polled on bit 0x40. -/
def Obligations.CircleCommandsDraw : Prop :=
  ∀ (cx cy : Half) (rad : Byte) (c : Half) (g : DeviceConfig) (s : State), s.P.wf = true → s.calm = true → s.seq.busy = false →
    s.seq.cfg = some g → s.dev.awake s.P = true → s.dev.allIdle = true →
    ((s.env.drop 19).take 2).any (·.circDone) = true →
    ∀ e ∈ ([(.circ cx cy rad c, 0x25, 0x40), (.fcirc cx cy rad c, 0x26, 0x60)] : List (Instr × Byte × Byte)),
      let w := circleWrites s.P g.colorDepth cx cy rad c
      ∃ d r, r &&& 0x40 = 0
        ∧ exec e.1 s
          = .next (s.after
              { s.seq.answered { s.seq.op with code := e.2.1, cx := cx, cy := cy, r := rad, c := c } 22
                  (.known (advByte s.P (s.P.addr .DCR))) with rx := r, rxPrev := s.seq.rx } d 22 20
              (commandEvents s.seq.phase (atAddr s.P w) [(s.P.addr .DCR, e.2.2)]
                [.xfer .cmdw (s.P.addr .DCR) none, .xfer .datr 0x00 (some r)]))
        ∧ s.dev.holds s.P d w ∧ d.flags = (.known false, .known false, .known false)
        ∧ d.oplog = s.dev.oplog ++ [⟨.circ, e.2.2, .known (d.snapshot s.P (geometryRegs ++ colourRegs))⟩]
        ∧ d.cur = .known (advByte s.P (s.P.addr .DCR)) ∧ d.rstIfUnk = s.dev.rstIfUnk

/-! ### Block copies -/

/-- An admitted BTECOPY with a zero width or height ends OK with no primitive, SEQ's shadow and DEV unchanged. -/
def Obligations.ZeroSizeCopyTouchesNothing : Prop :=
  ∀ (sl : BitVec 2) (sx sy w h : Half) (dl : BitVec 2) (dx dy : Half) (tr : Bool) (key : Half) (g : DeviceConfig) (s : State),
    s.seq.busy = false → s.seq.cfg = some g → bteOperandsOk sl dl sy dy = true → w = 0 ∨ h = 0 →
    exec (.btecopy sl sx sy w h dl dx dy tr key) s
      = .next (s.after
          (s.seq.answered (s.seq.op.copy sl sx sy w h dl dx dy tr key) 0 s.seq.cur |> fun q => { q with hold := s.seq.hold })
          s.dev 0 0 [])

/-- An admitted BTECOPY of a size that is not zero, on an idle device, the BTE completing before the first status read: the
corners with their layer bits, the size and, if transparent, the colour are staged, then the operation byte and the start byte
are written, the transfer is logged with the registers, one status read sees the flag clear, and the command ends OK. -/
def Obligations.BtecopyCopies : Prop :=
  ∀ (sl : BitVec 2) (sx sy w h : Half) (dl : BitVec 2) (dx dy : Half) (tr : Bool) (key : Half) (g : DeviceConfig) (s : State),
    s.P.wf = true → s.calm = true → s.seq.busy = false → s.seq.cfg = some g → bteOperandsOk sl dl sy dy = true →
    w ≠ 0 → h ≠ 0 → s.dev.awake s.P = true → s.dev.allIdle = true →
    let m := if tr then 6 else 0
    let rop : Byte := if tr then 0xC5 else 0xC2
    ((s.env.drop (29 + m)).take 1).any (·.bteDone) = true →
    ∃ d r, r &&& 0x40 = 0
      ∧ exec (.btecopy sl sx sy w h dl dx dy tr key) s
        = .next (s.after
            { s.seq.answered (s.seq.op.copy sl sx sy w h dl dx dy tr key) (31 + m)
                (.known (advByte s.P (s.P.addr .BTE_CTRL0))) with rx := r, rxPrev := s.seq.rx } d (31 + m) (29 + m)
            (commandEvents s.seq.phase (atAddr s.P (copyWrites s.P g.colorDepth sl sx sy w h dl dx dy tr key))
              [(s.P.addr .BTE_CTRL1, rop), (s.P.addr .BTE_CTRL0, 0x80)] [.xfer .stsr 0x00 (some r)]))
      ∧ s.dev.holds s.P d (copyWrites s.P g.colorDepth sl sx sy w h dl dx dy tr key ++ [(.BTE_CTRL1, rop)])
      ∧ d.flags = (.known false, .known false, .known false)
      ∧ d.oplog = s.dev.oplog ++ [⟨.bte, 0x80, .known (d.snapshot s.P bteRegs)⟩]
      ∧ d.cur = .known (advByte s.P (s.P.addr .BTE_CTRL0)) ∧ d.rstIfUnk = s.dev.rstIfUnk

/-! ### Polling -/

/-- With nothing happening outside, an engine command on an idle device (a BTECOPY of operands it admits and a size that is not
zero) triggers its engine, reads the flag once, finds it set, waits T_POLL, and is left polling in TRIGGERED with the bus held
(POLL_MAX is not 1; that a step ends there is log 7). -/
def Obligations.BusyEngineLeavesCommandPolling : Prop :=
  ∀ (x0 y0 x1 y1 x2 y2 c w h : Half) (rad : Byte) (sl dl : BitVec 2) (tr : Bool) (g : DeviceConfig) (s : State),
    s.P.wf = true → s.env = [] → s.seq.busy = false → s.seq.cfg = some g → s.dev.awake s.P = true → s.dev.allIdle = true →
    s.P.pollMax ≠ some 1 →
    ∀ e ∈ ([(.line x0 y0 x1 y1 c, .reg (s.P.addr .DCR) 0x80), (.rect x0 y0 x1 y1 c, .reg (s.P.addr .DCR) 0x80),
        (.frect x0 y0 x1 y1 c, .reg (s.P.addr .DCR) 0x80), (.tri x0 y0 x1 y1 x2 y2 c, .reg (s.P.addr .DCR) 0x80),
        (.ftri x0 y0 x1 y1 x2 y2 c, .reg (s.P.addr .DCR) 0x80), (.circ x0 y0 rad c, .reg (s.P.addr .DCR) 0x40),
        (.fcirc x0 y0 rad c, .reg (s.P.addr .DCR) 0x40), (.btecopy sl x0 y0 w h dl x1 y1 tr c, .status 0x40)]
        : List (Instr × PollKind)),
      (e.1 = .btecopy sl x0 y0 w h dl x1 y1 tr c → bteOperandsOk sl dl y0 y1 = true ∧ w ≠ 0 ∧ h ≠ 0) →
      ∃ t l b, exec e.1 s = .next t ∧ t.seq.busy = true ∧ t.seq.phase = .triggered ∧ t.seq.hold = true ∧ t.seq.pollcnt = 1
        ∧ b &&& e.2.mask ≠ 0 ∧ t.bus = s.bus ++ l ++ events .triggered (e.2.prims b ++ [.delay .tPoll])
        ∧ t.seq.step = l.length + (e.2.prims b).length + 1
        ∧ e.2.flag t.dev = .known true ∧ t.seq.ucode = pollingRest e.2 ∧ t.seq.result = s.seq.result
        ∧ t.seq.rdata = s.seq.rdata ∧ t.seq.cfg = s.seq.cfg ∧ ∃ r, t.dev.oplog = s.dev.oplog ++ [r]

/-- A poll read that finds the flag set counts it; the POLL_MAX-th one ends the command with DeviceTimeout, the bus released
and nothing done to the engine (a completion step may yet fall before that release, log 18); any other waits T_POLL and leaves
the command to read again. -/
def Obligations.BusyPollWaitsOrTimesOut : Prop :=
  ∀ (s : State), s.P.wf = true → s.calm = true → s.dev.awake s.P = true → s.seq.hold = true → s.seq.resetn = true →
    ∀ k ∈ enginePolls s.P, ∀ n, n = (pollFrames k).length → s.seq.ucode = pollingRest k →
    k.flag (s.dev.completeAll (s.env.take n)) = .known true →
    ∃ r, r &&& k.mask ≠ 0
      ∧ if s.P.pollMax = some (s.seq.pollcnt + 1) then
          step s = .next (s.after
            { s.seq with
              step := s.seq.step + n + 1, pollcnt := s.seq.pollcnt + 1, cur := k.curAfter s.P s.seq.cur, rx := r,
              rxPrev := s.seq.rx, hold := false, result := .deviceTimeout, phase := .idle, busy := false, ucode := [] }
            { s.dev.completeAll (s.env.take (n + 1)) with cur := k.curAfter s.P s.dev.cur } (n + 1) n
            (events s.seq.phase (k.prims r ++ [.release])))
        else
          step s = .next (s.after
            { s.seq with
              step := s.seq.step + n + 1, pollcnt := s.seq.pollcnt + 1, cur := k.curAfter s.P s.seq.cur, rx := r,
              rxPrev := s.seq.rx }
            { s.dev.completeAll (s.env.take (n + 1)) with cur := k.curAfter s.P s.dev.cur } (n + 1) n
            (events s.seq.phase (k.prims r ++ [.delay .tPoll])))

/-- A poll read that finds the flag clear ends the command OK: phase IDLE, the bus released, SEQ idle. -/
def Obligations.ClearPollFinishes : Prop :=
  ∀ (s : State), s.P.wf = true → s.calm = true → s.dev.awake s.P = true →
    ∀ k ∈ enginePolls s.P, ∀ n, n = (pollFrames k).length → s.seq.ucode = pollingRest k →
    k.flag (s.dev.completeAll (s.env.take n)) = .known false →
    ∃ r, r &&& k.mask = 0
      ∧ step s = .next (s.after
          { s.seq with
            step := s.seq.step + n + 1, cur := k.curAfter s.P s.seq.cur, rx := r, rxPrev := s.seq.rx, hold := false,
            result := .ok, phase := .idle, busy := false, ucode := [] }
          { s.dev.completeAll (s.env.take (n + 1)) with cur := k.curAfter s.P s.dev.cur } (n + 1) n
          (events s.seq.phase (k.prims r) ++ events .idle [.release]))

/-! ### Operand assembly -/

/-- The two bytes of a 16-bit value are `v & 0xFF` and `v >> 8`, and joining them gives it back; so does splitting a join. -/
def Obligations.PairSplitsAndJoins : Prop :=
  ∀ (v : Half) (l h : Byte),
    (lo v).toNat = v.toNat % 256 ∧ (hi v).toNat = v.toNat / 256 ∧ (join16 l h).toNat = h.toNat * 256 + l.toNat
      ∧ join16 (lo v) (hi v) = v ∧ lo (join16 l h) = l ∧ hi (join16 l h) = h

/-- A colour at depth 16 is decomposed into its 5, 6 and 5 bit fields, and they give it back. -/
def Obligations.Colour16Decomposes : Prop :=
  ∀ (P : Params) (c : Half),
    (colR P .d16 c).toNat = c.toNat / 2048 ∧ (colG P .d16 c).toNat = c.toNat / 32 % 64 ∧ (colB P .d16 c).toNat = c.toNat % 32
      ∧ colJoin P .d16 (colR P .d16 c) (colG P .d16 c) (colB P .d16 c) = c

/-- A colour at depth 8 is decomposed from its low byte alone into its 3, 3 and 2 bit fields, each shifted by the parameter,
and under the parameter's constraint no bit is lost: they give the byte back. -/
def Obligations.Colour8Decomposes : Prop :=
  ∀ (P : Params) (c : Half), P.wf = true →
    (colR P .d8 c).toNat = c.toNat % 256 / 32 * 2 ^ P.shiftR ∧ (colG P .d8 c).toNat = c.toNat / 4 % 8 * 2 ^ P.shiftG
      ∧ (colB P .d8 c).toNat = c.toNat % 4 * 2 ^ P.shiftB
      ∧ colJoin P .d8 (colR P .d8 c) (colG P .d8 c) (colB P .d8 c) = (c.extractLsb' 0 8).setWidth 16

/-- The layer bit is ORed into the high byte of a vertical coordinate: layer 2 sets bit 7, layer 1 changes nothing, and a
coordinate up to 0x7FFF has bit 7 clear for layer 1. -/
def Obligations.LayerBitIsOred : Prop :=
  ∀ (y : Half), hiL y 1 = hi y ∧ hiL y 2 = hi y ||| 0x80 ∧ (hiL y 2).getLsbD 7 = true
    ∧ (bteYOk y = true → (hiL y 1).getLsbD 7 = false ∧ hiL y 2 = hi y + 0x80)

/-! ### Failures and whole-machine rules -/

/-- A step in which the transport fails ends the command at that frame: no frame after it, nothing but the release and the
reset line raised; the shadow is `?`, the bus is free, SEQ is idle. BusTransportFailure is posted and SEQ.rdata unchanged, unless
SEQ is reset in a gap of the release (log 18, log 30): then both hold their reset values. -/
def Obligations.TransportFailureEndsCommand : Prop :=
  ∀ (s t : State) (l : List Event), step s = .next t → t.bus = s.bus ++ l → (∃ e ∈ l, ∃ op p, e.prim = .xferFailed op p) →
    t.seq.busy = false ∧ t.seq.hold = false ∧ t.seq.phase = .idle ∧ t.seq.resetn = true ∧ t.seq.cur = .unknown ∧ t.seq.ucode = []
      ∧ (t.seq.result = .busTransportFailure ∧ t.seq.rdata = s.seq.rdata
          ∨ (∃ k ∈ s.env, k.seqReset = true) ∧ t.seq.result = .ok ∧ t.seq.rdata = 0 ∧ t.seq.cfg = none)
      ∧ ∃ pre e post, l = pre ++ e :: post ∧ (∃ op p, e.prim = .xferFailed op p)
          ∧ (∀ x ∈ pre, ∀ op p, x.prim ≠ .xferFailed op p)
          ∧ ∀ x ∈ post, x.prim = .release ∨ x.prim = .resetLine true

/-- A command that ends, in the step that accepts it or in a later one, ends with one of the results its row of rule R264 allows
(no SEQ reset meanwhile). Until it ends SEQ.op holds the command, and what SEQ has in progress is of it (`fits`). -/
def Obligations.ResultTable : Prop :=
  (∀ (i : Instr) (s t : State), i.format = .seqcmd → s.seq.busy = false → (∀ k ∈ s.env, k.seqReset = false) →
      exec i s = .next t →
      (t.seq.busy = false → t.seq.result ∈ resultsOf s.P i)
        ∧ (t.seq.busy = true → t.fits = true ∧ ∀ x, x ∈ resultsOfOp s.P t.seq.op ↔ x ∈ resultsOf s.P i))
    ∧ ∀ (s t : State), s.seq.busy = true → s.fits = true → (∀ k ∈ s.env, k.seqReset = false) → step s = .next t →
      (t.seq.busy = false → t.seq.result ∈ resultsOfOp s.P s.seq.op)
        ∧ (t.seq.busy = true → t.fits = true ∧ t.seq.op = s.seq.op)

/-- No instruction but INIT changes SEQ.cfg, neither in the step that runs it or accepts it nor in a later step that goes on with
it (no SEQ reset meanwhile). -/
def Obligations.OnlyInitChangesConfiguration : Prop :=
  (∀ (i : Instr) (s t : State), s.seq.busy = false → (∀ k ∈ s.env, k.seqReset = false) → (∀ w h d, i ≠ .init w h d) →
      exec i s = .next t → t.seq.cfg = s.seq.cfg ∧ ¬(t.seq.busy = true ∧ t.seq.op.code = 0x10))
    ∧ ∀ (s t : State), s.fits = true → (s.seq.ucode ≠ [] ∨ s.seq.busy = true ∨ s.port = []) →
      ¬(s.seq.busy = true ∧ s.seq.op.code = 0x10) → (∀ k ∈ s.env, k.seqReset = false) → step s = .next t →
      t.seq.cfg = s.seq.cfg

/-- No step changes the parameters, and none takes an operation out of the log or changes its engine or code; what was performed
on the bus stays (log 9). -/
def Obligations.LogsOnlyGrow : Prop :=
  ∀ (s t : State), step s = .next t → t.P = s.P ∧ s.dev.logHeads <+: t.dev.logHeads ∧ s.bus <+: t.bus

/-- The machine right after reset: SEQ as rule R52 says, DEV with every pointer, cell and flag `?` and an empty log. -/
def Obligations.ResetState : Prop :=
  let q := State.reset.seq
  let d := State.reset.dev
  q.busy = false ∧ q.phase = .idle ∧ q.step = 0 ∧ q.cur = .unknown ∧ q.cfg = none ∧ q.hold = false ∧ q.pollcnt = 0
    ∧ q.result = .ok ∧ q.rdata = 0 ∧ q.pllDone = false ∧ q.resetn = true
    ∧ d.cur = .unknown ∧ (∀ x, d.cell x = .unknown) ∧ d.flags = (.unknown, .unknown, .unknown) ∧ d.oplog = []

/-- The reset state is safe (its parameters: log 10). -/
def Obligations.ResetIsSafe : Prop := State.reset.safe

/-- Every step from a safe state leaves a safe state: the parameters keep rule R6, the register space keeps its canonical form,
what SEQ has in progress sends its frames with the bus held, still ends with the bus released, the line high and SEQ idle, and is
of the command in SEQ.op, and a known shadow is where the pointer is (but for the bytes of U2, U3 and U11, which leave SEQ
unaffected, log 19). -/
def Obligations.StepKeepsSafe : Prop :=
  ∀ (s t : State), s.safe → step s = .next t → t.safe

/-- A data write, with no reset and no start, to a register that a running engine has latched (or, for a drawing engine, to DCR
itself) makes the registers of that engine's newest record `?`, and every other record keeps what it holds (U4; log 14, log 15;
that such a byte does nothing else is log 34). A DCR byte with bits 3:1 set is of U2 (U7, DcrWriteTriggers). -/
def Obligations.TaintedRecordLosesRegisters : Prop :=
  ∀ (b a : Byte) (s : State), s.P.wf = true → s.calm = true → a = s.dev.cur.getD (anyAddr s.draws) →
    s.dev.inReset s.P s.draws = false →
    (plainReg s.P a = true ∨ a = s.P.addr .BTE_CTRL0 ∧ b.getLsbD 7 = false
      ∨ a = s.P.addr .DCR ∧ b.getLsbD 7 = false ∧ b.getLsbD 6 = false ∧ b &&& 0x0E = 0) →
    ∃ t, exec (.datw b) s = .next t ∧ t.dev.oplog.length = s.dev.oplog.length
      ∧ ∀ (pre post : List OpRecord) (r : OpRecord), s.dev.oplog = pre ++ r :: post →
        t.dev.oplog[pre.length]?
          = some (if (s.devAtFrame 0).flagOf r.engine = .known true ∧ (∀ x ∈ post, x.engine ≠ r.engine)
                ∧ ((∃ m ∈ r.engine.latched, s.P.addr m = a) ∨ a = s.P.addr .DCR ∧ r.engine ≠ .bte)
              then { r with regs := .unknown } else r)

end Statements
end

