-- ==== Sys2Proof/Laws/Programs.lean ====
section
/-! SUPPORT. The command programs in one normal form: a list of register writes (`wrTable`) between the micro-operations that
are none, so that `run_wrTable_calm` runs the staging of a command at once. -/

namespace Sys2Proof.Machine

theorem wrTable_append (a b : List (Byte × Byte)) : wrTable (a ++ b) = wrTable a ++ wrTable b := by
  simp [wrTable, List.flatMap_append]

theorem draw2_eq (P : Params) (d : Depth) (o : Op) (t : Byte) :
    draw2 P d o t
      = [.hold] ++ wrTable (atAddr P (twoPointWrites P d o.x0 o.y0 o.x1 o.y1 o.c))
        ++ ([.phase .paramsStaged] ++ wrTable [(P.addr .DCR, t)] ++ [.phase .triggered, .pollStart]
          ++ pollingRest (.reg (P.addr .DCR) 0x80)) := rfl

theorem draw3_eq (P : Params) (d : Depth) (o : Op) (t : Byte) :
    draw3 P d o t
      = [.hold] ++ wrTable (atAddr P (threePointWrites P d o.x0 o.y0 o.x1 o.y1 o.x2 o.y2 o.c))
        ++ ([.phase .paramsStaged] ++ wrTable [(P.addr .DCR, t)] ++ [.phase .triggered, .pollStart]
          ++ pollingRest (.reg (P.addr .DCR) 0x80)) := rfl

theorem drawC_eq (P : Params) (d : Depth) (o : Op) (t : Byte) :
    drawC P d o t
      = [.hold] ++ wrTable (atAddr P (circleWrites P d o.cx o.cy o.r o.c))
        ++ ([.phase .paramsStaged] ++ wrTable [(P.addr .DCR, t)] ++ [.phase .triggered, .pollStart]
          ++ pollingRest (.reg (P.addr .DCR) 0x40)) := rfl

theorem bteCopy_eq (P : Params) (d : Depth) (o : Op) :
    bteCopy P d o
      = [.hold] ++ wrTable (atAddr P (copyWrites P d o.sl o.sx o.sy o.w o.h o.dl o.dx o.dy o.transparent o.key))
        ++ ([.phase .paramsStaged]
          ++ wrTable [(P.addr .BTE_CTRL1, bteOperation o.transparent), (P.addr .BTE_CTRL0, 0x80)]
          ++ [.phase .triggered, .pollStart] ++ pollingRest (.status 0x40)) := by
  unfold bteCopy copyWrites
  cases o.transparent <;> rfl

theorem initProgram_eq (P : Params) (o : Op) (p : Panel) :
    initProgram P o p
      = [.hold, .phase .reset, .pllDone false] ++ resetSteps P
        ++ ([.phase .pll] ++ wrTable [(P.addr .PLL1, p.pll1)] ++ [.delay .tPll] ++ wrTable [(P.addr .PLL2, p.pll2)]
          ++ [.delay .tPll, .pllDone true, .phase .timing] ++ wrTable p.timing
          ++ [.phase .window] ++ wrTable (p.layer ++ atAddr P (windowWrites o.width o.height) ++ P.font)
          ++ [.phase .powerOn] ++ wrTable [(P.addr .PWR, 0x80)] ++ [.release, .setCfg p.depth, .finish .none]) := by
  rw [wrTable_append, wrTable_append]
  simp only [initProgram, List.append_assoc]
  rfl

end Sys2Proof.Machine
end

