-- ==== Sys2Proof/Laws/Memory.lean ====
section
/-! SUPPORT. The register space: a read after a write, what a write leaves alone, and that every operation keeps the
canonical form. -/

namespace Sys2Proof.Machine

theorem mem_read_write (m : List Host.Cell) (a : Nat) (b : Byte) (x : Nat) :
    Memory.read (Memory.write m a b) x = if x = a then .known b else Memory.read m x := by
  induction m with
  | nil => simp [Memory.write, Memory.read, eq_comm]
  | cons c m ih =>
    obtain ⟨k, v⟩ := c
    simp only [Memory.write]
    split
    · simp [Memory.read, eq_comm]
    · split
      · subst_vars; simp only [Memory.read, eq_comm]; split <;> rfl
      · simp only [Memory.read, ih]; split <;> split <;> simp_all

theorem mem_read_lose (m : List Host.Cell) (a x : Nat) :
    Memory.read (Memory.lose m a) x = if x = a then .unknown else Memory.read m x := by
  induction m with
  | nil => simp [Memory.lose, Memory.read]
  | cons c m ih =>
    obtain ⟨k, v⟩ := c
    simp only [Memory.lose]
    split
    · subst_vars; rw [ih]; simp only [Memory.read]; split <;> simp_all [eq_comm]
    · simp only [Memory.read, ih]; split <;> split <;> simp_all

theorem mem_write_keys (m : List Host.Cell) (a : Nat) (b : Byte) :
    ∀ c ∈ Memory.write m a b, c.1 = a ∨ ∃ c' ∈ m, c'.1 = c.1 := by
  induction m with
  | nil => simp [Memory.write]
  | cons c m ih =>
    obtain ⟨k, v⟩ := c
    intro d hd
    simp only [Memory.write] at hd
    split at hd
    · rcases List.mem_cons.mp hd with rfl | h
      · exact .inl rfl
      · exact .inr ⟨d, h, rfl⟩
    · split at hd
      · rcases List.mem_cons.mp hd with rfl | h
        · exact .inl rfl
        · exact .inr ⟨d, List.mem_cons_of_mem _ h, rfl⟩
      · rcases List.mem_cons.mp hd with rfl | h
        · exact .inr ⟨_, List.mem_cons_self, rfl⟩
        · rcases ih d h with h1 | ⟨c', h1, h2⟩
          · exact .inl h1
          · exact .inr ⟨c', List.mem_cons_of_mem _ h1, h2⟩

theorem mem_write_wf {m : List Host.Cell} (h : Memory.wf m) {a : Nat} (ha : a < 256) (b : Byte) :
    Memory.wf (Memory.write m a b) := by
  refine ⟨?_, fun c hc => ?_⟩
  · obtain ⟨h, -⟩ := h
    induction m with
    | nil => simp [Memory.write]
    | cons c m ih =>
      obtain ⟨k, v⟩ := c
      simp only [List.map_cons, List.pairwise_cons] at h
      simp only [Memory.write]
      split
      · rename_i hak
        simp only [List.map_cons, List.pairwise_cons]
        refine ⟨fun x hx => ?_, h⟩
        rcases List.mem_cons.mp hx with rfl | hx
        · exact hak
        · exact lt_trans hak (h.1 x hx)
      · split
        · subst_vars; simpa using h
        · simp only [List.map_cons, List.pairwise_cons]
          refine ⟨fun x hx => ?_, ih h.2⟩
          obtain ⟨c, hc, rfl⟩ := List.mem_map.mp hx
          rcases mem_write_keys m a b c hc with e | ⟨c', hc', e⟩
          · omega
          · exact e ▸ h.1 _ (List.mem_map_of_mem hc')
  · rcases mem_write_keys m a b c hc with e | ⟨c', hc', e⟩
    · omega
    · exact e ▸ h.2 c' hc'

theorem mem_lose_sublist (m : List Host.Cell) (a : Nat) : (Memory.lose m a).Sublist m := by
  induction m with
  | nil => exact List.Sublist.slnil
  | cons c m ih =>
    obtain ⟨k, v⟩ := c
    simp only [Memory.lose]
    split
    · exact ih.cons _
    · exact ih.cons_cons _

theorem mem_lose_wf {m : List Host.Cell} (h : Memory.wf m) (a : Nat) : Memory.wf (Memory.lose m a) :=
  ⟨h.1.sublist ((mem_lose_sublist m a).map _), fun c hc => h.2 c ((mem_lose_sublist m a).subset hc)⟩

theorem mem_nil_wf : Memory.wf [] := by simp [Memory.wf]

theorem mem_single_wf (a b : Byte) : Memory.wf [(a.toNat, b)] := by
  have := a.isLt
  simpa [Memory.wf] using this

/-! ### Cells of a device -/

@[simp] theorem cell_setCell (d : Dev) (a b x : Byte) :
    (d.setCell a b).cell x = if x = a then .known b else d.cell x := by
  simp [Dev.cell, Dev.setCell, mem_read_write, BitVec.toNat_inj]

@[simp] theorem cell_loseCell (d : Dev) (a x : Byte) :
    (d.loseCell a).cell x = if x = a then .unknown else d.cell x := by
  simp [Dev.cell, Dev.loseCell, mem_read_lose, BitVec.toNat_inj]

/-- A cell depends on the list of cells alone. -/
theorem cell_congr {d e : Dev} (h : d.mem = e.mem) (x : Byte) : d.cell x = e.cell x := by
  simp [Dev.cell, h]

/-- So does a snapshot. -/
theorem snapshot_congr {d e : Dev} (h : d.mem = e.mem) (P : Params) (g : List RegName) :
    d.snapshot P g = e.snapshot P g := by
  simp [Dev.snapshot, Dev.cell, h]

/-- A memory with nothing listed: every cell is `?`. -/
theorem cell_of_mem_nil {d : Dev} (h : d.mem = []) (x : Byte) : d.cell x = .unknown := by
  simp [Dev.cell, h, Memory.read]

/-- A memory with one cell listed. -/
theorem cell_of_mem_single {d : Dev} {a b : Byte} (h : d.mem = [(a.toNat, b)]) (x : Byte) :
    d.cell x = if x = a then .known b else .unknown := by
  simp only [Dev.cell, h, Memory.read, BitVec.toNat_inj, eq_comm]

end Sys2Proof.Machine
end

