-- ==== Sys2Proof/Laws/Operands.lean ====
section
/-! SUPPORT. Operand assembly: bit by bit, and the pointer advance. -/

namespace Sys2Proof.Machine

theorem getLsbD_lo (v : Half) (i : Nat) : (lo v).getLsbD i = (decide (i < 8) && v.getLsbD i) := by simp [lo]
theorem getLsbD_hi (v : Half) (i : Nat) : (hi v).getLsbD i = (decide (i < 8) && v.getLsbD (8 + i)) := by simp [hi]

theorem getLsbD_join16 (l h : Byte) (i : Nat) :
    (join16 l h).getLsbD i = if i < 8 then l.getLsbD i else h.getLsbD (i - 8) := by
  simp only [join16, BitVec.getLsbD_append]

theorem toNat_lo (v : Half) : (lo v).toNat = v.toNat % 256 := by simp [lo]

theorem toNat_hi (v : Half) : (hi v).toNat = v.toNat / 256 := by
  simp [hi, Nat.shiftRight_eq_div_pow]; omega

theorem toNat_join16 (l h : Byte) : (join16 l h).toNat = h.toNat * 256 + l.toNat := by
  rw [join16, BitVec.toNat_append, ← Nat.shiftLeft_add_eq_or_of_lt (by omega), Nat.shiftLeft_eq]

theorem join16_lo_hi (v : Half) : join16 (lo v) (hi v) = v := by
  apply BitVec.eq_of_toNat_eq; rw [toNat_join16, toNat_lo, toNat_hi]; omega

theorem lo_join16 (l h : Byte) : lo (join16 l h) = l := by
  apply BitVec.eq_of_toNat_eq; rw [toNat_lo, toNat_join16]; omega

theorem hi_join16 (l h : Byte) : hi (join16 l h) = h := by
  apply BitVec.eq_of_toNat_eq; rw [toNat_hi, toNat_join16]; omega

@[simp] theorem adv_unknown (P : Params) : adv P .unknown = .unknown := rfl
@[simp] theorem adv_known (P : Params) (p : Byte) : adv P (.known p) = .known (advByte P p) := rfl

end Sys2Proof.Machine
end

