-- ==== Sys2Proof/Laws/State.lean ====
section
/-! SUPPORT. One lemma per field per named update of the state, each true by rfl, so that no later proof unfolds a record
update. -/

namespace Sys2Proof.Machine

variable (s : State) (d : Dev)

/-! ### gap -/
@[simp] theorem gap_P : s.gap.P = s.P := rfl
@[simp] theorem gap_port : s.gap.port = s.port := rfl
@[simp] theorem gap_env : s.gap.env = s.env.tail := rfl
@[simp] theorem gap_draws : s.gap.draws = s.draws := rfl
@[simp] theorem gap_bus : s.gap.bus = s.bus := rfl
@[simp] theorem gap_dev : s.gap.dev = s.dev.complete s.now := rfl
@[simp] theorem gap_seq_busy : s.gap.seq.busy = s.seq.busy := rfl
@[simp] theorem gap_seq_phase : s.gap.seq.phase = s.seq.phase := rfl
@[simp] theorem gap_seq_step : s.gap.seq.step = s.seq.step := rfl
@[simp] theorem gap_seq_cur : s.gap.seq.cur = s.seq.cur := rfl
@[simp] theorem gap_seq_cfg : s.gap.seq.cfg = s.seq.cfg := rfl
@[simp] theorem gap_seq_hold : s.gap.seq.hold = s.seq.hold := rfl
@[simp] theorem gap_seq_op : s.gap.seq.op = s.seq.op := rfl
@[simp] theorem gap_seq_pollcnt : s.gap.seq.pollcnt = s.seq.pollcnt := rfl
@[simp] theorem gap_seq_result : s.gap.seq.result = s.seq.result := rfl
@[simp] theorem gap_seq_rdata : s.gap.seq.rdata = s.seq.rdata := rfl
@[simp] theorem gap_seq_pllDone : s.gap.seq.pllDone = s.seq.pllDone := rfl
@[simp] theorem gap_seq_resetn : s.gap.seq.resetn = s.seq.resetn := rfl
@[simp] theorem gap_seq_ucode : s.gap.seq.ucode = s.seq.ucode := rfl
@[simp] theorem gap_seq_rx : s.gap.seq.rx = s.seq.rx := rfl
@[simp] theorem gap_seq_rxPrev : s.gap.seq.rxPrev = s.seq.rxPrev := rfl

/-! ### resetSeq -/
@[simp] theorem resetSeq_P : s.resetSeq.P = s.P := rfl
@[simp] theorem resetSeq_port : s.resetSeq.port = s.port := rfl
@[simp] theorem resetSeq_env : s.resetSeq.env = s.env := rfl
@[simp] theorem resetSeq_draws : s.resetSeq.draws = s.draws := rfl
@[simp] theorem resetSeq_bus : s.resetSeq.bus = s.bus := rfl
@[simp] theorem resetSeq_dev : s.resetSeq.dev = s.dev := rfl
@[simp] theorem resetSeq_seq_busy : s.resetSeq.seq.busy = false := rfl
@[simp] theorem resetSeq_seq_phase : s.resetSeq.seq.phase = .idle := rfl
@[simp] theorem resetSeq_seq_step : s.resetSeq.seq.step = 0 := rfl
@[simp] theorem resetSeq_seq_cur : s.resetSeq.seq.cur = .unknown := rfl
@[simp] theorem resetSeq_seq_cfg : s.resetSeq.seq.cfg = none := rfl
@[simp] theorem resetSeq_seq_hold : s.resetSeq.seq.hold = false := rfl
@[simp] theorem resetSeq_seq_op : s.resetSeq.seq.op = s.seq.op := rfl
@[simp] theorem resetSeq_seq_pollcnt : s.resetSeq.seq.pollcnt = 0 := rfl
@[simp] theorem resetSeq_seq_result : s.resetSeq.seq.result = .ok := rfl
@[simp] theorem resetSeq_seq_rdata : s.resetSeq.seq.rdata = 0 := rfl
@[simp] theorem resetSeq_seq_pllDone : s.resetSeq.seq.pllDone = false := rfl
@[simp] theorem resetSeq_seq_resetn : s.resetSeq.seq.resetn = true := rfl
@[simp] theorem resetSeq_seq_ucode : s.resetSeq.seq.ucode = [] := rfl
@[simp] theorem resetSeq_seq_rx : s.resetSeq.seq.rx = 0 := rfl
@[simp] theorem resetSeq_seq_rxPrev : s.resetSeq.seq.rxPrev = 0 := rfl

/-! ### perform -/
@[simp] theorem perform_P (p : Prim) : (s.perform p).P = s.P := rfl
@[simp] theorem perform_port (p : Prim) : (s.perform p).port = s.port := rfl
@[simp] theorem perform_env (p : Prim) : (s.perform p).env = s.env := rfl
@[simp] theorem perform_draws (p : Prim) : (s.perform p).draws = s.draws := rfl
@[simp] theorem perform_bus (p : Prim) : (s.perform p).bus = s.bus ++ [{ phase := s.seq.phase, prim := p }] := rfl
@[simp] theorem perform_dev (p : Prim) : (s.perform p).dev = s.dev := rfl
@[simp] theorem perform_seq_busy (p : Prim) : (s.perform p).seq.busy = s.seq.busy := rfl
@[simp] theorem perform_seq_phase (p : Prim) : (s.perform p).seq.phase = s.seq.phase := rfl
@[simp] theorem perform_seq_step (p : Prim) : (s.perform p).seq.step = s.seq.step + 1 := rfl
@[simp] theorem perform_seq_cur (p : Prim) : (s.perform p).seq.cur = s.seq.cur := rfl
@[simp] theorem perform_seq_cfg (p : Prim) : (s.perform p).seq.cfg = s.seq.cfg := rfl
@[simp] theorem perform_seq_hold (p : Prim) : (s.perform p).seq.hold = s.seq.hold := rfl
@[simp] theorem perform_seq_op (p : Prim) : (s.perform p).seq.op = s.seq.op := rfl
@[simp] theorem perform_seq_pollcnt (p : Prim) : (s.perform p).seq.pollcnt = s.seq.pollcnt := rfl
@[simp] theorem perform_seq_result (p : Prim) : (s.perform p).seq.result = s.seq.result := rfl
@[simp] theorem perform_seq_rdata (p : Prim) : (s.perform p).seq.rdata = s.seq.rdata := rfl
@[simp] theorem perform_seq_pllDone (p : Prim) : (s.perform p).seq.pllDone = s.seq.pllDone := rfl
@[simp] theorem perform_seq_resetn (p : Prim) : (s.perform p).seq.resetn = s.seq.resetn := rfl
@[simp] theorem perform_seq_ucode (p : Prim) : (s.perform p).seq.ucode = s.seq.ucode := rfl
@[simp] theorem perform_seq_rx (p : Prim) : (s.perform p).seq.rx = s.seq.rx := rfl
@[simp] theorem perform_seq_rxPrev (p : Prim) : (s.perform p).seq.rxPrev = s.seq.rxPrev := rfl

/-! ### release -/
@[simp] theorem release_P : s.release.P = s.P := rfl
@[simp] theorem release_port : s.release.port = s.port := rfl
@[simp] theorem release_env : s.release.env = s.env := rfl
@[simp] theorem release_draws : s.release.draws = s.draws := rfl
@[simp] theorem release_bus : s.release.bus = s.bus ++ [{ phase := s.seq.phase, prim := .release }] := rfl
@[simp] theorem release_dev : s.release.dev = s.dev := rfl
@[simp] theorem release_seq_busy : s.release.seq.busy = s.seq.busy := rfl
@[simp] theorem release_seq_phase : s.release.seq.phase = s.seq.phase := rfl
@[simp] theorem release_seq_step : s.release.seq.step = s.seq.step + 1 := rfl
@[simp] theorem release_seq_cur : s.release.seq.cur = s.seq.cur := rfl
@[simp] theorem release_seq_cfg : s.release.seq.cfg = s.seq.cfg := rfl
@[simp] theorem release_seq_hold : s.release.seq.hold = false := rfl
@[simp] theorem release_seq_op : s.release.seq.op = s.seq.op := rfl
@[simp] theorem release_seq_pollcnt : s.release.seq.pollcnt = s.seq.pollcnt := rfl
@[simp] theorem release_seq_result : s.release.seq.result = s.seq.result := rfl
@[simp] theorem release_seq_rdata : s.release.seq.rdata = s.seq.rdata := rfl
@[simp] theorem release_seq_pllDone : s.release.seq.pllDone = s.seq.pllDone := rfl
@[simp] theorem release_seq_resetn : s.release.seq.resetn = s.seq.resetn := rfl
@[simp] theorem release_seq_ucode : s.release.seq.ucode = s.seq.ucode := rfl
@[simp] theorem release_seq_rx : s.release.seq.rx = s.seq.rx := rfl
@[simp] theorem release_seq_rxPrev : s.release.seq.rxPrev = s.seq.rxPrev := rfl

/-! ### driveReset -/
@[simp] theorem driveReset_P (l : Bool) : (s.driveReset l).P = s.P := rfl
@[simp] theorem driveReset_port (l : Bool) : (s.driveReset l).port = s.port := rfl
@[simp] theorem driveReset_env (l : Bool) : (s.driveReset l).env = s.env := rfl
@[simp] theorem driveReset_draws (l : Bool) : (s.driveReset l).draws = s.draws := rfl
@[simp] theorem driveReset_bus (l : Bool) : (s.driveReset l).bus = s.bus ++ [{ phase := s.seq.phase, prim := .resetLine l }] := rfl
@[simp] theorem driveReset_dev (l : Bool) : (s.driveReset l).dev = if l then s.dev else s.dev.hardReset := rfl
@[simp] theorem driveReset_seq_busy (l : Bool) : (s.driveReset l).seq.busy = s.seq.busy := rfl
@[simp] theorem driveReset_seq_phase (l : Bool) : (s.driveReset l).seq.phase = s.seq.phase := rfl
@[simp] theorem driveReset_seq_step (l : Bool) : (s.driveReset l).seq.step = s.seq.step + 1 := rfl
@[simp] theorem driveReset_seq_cur (l : Bool) : (s.driveReset l).seq.cur = if l then s.seq.cur else .unknown := rfl
@[simp] theorem driveReset_seq_cfg (l : Bool) : (s.driveReset l).seq.cfg = s.seq.cfg := rfl
@[simp] theorem driveReset_seq_hold (l : Bool) : (s.driveReset l).seq.hold = s.seq.hold := rfl
@[simp] theorem driveReset_seq_op (l : Bool) : (s.driveReset l).seq.op = s.seq.op := rfl
@[simp] theorem driveReset_seq_pollcnt (l : Bool) : (s.driveReset l).seq.pollcnt = s.seq.pollcnt := rfl
@[simp] theorem driveReset_seq_result (l : Bool) : (s.driveReset l).seq.result = s.seq.result := rfl
@[simp] theorem driveReset_seq_rdata (l : Bool) : (s.driveReset l).seq.rdata = s.seq.rdata := rfl
@[simp] theorem driveReset_seq_pllDone (l : Bool) : (s.driveReset l).seq.pllDone = s.seq.pllDone := rfl
@[simp] theorem driveReset_seq_resetn (l : Bool) : (s.driveReset l).seq.resetn = l := rfl
@[simp] theorem driveReset_seq_ucode (l : Bool) : (s.driveReset l).seq.ucode = s.seq.ucode := rfl
@[simp] theorem driveReset_seq_rx (l : Bool) : (s.driveReset l).seq.rx = s.seq.rx := rfl
@[simp] theorem driveReset_seq_rxPrev (l : Bool) : (s.driveReset l).seq.rxPrev = s.seq.rxPrev := rfl

/-! ### post -/
@[simp] theorem post_P (x : Result) : (s.post x).P = s.P := rfl
@[simp] theorem post_port (x : Result) : (s.post x).port = s.port := rfl
@[simp] theorem post_env (x : Result) : (s.post x).env = s.env := rfl
@[simp] theorem post_draws (x : Result) : (s.post x).draws = s.draws := rfl
@[simp] theorem post_bus (x : Result) : (s.post x).bus = s.bus := rfl
@[simp] theorem post_dev (x : Result) : (s.post x).dev = s.dev := rfl
@[simp] theorem post_seq_busy (x : Result) : (s.post x).seq.busy = false := rfl
@[simp] theorem post_seq_phase (x : Result) : (s.post x).seq.phase = .idle := rfl
@[simp] theorem post_seq_step (x : Result) : (s.post x).seq.step = s.seq.step := rfl
@[simp] theorem post_seq_cur (x : Result) : (s.post x).seq.cur = s.seq.cur := rfl
@[simp] theorem post_seq_cfg (x : Result) : (s.post x).seq.cfg = s.seq.cfgAfterAbort x := rfl
@[simp] theorem post_seq_hold (x : Result) : (s.post x).seq.hold = s.seq.hold := rfl
@[simp] theorem post_seq_op (x : Result) : (s.post x).seq.op = s.seq.op := rfl
@[simp] theorem post_seq_pollcnt (x : Result) : (s.post x).seq.pollcnt = s.seq.pollcnt := rfl
@[simp] theorem post_seq_result (x : Result) : (s.post x).seq.result = x := rfl
@[simp] theorem post_seq_rdata (x : Result) : (s.post x).seq.rdata = s.seq.rdata := rfl
@[simp] theorem post_seq_pllDone (x : Result) : (s.post x).seq.pllDone = s.seq.pllDone := rfl
@[simp] theorem post_seq_resetn (x : Result) : (s.post x).seq.resetn = s.seq.resetn := rfl
@[simp] theorem post_seq_ucode (x : Result) : (s.post x).seq.ucode = [] := rfl
@[simp] theorem post_seq_rx (x : Result) : (s.post x).seq.rx = s.seq.rx := rfl
@[simp] theorem post_seq_rxPrev (x : Result) : (s.post x).seq.rxPrev = s.seq.rxPrev := rfl

/-! ### finish -/
@[simp] theorem finish_P (x : Result) (r : Ret) : (s.finish x r).P = s.P := rfl
@[simp] theorem finish_port (x : Result) (r : Ret) : (s.finish x r).port = s.port := rfl
@[simp] theorem finish_env (x : Result) (r : Ret) : (s.finish x r).env = s.env := rfl
@[simp] theorem finish_draws (x : Result) (r : Ret) : (s.finish x r).draws = s.draws := rfl
@[simp] theorem finish_bus (x : Result) (r : Ret) : (s.finish x r).bus = s.bus := rfl
@[simp] theorem finish_dev (x : Result) (r : Ret) : (s.finish x r).dev = s.dev := rfl
@[simp] theorem finish_seq_busy (x : Result) (r : Ret) : (s.finish x r).seq.busy = false := rfl
@[simp] theorem finish_seq_phase (x : Result) (r : Ret) : (s.finish x r).seq.phase = .idle := rfl
@[simp] theorem finish_seq_step (x : Result) (r : Ret) : (s.finish x r).seq.step = s.seq.step := rfl
@[simp] theorem finish_seq_cur (x : Result) (r : Ret) : (s.finish x r).seq.cur = s.seq.cur := rfl
@[simp] theorem finish_seq_cfg (x : Result) (r : Ret) : (s.finish x r).seq.cfg = s.seq.cfg := rfl
@[simp] theorem finish_seq_hold (x : Result) (r : Ret) : (s.finish x r).seq.hold = s.seq.hold := rfl
@[simp] theorem finish_seq_op (x : Result) (r : Ret) : (s.finish x r).seq.op = s.seq.op := rfl
@[simp] theorem finish_seq_pollcnt (x : Result) (r : Ret) : (s.finish x r).seq.pollcnt = s.seq.pollcnt := rfl
@[simp] theorem finish_seq_result (x : Result) (r : Ret) : (s.finish x r).seq.result = x := rfl
@[simp] theorem finish_seq_rdata (x : Result) (r : Ret) : (s.finish x r).seq.rdata = s.seq.returned r := rfl
@[simp] theorem finish_seq_pllDone (x : Result) (r : Ret) : (s.finish x r).seq.pllDone = s.seq.pllDone := rfl
@[simp] theorem finish_seq_resetn (x : Result) (r : Ret) : (s.finish x r).seq.resetn = s.seq.resetn := rfl
@[simp] theorem finish_seq_ucode (x : Result) (r : Ret) : (s.finish x r).seq.ucode = [] := rfl
@[simp] theorem finish_seq_rx (x : Result) (r : Ret) : (s.finish x r).seq.rx = s.seq.rx := rfl
@[simp] theorem finish_seq_rxPrev (x : Result) (r : Ret) : (s.finish x r).seq.rxPrev = s.seq.rxPrev := rfl

/-! ### accept -/
@[simp] theorem accept_P (o : Op) : (s.accept o).P = s.P := rfl
@[simp] theorem accept_port (o : Op) : (s.accept o).port = s.port := rfl
@[simp] theorem accept_env (o : Op) : (s.accept o).env = s.env := rfl
@[simp] theorem accept_draws (o : Op) : (s.accept o).draws = s.draws := rfl
@[simp] theorem accept_bus (o : Op) : (s.accept o).bus = s.bus := rfl
@[simp] theorem accept_dev (o : Op) : (s.accept o).dev = s.dev := rfl
@[simp] theorem accept_seq_busy (o : Op) : (s.accept o).seq.busy = true := rfl
@[simp] theorem accept_seq_phase (o : Op) : (s.accept o).seq.phase = s.seq.phase := rfl
@[simp] theorem accept_seq_step (o : Op) : (s.accept o).seq.step = 0 := rfl
@[simp] theorem accept_seq_cur (o : Op) : (s.accept o).seq.cur = s.seq.cur := rfl
@[simp] theorem accept_seq_cfg (o : Op) : (s.accept o).seq.cfg = s.seq.cfg := rfl
@[simp] theorem accept_seq_hold (o : Op) : (s.accept o).seq.hold = s.seq.hold := rfl
@[simp] theorem accept_seq_op (o : Op) : (s.accept o).seq.op = o := rfl
@[simp] theorem accept_seq_pollcnt (o : Op) : (s.accept o).seq.pollcnt = 0 := rfl
@[simp] theorem accept_seq_result (o : Op) : (s.accept o).seq.result = s.seq.result := rfl
@[simp] theorem accept_seq_rdata (o : Op) : (s.accept o).seq.rdata = s.seq.rdata := rfl
@[simp] theorem accept_seq_pllDone (o : Op) : (s.accept o).seq.pllDone = s.seq.pllDone := rfl
@[simp] theorem accept_seq_resetn (o : Op) : (s.accept o).seq.resetn = s.seq.resetn := rfl
@[simp] theorem accept_seq_ucode (o : Op) : (s.accept o).seq.ucode = s.seq.ucode := rfl
@[simp] theorem accept_seq_rx (o : Op) : (s.accept o).seq.rx = s.seq.rx := rfl
@[simp] theorem accept_seq_rxPrev (o : Op) : (s.accept o).seq.rxPrev = s.seq.rxPrev := rfl

/-! ### keep -/
@[simp] theorem keep_P (k : List Micro) : (s.keep k).P = s.P := rfl
@[simp] theorem keep_port (k : List Micro) : (s.keep k).port = s.port := rfl
@[simp] theorem keep_env (k : List Micro) : (s.keep k).env = s.env := rfl
@[simp] theorem keep_draws (k : List Micro) : (s.keep k).draws = s.draws := rfl
@[simp] theorem keep_bus (k : List Micro) : (s.keep k).bus = s.bus := rfl
@[simp] theorem keep_dev (k : List Micro) : (s.keep k).dev = s.dev := rfl
@[simp] theorem keep_seq_busy (k : List Micro) : (s.keep k).seq.busy = s.seq.busy := rfl
@[simp] theorem keep_seq_phase (k : List Micro) : (s.keep k).seq.phase = s.seq.phase := rfl
@[simp] theorem keep_seq_step (k : List Micro) : (s.keep k).seq.step = s.seq.step := rfl
@[simp] theorem keep_seq_cur (k : List Micro) : (s.keep k).seq.cur = s.seq.cur := rfl
@[simp] theorem keep_seq_cfg (k : List Micro) : (s.keep k).seq.cfg = s.seq.cfg := rfl
@[simp] theorem keep_seq_hold (k : List Micro) : (s.keep k).seq.hold = s.seq.hold := rfl
@[simp] theorem keep_seq_op (k : List Micro) : (s.keep k).seq.op = s.seq.op := rfl
@[simp] theorem keep_seq_pollcnt (k : List Micro) : (s.keep k).seq.pollcnt = s.seq.pollcnt := rfl
@[simp] theorem keep_seq_result (k : List Micro) : (s.keep k).seq.result = s.seq.result := rfl
@[simp] theorem keep_seq_rdata (k : List Micro) : (s.keep k).seq.rdata = s.seq.rdata := rfl
@[simp] theorem keep_seq_pllDone (k : List Micro) : (s.keep k).seq.pllDone = s.seq.pllDone := rfl
@[simp] theorem keep_seq_resetn (k : List Micro) : (s.keep k).seq.resetn = s.seq.resetn := rfl
@[simp] theorem keep_seq_ucode (k : List Micro) : (s.keep k).seq.ucode = k := rfl
@[simp] theorem keep_seq_rx (k : List Micro) : (s.keep k).seq.rx = s.seq.rx := rfl
@[simp] theorem keep_seq_rxPrev (k : List Micro) : (s.keep k).seq.rxPrev = s.seq.rxPrev := rfl

/-! ### sent -/
@[simp] theorem sent_P (op : FrameOp) (p : Byte) : (s.sent op p).P = s.P := rfl
@[simp] theorem sent_port (op : FrameOp) (p : Byte) : (s.sent op p).port = s.port := rfl
@[simp] theorem sent_env (op : FrameOp) (p : Byte) : (s.sent op p).env = s.env := rfl
@[simp] theorem sent_draws (op : FrameOp) (p : Byte) : (s.sent op p).draws = s.draws + 1 := rfl
@[simp] theorem sent_bus (op : FrameOp) (p : Byte) : (s.sent op p).bus = s.bus ++ [{ phase := s.seq.phase, prim := .xfer op p (s.dev.reply s.P s.draws op) }] := rfl
@[simp] theorem sent_dev (op : FrameOp) (p : Byte) : (s.sent op p).dev = s.dev.after s.P s.draws op p := rfl
@[simp] theorem sent_seq_busy (op : FrameOp) (p : Byte) : (s.sent op p).seq.busy = s.seq.busy := rfl
@[simp] theorem sent_seq_phase (op : FrameOp) (p : Byte) : (s.sent op p).seq.phase = s.seq.phase := rfl
@[simp] theorem sent_seq_step (op : FrameOp) (p : Byte) : (s.sent op p).seq.step = s.seq.step + 1 := rfl
@[simp] theorem sent_seq_cur (op : FrameOp) (p : Byte) : (s.sent op p).seq.cur = s.seq.curAfter s.P op p := rfl
@[simp] theorem sent_seq_cfg (op : FrameOp) (p : Byte) : (s.sent op p).seq.cfg = s.seq.cfg := rfl
@[simp] theorem sent_seq_hold (op : FrameOp) (p : Byte) : (s.sent op p).seq.hold = s.seq.hold := rfl
@[simp] theorem sent_seq_op (op : FrameOp) (p : Byte) : (s.sent op p).seq.op = s.seq.op := rfl
@[simp] theorem sent_seq_pollcnt (op : FrameOp) (p : Byte) : (s.sent op p).seq.pollcnt = s.seq.pollcnt := rfl
@[simp] theorem sent_seq_result (op : FrameOp) (p : Byte) : (s.sent op p).seq.result = s.seq.result := rfl
@[simp] theorem sent_seq_rdata (op : FrameOp) (p : Byte) : (s.sent op p).seq.rdata = s.seq.rdata := rfl
@[simp] theorem sent_seq_pllDone (op : FrameOp) (p : Byte) : (s.sent op p).seq.pllDone = s.seq.pllDone := rfl
@[simp] theorem sent_seq_resetn (op : FrameOp) (p : Byte) : (s.sent op p).seq.resetn = s.seq.resetn := rfl
@[simp] theorem sent_seq_ucode (op : FrameOp) (p : Byte) : (s.sent op p).seq.ucode = s.seq.ucode := rfl
@[simp] theorem sent_seq_rx (op : FrameOp) (p : Byte) : (s.sent op p).seq.rx = (s.dev.reply s.P s.draws op).getD s.seq.rx := rfl
@[simp] theorem sent_seq_rxPrev (op : FrameOp) (p : Byte) : (s.sent op p).seq.rxPrev = if (s.dev.reply s.P s.draws op).isSome then s.seq.rx else s.seq.rxPrev := rfl

/-! ### unsent -/
@[simp] theorem unsent_P (op : FrameOp) (p : Byte) (acted : Bool) : (s.unsent op p acted).P = s.P := rfl
@[simp] theorem unsent_port (op : FrameOp) (p : Byte) (acted : Bool) : (s.unsent op p acted).port = s.port := rfl
@[simp] theorem unsent_env (op : FrameOp) (p : Byte) (acted : Bool) : (s.unsent op p acted).env = s.env := rfl
@[simp] theorem unsent_draws (op : FrameOp) (p : Byte) (acted : Bool) : (s.unsent op p acted).draws = s.draws + 1 := rfl
@[simp] theorem unsent_bus (op : FrameOp) (p : Byte) (acted : Bool) : (s.unsent op p acted).bus = s.bus ++ [{ phase := s.seq.phase, prim := .xferFailed op p }] := rfl
@[simp] theorem unsent_dev (op : FrameOp) (p : Byte) (acted : Bool) : (s.unsent op p acted).dev = if acted then s.dev.after s.P s.draws op p else s.dev := rfl
@[simp] theorem unsent_seq_busy (op : FrameOp) (p : Byte) (acted : Bool) : (s.unsent op p acted).seq.busy = s.seq.busy := rfl
@[simp] theorem unsent_seq_phase (op : FrameOp) (p : Byte) (acted : Bool) : (s.unsent op p acted).seq.phase = s.seq.phase := rfl
@[simp] theorem unsent_seq_step (op : FrameOp) (p : Byte) (acted : Bool) : (s.unsent op p acted).seq.step = s.seq.step + 1 := rfl
@[simp] theorem unsent_seq_cur (op : FrameOp) (p : Byte) (acted : Bool) : (s.unsent op p acted).seq.cur = .unknown := rfl
@[simp] theorem unsent_seq_cfg (op : FrameOp) (p : Byte) (acted : Bool) : (s.unsent op p acted).seq.cfg = s.seq.cfg := rfl
@[simp] theorem unsent_seq_hold (op : FrameOp) (p : Byte) (acted : Bool) : (s.unsent op p acted).seq.hold = s.seq.hold := rfl
@[simp] theorem unsent_seq_op (op : FrameOp) (p : Byte) (acted : Bool) : (s.unsent op p acted).seq.op = s.seq.op := rfl
@[simp] theorem unsent_seq_pollcnt (op : FrameOp) (p : Byte) (acted : Bool) : (s.unsent op p acted).seq.pollcnt = s.seq.pollcnt := rfl
@[simp] theorem unsent_seq_result (op : FrameOp) (p : Byte) (acted : Bool) : (s.unsent op p acted).seq.result = s.seq.result := rfl
@[simp] theorem unsent_seq_rdata (op : FrameOp) (p : Byte) (acted : Bool) : (s.unsent op p acted).seq.rdata = s.seq.rdata := rfl
@[simp] theorem unsent_seq_pllDone (op : FrameOp) (p : Byte) (acted : Bool) : (s.unsent op p acted).seq.pllDone = s.seq.pllDone := rfl
@[simp] theorem unsent_seq_resetn (op : FrameOp) (p : Byte) (acted : Bool) : (s.unsent op p acted).seq.resetn = s.seq.resetn := rfl
@[simp] theorem unsent_seq_ucode (op : FrameOp) (p : Byte) (acted : Bool) : (s.unsent op p acted).seq.ucode = s.seq.ucode := rfl
@[simp] theorem unsent_seq_rx (op : FrameOp) (p : Byte) (acted : Bool) : (s.unsent op p acted).seq.rx = s.seq.rx := rfl
@[simp] theorem unsent_seq_rxPrev (op : FrameOp) (p : Byte) (acted : Bool) : (s.unsent op p acted).seq.rxPrev = s.seq.rxPrev := rfl

/-! ### complete (DEV) -/
@[simp] theorem complete_dev_cur (t : Tick) : (d.complete t).cur = d.cur := rfl
@[simp] theorem complete_dev_mem (t : Tick) : (d.complete t).mem = d.mem := rfl
@[simp] theorem complete_dev_drawBusy (t : Tick) : (d.complete t).drawBusy = if t.drawDone then .known false else d.drawBusy := rfl
@[simp] theorem complete_dev_circBusy (t : Tick) : (d.complete t).circBusy = if t.circDone then .known false else d.circBusy := rfl
@[simp] theorem complete_dev_bteBusy (t : Tick) : (d.complete t).bteBusy = if t.bteDone then .known false else d.bteBusy := rfl
@[simp] theorem complete_dev_oplog (t : Tick) : (d.complete t).oplog = d.oplog := rfl
@[simp] theorem complete_dev_rstIfUnk (t : Tick) : (d.complete t).rstIfUnk = d.rstIfUnk := rfl

/-! ### setCell (DEV) -/
@[simp] theorem setCell_dev_cur (a b : Byte) : (d.setCell a b).cur = d.cur := rfl
@[simp] theorem setCell_dev_mem (a b : Byte) : (d.setCell a b).mem = Memory.write d.mem a.toNat b := rfl
@[simp] theorem setCell_dev_drawBusy (a b : Byte) : (d.setCell a b).drawBusy = d.drawBusy := rfl
@[simp] theorem setCell_dev_circBusy (a b : Byte) : (d.setCell a b).circBusy = d.circBusy := rfl
@[simp] theorem setCell_dev_bteBusy (a b : Byte) : (d.setCell a b).bteBusy = d.bteBusy := rfl
@[simp] theorem setCell_dev_oplog (a b : Byte) : (d.setCell a b).oplog = d.oplog := rfl
@[simp] theorem setCell_dev_rstIfUnk (a b : Byte) : (d.setCell a b).rstIfUnk = d.rstIfUnk := rfl

/-! ### loseCell (DEV) -/
@[simp] theorem loseCell_dev_cur (a : Byte) : (d.loseCell a).cur = d.cur := rfl
@[simp] theorem loseCell_dev_mem (a : Byte) : (d.loseCell a).mem = Memory.lose d.mem a.toNat := rfl
@[simp] theorem loseCell_dev_drawBusy (a : Byte) : (d.loseCell a).drawBusy = d.drawBusy := rfl
@[simp] theorem loseCell_dev_circBusy (a : Byte) : (d.loseCell a).circBusy = d.circBusy := rfl
@[simp] theorem loseCell_dev_bteBusy (a : Byte) : (d.loseCell a).bteBusy = d.bteBusy := rfl
@[simp] theorem loseCell_dev_oplog (a : Byte) : (d.loseCell a).oplog = d.oplog := rfl
@[simp] theorem loseCell_dev_rstIfUnk (a : Byte) : (d.loseCell a).rstIfUnk = d.rstIfUnk := rfl

/-! ### hardReset (DEV) -/
@[simp] theorem hardReset_dev_cur : d.hardReset.cur = .unknown := rfl
@[simp] theorem hardReset_dev_mem : d.hardReset.mem = [] := rfl
@[simp] theorem hardReset_dev_drawBusy : d.hardReset.drawBusy = .known false := rfl
@[simp] theorem hardReset_dev_circBusy : d.hardReset.circBusy = .known false := rfl
@[simp] theorem hardReset_dev_bteBusy : d.hardReset.bteBusy = .known false := rfl
@[simp] theorem hardReset_dev_oplog : d.hardReset.oplog = d.oplog := rfl
@[simp] theorem hardReset_dev_rstIfUnk : d.hardReset.rstIfUnk = .known false := rfl

/-! ### cmdw (DEV) -/
@[simp] theorem cmdw_dev_cur (a : Byte) : (d.cmdw a).cur = .known a := rfl
@[simp] theorem cmdw_dev_mem (a : Byte) : (d.cmdw a).mem = d.mem := rfl
@[simp] theorem cmdw_dev_drawBusy (a : Byte) : (d.cmdw a).drawBusy = d.drawBusy := rfl
@[simp] theorem cmdw_dev_circBusy (a : Byte) : (d.cmdw a).circBusy = d.circBusy := rfl
@[simp] theorem cmdw_dev_bteBusy (a : Byte) : (d.cmdw a).bteBusy = d.bteBusy := rfl
@[simp] theorem cmdw_dev_oplog (a : Byte) : (d.cmdw a).oplog = d.oplog := rfl
@[simp] theorem cmdw_dev_rstIfUnk (a : Byte) : (d.cmdw a).rstIfUnk = d.rstIfUnk := rfl

/-! ### scramble (DEV) -/
@[simp] theorem scramble_dev_cur (P : Params) (b : Byte) (g : List RegName) : (d.scramble P b g).cur = .unknown := rfl
@[simp] theorem scramble_dev_mem (P : Params) (b : Byte) (g : List RegName) : (d.scramble P b g).mem = [] := rfl
@[simp] theorem scramble_dev_drawBusy (P : Params) (b : Byte) (g : List RegName) : (d.scramble P b g).drawBusy = .unknown := rfl
@[simp] theorem scramble_dev_circBusy (P : Params) (b : Byte) (g : List RegName) : (d.scramble P b g).circBusy = .unknown := rfl
@[simp] theorem scramble_dev_bteBusy (P : Params) (b : Byte) (g : List RegName) : (d.scramble P b g).bteBusy = .unknown := rfl

/-! ### the four frames at DEV -/
@[simp] theorem after_cmdw (P : Params) (n : Nat) (p : Byte) : d.after P n .cmdw p = d.cmdw p := rfl
@[simp] theorem after_datw (P : Params) (n : Nat) (p : Byte) : d.after P n .datw p = d.datw P n p := rfl
@[simp] theorem after_datr (P : Params) (n : Nat) (p : Byte) : d.after P n .datr p = { d with cur := adv P d.cur } := rfl
@[simp] theorem after_stsr (P : Params) (n : Nat) (p : Byte) : d.after P n .stsr p = d := rfl
@[simp] theorem reply_cmdw (P : Params) (n : Nat) : d.reply P n .cmdw = none := rfl
@[simp] theorem reply_datw (P : Params) (n : Nat) : d.reply P n .datw = none := rfl
@[simp] theorem reply_datr (P : Params) (n : Nat) : d.reply P n .datr = some (d.datrByte P n) := rfl
@[simp] theorem reply_stsr (P : Params) (n : Nat) : d.reply P n .stsr = some (d.statusByte (anyRead n)) := rfl
@[simp] theorem curAfter_cmdw (P : Params) (q : Seq) (p : Byte) : q.curAfter P .cmdw p = .known p := rfl
@[simp] theorem curAfter_datw (P : Params) (q : Seq) (p : Byte) : q.curAfter P .datw p = if q.resetsDevice P p then .unknown else adv P q.cur := rfl
@[simp] theorem curAfter_datr (P : Params) (q : Seq) (p : Byte) : q.curAfter P .datr p = adv P q.cur := rfl
@[simp] theorem curAfter_stsr (P : Params) (q : Seq) (p : Byte) : q.curAfter P .stsr p = q.cur := rfl

end Sys2Proof.Machine
end

