-- ==== Sys2Proof/Laws/Device.lean ====
section
/-! SUPPORT. What DEV does with a frame, one lemma per kind of register, for a device that is idle and awake; and what
every frame keeps. -/

namespace Sys2Proof.Machine

/-! ### Addresses -/

theorem mem_all (n : RegName) : n ∈ RegName.all := by cases n <;> decide

/-- Rule R33: different names that may not alias have different addresses. -/
theorem addr_ne {P : Params} (h : P.wf = true) {a b : RegName} (hab : a ≠ b) (hal : a.mayAlias b = false) :
    P.addr a ≠ P.addr b := by
  have hd : P.regmap.distinct = true := by simp only [Params.wf, Bool.and_eq_true] at h; tauto
  have := (List.all_eq_true.mp ((List.all_eq_true.mp hd) a (mem_all a))) b (mem_all b)
  simpa [hab, hal, Params.addr] using this

theorem plainReg_iff {P : Params} {a : Byte} :
    plainReg P a = true ↔ a ≠ P.addr .DCR ∧ a ≠ P.addr .BTE_CTRL0 ∧ a ≠ P.addr .PWR := by
  simp [plainReg, and_assoc]

/-- Every named register but DCR, BTE_CTRL0 and PWR is plain storage. -/
theorem plainReg_addr {P : Params} (h : P.wf = true) (n : RegName) (h1 : n ≠ .DCR) (h2 : n ≠ .BTE_CTRL0) (h3 : n ≠ .PWR) :
    plainReg P (P.addr n) = true :=
  plainReg_iff.mpr ⟨addr_ne h h1 (by cases n <;> rfl), addr_ne h h2 (by cases n <;> rfl), addr_ne h h3 (by cases n <;> rfl)⟩

/-! ### Completion steps -/

theorem complete_mem (d : Dev) (t : Tick) : (d.complete t).mem = d.mem := rfl

@[simp] theorem cell_complete (d : Dev) (t : Tick) (x : Byte) : (d.complete t).cell x = d.cell x := rfl

@[simp] theorem awake_complete (P : Params) (d : Dev) (t : Tick) : (d.complete t).awake P = d.awake P := rfl

theorem allIdle_iff {d : Dev} :
    d.allIdle = true ↔ d.drawBusy = .known false ∧ d.circBusy = .known false ∧ d.bteBusy = .known false := by
  simp [Dev.allIdle, and_assoc]

/-- Completion steps touch the flags alone. -/
theorem completeAll_eq (d : Dev) (l : List Tick) :
    d.completeAll l = { d with
      drawBusy := (d.completeAll l).drawBusy, circBusy := (d.completeAll l).circBusy, bteBusy := (d.completeAll l).bteBusy } := by
  unfold Dev.completeAll
  induction l generalizing d with
  | nil => rfl
  | cons t l ih => exact ih (d.complete t)

@[simp] theorem completeAll_cur (d : Dev) (l : List Tick) : (d.completeAll l).cur = d.cur := by rw [completeAll_eq]
@[simp] theorem completeAll_mem (d : Dev) (l : List Tick) : (d.completeAll l).mem = d.mem := by rw [completeAll_eq]
@[simp] theorem completeAll_oplog (d : Dev) (l : List Tick) : (d.completeAll l).oplog = d.oplog := by rw [completeAll_eq]
@[simp] theorem completeAll_rstIfUnk (d : Dev) (l : List Tick) : (d.completeAll l).rstIfUnk = d.rstIfUnk := by
  rw [completeAll_eq]
@[simp] theorem completeAll_cell (d : Dev) (l : List Tick) (x : Byte) : (d.completeAll l).cell x = d.cell x := by
  simp [Dev.cell]
@[simp] theorem completeAll_logHeads (d : Dev) (l : List Tick) : (d.completeAll l).logHeads = d.logHeads := by
  simp [Dev.logHeads]
theorem completeAll_append (d : Dev) (l m : List Tick) : d.completeAll (l ++ m) = (d.completeAll l).completeAll m :=
  List.foldl_append

/-- Nothing completes on an idle device. -/
theorem complete_of_allIdle {d : Dev} (h : d.allIdle = true) (t : Tick) : d.complete t = d := by
  obtain ⟨h1, h2, h3⟩ := allIdle_iff.mp h
  cases d; simp_all [Dev.complete]

/-! ### Software reset -/

theorem inReset_of_awake {P : Params} {d : Dev} (h : d.awake P = true) (n : Nat) : d.inReset P n = false := by
  unfold Dev.awake at h
  unfold Dev.inReset
  split at h <;> simp_all

theorem not_blocked {P : Params} {d : Dev} {n : Nat} (h : d.inReset P n = false) (a : Byte) : d.blocked P n a = false := by
  simp [Dev.blocked, h]

theorem blocked_of_awake {P : Params} {d : Dev} (h : d.awake P = true) (n : Nat) (a : Byte) :
    d.blocked P n a = false := not_blocked (inReset_of_awake h n) a

theorem awake_congr {P : Params} {d e : Dev} (hm : d.mem = e.mem) (hr : d.rstIfUnk = e.rstIfUnk) :
    d.awake P = e.awake P := by
  simp [Dev.awake, Dev.cell, hm, hr]

/-! ### Tainting -/

theorem taintIf_of_ne {f : Unk Bool} (h : f ≠ .known true) (e : Engine) (l : List OpRecord) : taintIf f e l = l := by
  simp [taintIf, h]

theorem taintedLog_of_allIdle {d : Dev} (h : d.allIdle = true) (P : Params) (a : Byte) : d.taintedLog P a = d.oplog := by
  obtain ⟨h1, h2, h3⟩ := allIdle_iff.mp h
  simp [Dev.taintedLog, h1, h2, h3, taintIf]

theorem taintNewest_heads (e : Engine) (l : List OpRecord) :
    (taintNewest e l).map (fun r => (r.engine, r.code)) = l.map (fun r => (r.engine, r.code)) := by
  induction l with
  | nil => rfl
  | cons r l ih => simp only [taintNewest]; split <;> simp [ih]

/-- Tainting changes no record's engine and code. -/
theorem taintIf_heads (f : Unk Bool) (e : Engine) (l : List OpRecord) :
    (taintIf f e l).map (fun r => (r.engine, r.code)) = l.map (fun r => (r.engine, r.code)) := by
  unfold taintIf
  split
  · simp [List.map_reverse, taintNewest_heads]
  · rfl

theorem taintedLog_heads (P : Params) (d : Dev) (a : Byte) :
    (d.taintedLog P a).map (fun r => (r.engine, r.code)) = d.oplog.map (fun r => (r.engine, r.code)) := by
  simp only [Dev.taintedLog]
  split <;> split <;> simp [taintIf_heads]

/-! ### Data frames, by the register they reach -/

/-- The register a DATA frame reaches while the pointer is known. -/
theorem target_known {d : Dev} {a : Byte} (h : d.cur = .known a) (n : Nat) : d.target n = a := by simp [Dev.target, h]

/-- A data write to plain storage (rules R131, R148). -/
theorem datw_plain {P : Params} {d : Dev} {a : Byte} {n : Nat} (ht : d.target n = a) (hp : plainReg P a = true)
    (hw : d.inReset P n = false) (b : Byte) :
    d.datw P n b = { d.setCell a b with oplog := d.taintedLog P a, cur := adv P d.cur } := by
  obtain ⟨h1, h2, h3⟩ := plainReg_iff.mp hp
  simp [Dev.datw, Dev.datwCell, ht, not_blocked hw, Dev.write, h1, h2, h3]

/-- The same on an idle device: nothing is tainted. -/
theorem datw_plain_idle {P : Params} {d : Dev} {a : Byte} {n : Nat} (ht : d.target n = a) (hp : plainReg P a = true)
    (hw : d.inReset P n = false) (hi : d.allIdle = true) (b : Byte) :
    d.datw P n b = { d.setCell a b with cur := adv P d.cur } := by
  rw [datw_plain ht hp hw, taintedLog_of_allIdle hi]
  rfl

/-- A data write to DCR (rules R131, R204, R205). -/
theorem datw_dcr {P : Params} {d : Dev} {n : Nat} (ht : d.target n = P.addr .DCR) (hw : d.inReset P n = false) (b : Byte) :
    d.datw P n b = { d.writeDcr P b with cur := adv P (d.writeDcr P b).cur } := by
  simp [Dev.datw, Dev.datwCell, ht, not_blocked hw, Dev.write]

/-- A data write to BTE_CTRL0 (rules R131, R231). -/
theorem datw_bteStart {P : Params} (hP : P.wf = true) {d : Dev} {n : Nat} (ht : d.target n = P.addr .BTE_CTRL0)
    (hw : d.inReset P n = false) (b : Byte) :
    d.datw P n b = { d.writeBteStart P n b with cur := adv P (d.writeBteStart P n b).cur } := by
  have h : P.addr .BTE_CTRL0 ≠ P.addr .DCR := addr_ne hP (by decide) rfl
  simp [Dev.datw, Dev.datwCell, ht, not_blocked hw, Dev.write, h]

/-- A data write to PWR (rules R131, R303), which software reset does not block. -/
theorem datw_pwr {P : Params} (hP : P.wf = true) {d : Dev} {n : Nat} (ht : d.target n = P.addr .PWR) (b : Byte) :
    d.datw P n b = { d.writePwr P b with cur := adv P (d.writePwr P b).cur } := by
  have h1 : P.addr .PWR ≠ P.addr .DCR := addr_ne hP (by decide) rfl
  have h2 : P.addr .PWR ≠ P.addr .BTE_CTRL0 := addr_ne hP (by decide) rfl
  simp [Dev.datw, Dev.datwCell, ht, Dev.blocked, Dev.write, h1, h2]

/-- A data write that software reset disturbs (U5). -/
theorem datw_lost {P : Params} {d : Dev} {n : Nat} {a : Byte} (ht : d.target n = a) (ha : a ≠ P.addr .PWR)
    (hr : d.inReset P n = true) (b : Byte) : d.datw P n b = { d.loseCell a with cur := adv P d.cur } := by
  simp [Dev.datw, Dev.datwCell, ht, Dev.blocked, hr, ha]

/-- A data read from plain storage or PWR whose cell is known (rules R132, R149). -/
theorem datrByte_known {P : Params} {d : Dev} {a b : Byte} {n : Nat} (ht : d.target n = a) (h1 : a ≠ P.addr .DCR)
    (h2 : a ≠ P.addr .BTE_CTRL0) (hw : d.inReset P n = false ∨ a = P.addr .PWR) (hb : d.cell a = .known b) :
    d.datrByte P n = b := by
  have h : d.blocked P n a = false := by rcases hw with h | h <;> simp [Dev.blocked, h]
  simp [Dev.datrByte, ht, h, Dev.read, h1, h2, hb]

/-- A data read from DCR (rules R44, R149). -/
theorem datrByte_dcr {P : Params} {d : Dev} {n : Nat} (ht : d.target n = P.addr .DCR) (hw : d.inReset P n = false) :
    d.datrByte P n = d.dcrByte (anyRead n) := by
  simp [Dev.datrByte, ht, not_blocked hw, Dev.read]

/-! ### The bits a poll tests -/

theorem dcrByte_and_start (d : Dev) (any : Byte) : d.dcrByte any &&& 0x80 = flagBit d.drawBusy 0x80 any := by
  rcases h1 : d.drawBusy with _ | _ | _ <;> rcases h2 : d.circBusy with _ | _ | _ <;>
    simp only [Dev.dcrByte, flagBit, h1, h2] <;> revert any <;> decide

theorem dcrByte_and_cstart (d : Dev) (any : Byte) : d.dcrByte any &&& 0x40 = flagBit d.circBusy 0x40 any := by
  rcases h1 : d.drawBusy with _ | _ | _ <;> rcases h2 : d.circBusy with _ | _ | _ <;>
    simp only [Dev.dcrByte, flagBit, h1, h2] <;> revert any <;> decide

theorem statusByte_and_busy (d : Dev) (any : Byte) : d.statusByte any &&& 0x40 = flagBit d.bteBusy 0x40 any := by
  rcases h1 : d.bteBusy with _ | _ | _ <;> simp only [Dev.statusByte, flagBit, h1] <;> revert any <;> decide

/-! ### What every frame keeps -/

theorem wf_after {P : Params} {d : Dev} (h : Memory.wf d.mem) (n : Nat) (op : FrameOp) (p : Byte) :
    Memory.wf (d.after P n op p).mem := by
  cases op with
  | cmdw => exact h
  | datr => exact h
  | stsr => exact h
  | datw =>
    simp only [after_datw, Dev.datw, Dev.datwCell]
    split
    · exact mem_lose_wf h _
    · unfold Dev.write
      split
      · unfold Dev.writeDcr; split <;> (try split) <;> first | exact h | exact mem_nil_wf
      · split
        · unfold Dev.writeBteStart; split <;> (try split) <;> first | exact h | exact mem_nil_wf
        · split
          · unfold Dev.writePwr; split
            · exact mem_single_wf _ _
            · exact mem_write_wf h (BitVec.isLt _) _
          · exact mem_write_wf h (BitVec.isLt _) _

/-- The write part of a DATA frame keeps the pointer, or leaves it `?`: because it resets DEV, or because it leaves DEV unknown
and logs a record of an UNKNOWN operation. Only there does it log one. -/
theorem datwCell_cur (P : Params) (n : Nat) (d : Dev) (b : Byte) :
    ((d.datwCell P n b).cur = d.cur ∧ (d.datwCell P n b).logHeads ≠ d.logHeads ++ [(.unknown, b)])
      ∨ ((d.datwCell P n b).cur = .unknown ∧ d.target n = P.addr .PWR ∧ b &&& P.pwrRst ≠ 0
          ∧ (d.datwCell P n b).logHeads = d.logHeads)
      ∨ ((d.datwCell P n b).cur = .unknown ∧ (d.datwCell P n b).logHeads = d.logHeads ++ [(.unknown, b)]) := by
  unfold Dev.datwCell Dev.logHeads
  split
  · exact .inl ⟨rfl, by simp⟩
  · unfold Dev.write Dev.writeDcr Dev.writeBteStart Dev.writePwr
    repeat' split
    all_goals first
      | exact .inl ⟨rfl, by simp [taintIf_heads, taintedLog_heads]⟩
      | (rename_i h1 h2 h3 h4
         exact .inr (.inl ⟨rfl, h3, by simpa using h4, rfl⟩))
      | exact .inr (.inr ⟨rfl, by simp [Dev.scramble]⟩)

/-- The engine and code of every record a frame finds in the log stay; records may be added after them. -/
theorem oplog_heads_after (P : Params) (n : Nat) (d : Dev) (op : FrameOp) (p : Byte) :
    d.oplog.map (fun r => (r.engine, r.code)) <+: (d.after P n op p).oplog.map (fun r => (r.engine, r.code)) := by
  cases op with
  | cmdw => exact List.prefix_rfl
  | datr => exact List.prefix_rfl
  | stsr => exact List.prefix_rfl
  | datw =>
    simp only [after_datw, Dev.datw, Dev.datwCell]
    split
    · exact List.prefix_rfl
    · unfold Dev.write Dev.writeDcr Dev.writeBteStart Dev.writePwr
      repeat' split
      all_goals first
        | exact List.prefix_rfl
        | simp [Dev.scramble, taintIf_heads, taintedLog_heads]

end Sys2Proof.Machine
end

