-- ==== Sys2Proof/Laws/Run.lean ====
section
/-! SUPPORT. Running micro-operations: what a run can do at all (run_preserves and, for the whole machine, exec_preserves and
step_preserves), and what it does when the outside world is calm. -/

namespace Sys2Proof.Machine

/-! ### What any run can do to the state -/

/-- A property of states that the elementary changes of a run keep: a change of SEQ that keeps or forgets the shadow while
`bus` grows, the gap before a primitive, a frame that was sent or that failed, a hard reset (the shadow forgotten). -/
structure Kept (I : State → Prop) : Prop where
  seq : ∀ s q b, (q.cur = s.seq.cur ∨ q.cur = .unknown) → s.bus <+: b → I s → I { s with seq := q, bus := b }
  gap : ∀ s, I s → I s.gap
  sent : ∀ s op p, I s → I (s.sent op p)
  unsent : ∀ s op p a, I s → I (s.unsent op p a)
  hardReset : ∀ s, s.seq.cur = .unknown → I s → I { s with dev := s.dev.hardReset }

/-- The state a micro-operation leaves. -/
def Flow.state : Flow → State
  | .go s => s
  | .pause s => s
  | .halt s => s
  | .again _ s => s

theorem Kept.only_seq {I : State → Prop} (h : Kept I) {s : State} (hs : I s) (q : Seq)
    (hq : q.cur = s.seq.cur ∨ q.cur = .unknown) : I { s with seq := q } := h.seq s q s.bus hq List.prefix_rfl hs

theorem Kept.perform {I : State → Prop} (h : Kept I) {s : State} (hs : I s) (p : Prim) : I (s.perform p) :=
  h.seq s _ _ (.inl rfl) (List.prefix_append _ _) hs

theorem Kept.release {I : State → Prop} (h : Kept I) {s : State} (hs : I s) : I s.release :=
  h.only_seq (h.perform hs .release) _ (.inl rfl)

theorem Kept.driveReset {I : State → Prop} (h : Kept I) {s : State} (hs : I s) (l : Bool) : I (s.driveReset l) := by
  cases l with
  | true => exact h.only_seq (h.perform hs (.resetLine true)) _ (.inl rfl)
  | false =>
    exact h.hardReset _ rfl
      (h.only_seq (h.perform hs (.resetLine false)) { s.seq with step := s.seq.step + 1, resetn := false, cur := .unknown } (.inr rfl))

theorem Kept.resetSeq {I : State → Prop} (h : Kept I) {s : State} (hs : I s) : I s.resetSeq :=
  h.only_seq hs _ (.inr rfl)

theorem Kept.closing {I : State → Prop} (h : Kept I) {s : State} (hs : I s) (f k : State → State)
    (hf : I s.gap → I (f s.gap)) (hk : I (f s.gap) → I (k (f s.gap))) : I (s.closing f k) := by
  unfold State.closing
  split
  · exact h.resetSeq (h.gap s hs)
  · exact hk (hf (h.gap s hs))

theorem Kept.abort {I : State → Prop} (h : Kept I) {s : State} (hs : I s) (x : Result) : I (s.abort x) := by
  have hp : ∀ u, I u → I (u.post x) := fun u hu => h.only_seq hu _ (.inl rfl)
  have hl : ∀ u, I u → I (u.lineHigh fun v => v.post x) := fun u hu => by
    unfold State.lineHigh
    split
    · exact hp u hu
    · exact h.closing hu _ _ (fun g => h.driveReset g true) (hp _)
  unfold State.abort State.letGo
  split
  · exact h.closing hs _ _ h.release (hl _)
  · exact hl s hs

theorem Kept.finish {I : State → Prop} (h : Kept I) {s : State} (hs : I s) (x : Result) (r : Ret) : I (s.finish x r) :=
  h.only_seq hs _ (.inl rfl)

theorem Kept.accept {I : State → Prop} (h : Kept I) {s : State} (hs : I s) (o : Op) : I (s.accept o) :=
  h.only_seq hs _ (.inl rfl)

theorem Kept.keep {I : State → Prop} (h : Kept I) {s : State} (hs : I s) (k : List Micro) : I (s.keep k) :=
  h.only_seq hs _ (.inl rfl)

theorem Kept.inGap {I : State → Prop} (h : Kept I) {s : State} (hs : I s) (f : State → Flow)
    (hf : I s.gap → I (f s.gap).state) : I (s.inGap f).state := by
  unfold State.inGap
  split
  · exact h.resetSeq (h.gap s hs)
  · exact hf (h.gap s hs)

theorem onward_state (t : Tick) (s : State) : (t.onward s).state = s := by
  unfold Tick.onward; split <;> rfl

theorem Kept.primitive {I : State → Prop} (h : Kept I) {s : State} (hs : I s) (f : State → State)
    (hf : I s.gap → I (f s.gap)) : I (s.primitive f).state :=
  h.inGap hs _ fun g => by rw [onward_state]; exact hf g

theorem Kept.frame {I : State → Prop} (h : Kept I) {s : State} (hs : I s) (op : FrameOp) (p : Byte) :
    I (s.frame op p).state := by
  refine h.inGap hs _ fun g => ?_
  cases s.now.fate with
  | ok => simp only [onward_state]; exact h.sent _ _ _ g
  | failActed => exact h.abort (h.unsent _ _ _ _ g) _
  | failLost => exact h.abort (h.unsent _ _ _ _ g) _

theorem Kept.pollTest {I : State → Prop} (h : Kept I) {s : State} (hs : I s) (k : PollKind) : I (s.pollTest k).state := by
  have h1 := h.only_seq hs { s.seq with pollcnt := s.seq.pollcnt + 1 } (.inl rfl)
  simp only [State.pollTest]
  split
  · exact hs
  · split
    · exact h.abort h1 _
    · exact h.inGap h1 _ fun g => h.perform g _

/-- One micro-operation keeps what the elementary changes keep. -/
theorem Kept.micro {I : State → Prop} (h : Kept I) {s : State} (hs : I s) (m : Micro) : I (s.micro m).state := by
  cases m with
  | hold => exact h.primitive hs _ fun g => h.only_seq (h.perform g .hold) _ (.inl rfl)
  | release => exact h.primitive hs _ fun g => h.release g
  | frame op p => exact h.frame hs op p
  | writeSet => exact h.frame hs _ _
  | writeClr => exact h.frame hs _ _
  | delay d => exact h.primitive hs _ fun g => h.perform g _
  | resetLine l => exact h.primitive hs _ fun g => h.driveReset g l
  | phase p => exact h.only_seq hs _ (.inl rfl)
  | pllDone v => exact h.only_seq hs _ (.inl rfl)
  | forget => exact h.only_seq hs _ (.inr rfl)
  | pollStart => exact h.only_seq hs _ (.inl rfl)
  | pollTest k => exact h.pollTest hs k
  | setCfg d => exact h.only_seq hs _ (.inl rfl)
  | finish r => exact h.finish hs _ _

/-- A run keeps what the elementary changes keep. -/
theorem run_preserves {I : State → Prop} (h : Kept I) (k : List Micro) (s : State) (hs : I s) : I (run k s) := by
  induction k generalizing s with
  | nil => exact h.keep hs []
  | cons m k ih =>
    have hm := h.micro hs m
    simp only [run]
    cases hf : s.micro m with
    | go t => rw [hf] at hm; exact ih t hm
    | pause t => rw [hf] at hm; exact h.keep hm k
    | halt t => rw [hf] at hm; exact hm
    | again p t => rw [hf] at hm; exact h.keep hm _

/-- A property every micro-operation of a list keeps, and that does not look at what is left to run, holds after the run. -/
theorem run_ind {I : State → Prop} (hkeep : ∀ s k, I s → I (s.keep k)) (k : List Micro)
    (h : ∀ m ∈ k, ∀ s, I s → I (s.micro m).state) (s : State) (hs : I s) : I (run k s) := by
  induction k generalizing s with
  | nil => exact hkeep _ _ hs
  | cons m k ih =>
    have hm := h m List.mem_cons_self s hs
    simp only [run]
    cases hf : s.micro m with
    | go t => rw [hf] at hm; exact ih (fun m hm => h m (List.mem_cons_of_mem _ hm)) t hm
    | pause t => rw [hf] at hm; exact hkeep _ _ hm
    | halt t => rw [hf] at hm; exact hm
    | again p t => rw [hf] at hm; exact hkeep _ _ hm

/-- What exec's next state comes from: `s` itself (a command that waits), an accepted command that finished at once, or a
run, of an accepted command or of a window of frames, from `s`. -/
theorem exec_cases {i : Instr} {s t : State} (h : exec i s = .next t) :
    t = s ∨ (∃ o x, t = (s.accept o).finish x .none) ∨ (∃ o k, t = run k (s.accept o)) ∨ (∃ k, t = run k s) := by
  cases i with
  | cmdw a => exact .inr (.inr (.inr ⟨_, (Host.Outcome.next.inj h).symm⟩))
  | datw a => exact .inr (.inr (.inr ⟨_, (Host.Outcome.next.inj h).symm⟩))
  | datr a => exact .inr (.inr (.inr ⟨_, (Host.Outcome.next.inj h).symm⟩))
  | stsr a => exact .inr (.inr (.inr ⟨_, (Host.Outcome.next.inj h).symm⟩))
  | tLine => exact .inr (.inr (.inr ⟨_, (Host.Outcome.next.inj h).symm⟩))
  | tRect => exact .inr (.inr (.inr ⟨_, (Host.Outcome.next.inj h).symm⟩))
  | tFrect => exact .inr (.inr (.inr ⟨_, (Host.Outcome.next.inj h).symm⟩))
  | tTri => exact .inr (.inr (.inr ⟨_, (Host.Outcome.next.inj h).symm⟩))
  | tFtri => exact .inr (.inr (.inr ⟨_, (Host.Outcome.next.inj h).symm⟩))
  | tCirc => exact .inr (.inr (.inr ⟨_, (Host.Outcome.next.inj h).symm⟩))
  | tFcirc => exact .inr (.inr (.inr ⟨_, (Host.Outcome.next.inj h).symm⟩))
  | bMove => exact .inr (.inr (.inr ⟨_, (Host.Outcome.next.inj h).symm⟩))
  | bTmove => exact .inr (.inr (.inr ⟨_, (Host.Outcome.next.inj h).symm⟩))
  | bStart => exact .inr (.inr (.inr ⟨_, (Host.Outcome.next.inj h).symm⟩))
  | pwrOn => exact .inr (.inr (.inr ⟨_, (Host.Outcome.next.inj h).symm⟩))
  | init w hh d =>
    simp only [exec, execInit] at h
    split at h
    · exact .inl (Host.Outcome.next.inj h).symm
    · split at h
      · exact .inr (.inl ⟨_, _, (Host.Outcome.next.inj h).symm⟩)
      · exact .inr (.inr (.inl ⟨_, _, (Host.Outcome.next.inj h).symm⟩))
  | btecopy sl sx sy w hh dl dx dy tr key =>
    simp only [exec, execBtecopy] at h
    split at h
    · exact .inl (Host.Outcome.next.inj h).symm
    · split at h
      · cases h
      · split at h
        · split at h
          · exact .inr (.inl ⟨_, _, (Host.Outcome.next.inj h).symm⟩)
          · exact .inr (.inr (.inl ⟨_, _, (Host.Outcome.next.inj h).symm⟩))
        · cases h
  | _ =>
    simp only [exec, execWrcmd, execWrdata, execRddata, execRdstatus, execWrreg, execRdreg, execWr16, execRd16,
      State.command, execLine, execRect, execFrect, execTri, execFtri, execCirc, execFcirc, State.draw] at h
    split at h
    · exact .inl (Host.Outcome.next.inj h).symm
    · first
        | exact .inr (.inr (.inl ⟨_, _, (Host.Outcome.next.inj h).symm⟩))
        | (split at h
           · cases h
           · exact .inr (.inr (.inl ⟨_, _, (Host.Outcome.next.inj h).symm⟩)))

/-- exec keeps what the elementary changes keep. -/
theorem exec_preserves {I : State → Prop} (hI : Kept I) {i : Instr} {s t : State} (h : exec i s = .next t) (hs : I s) :
    I t := by
  rcases exec_cases h with rfl | ⟨o, x, rfl⟩ | ⟨o, k, rfl⟩ | ⟨k, rfl⟩
  · exact hs
  · exact hI.finish (hI.accept hs o) x .none
  · exact run_preserves hI k _ (hI.accept hs o)
  · exact run_preserves hI k s hs

/-- What a step that answers a next state did. -/
theorem step_cases {s t : State} (h : step s = .next t) :
    (s.seq.ucode ≠ [] ∧ t = s.resume) ∨ (s.seq.ucode = [] ∧ t = s.wait) ∨
      (∃ p ps i, s.seq.ucode = [] ∧ s.seq.busy = false ∧ s.port = p :: ps ∧ decodeWhole p.fmt p.bytes = .ok i
        ∧ exec i { s with port := ps } = .next t) := by
  unfold step State.nextWork at h
  by_cases hu : s.seq.ucode = []
  · simp only [hu, ne_eq, not_true_eq_false, if_false] at h
    by_cases hb : s.seq.busy = true
    · simp only [hb, if_true] at h
      exact .inr (.inl ⟨hu, (Host.Outcome.next.inj h).symm⟩)
    · simp only [hb] at h
      cases hp : s.port with
      | nil =>
        rw [hp] at h
        exact .inr (.inl ⟨hu, (Host.Outcome.next.inj h).symm⟩)
      | cons p ps =>
        rw [hp] at h
        cases hd : decodeWhole p.fmt p.bytes with
        | error e => simp [hd] at h
        | ok i =>
          simp only [hd] at h
          exact .inr (.inr ⟨p, ps, i, hu, by simpa using hb, rfl, hd, h⟩)
  · simp only [hu, ne_eq, not_false_eq_true, if_true] at h
    exact .inl ⟨hu, (Host.Outcome.next.inj h).symm⟩

/-- A step keeps what the elementary changes, and the taking of a packet, keep. -/
theorem step_preserves {I : State → Prop} (hI : Kept I) (hport : ∀ s ps, I s → I { s with port := ps }) {s t : State}
    (h : step s = .next t) (hs : I s) : I t := by
  rcases step_cases h with ⟨-, rfl⟩ | ⟨-, rfl⟩ | ⟨p, ps, i, -, -, -, -, he⟩
  · exact run_preserves hI _ _ (hI.keep hs [])
  · unfold State.wait
    split
    · exact hI.resetSeq (hI.gap s hs)
    · exact hI.gap s hs
  · exact exec_preserves hI he (hport s ps hs)

/-! ### An abort -/

/-- How many primitives `abort` performs (rule R270). -/
def State.abortTicks (s : State) : Nat := (if s.seq.hold then 1 else 0) + (if s.seq.resetn then 0 else 1)

/-- A gap of `abort` without a reset of SEQ. -/
theorem closing_calm {s : State} (h : s.now.seqReset = false) (f k : State → State) : s.closing f k = k (f s.gap) := by
  simp [State.closing, h]

/-- An abort whose gaps hold no reset of SEQ, said whole. -/
theorem abort_after {s : State} (h : ∀ t ∈ s.env, t.seqReset = false) (x : Result) :
    s.abort x = s.after
      { s.seq with
        step := s.seq.step + s.abortTicks
        hold := false
        resetn := true
        result := x
        phase := .idle
        busy := false
        cfg := s.seq.cfgAfterAbort x
        ucode := [] }
      (s.dev.completeAll (s.env.take s.abortTicks)) s.abortTicks 0
      (events s.seq.phase ((if s.seq.hold then [.release] else []) ++ (if s.seq.resetn then [] else [.resetLine true]))) := by
  obtain ⟨P, ⟨busy, phase, st, cur, cfg, hold, op, pc, res, rd, pd, resetn, uc, rx, rxp⟩, d, port, env, dr, bus⟩ := s
  have hd : ∀ e : Dev, e.complete {} = e := fun _ => rfl
  rcases env with _ | ⟨a, _ | ⟨b, l⟩⟩ <;> cases hold <;> cases resetn <;>
    simp_all [State.abort, State.letGo, State.lineHigh, State.closing, State.post, State.abortTicks, State.after, State.now,
      State.gap, State.release, State.perform, State.driveReset, Dev.completeAll, events, Seq.cfgAfterAbort]

/-- What is so of a state SEQ has come to rest in at the end of an abort that began in `s`. -/
structure State.Aborted (s t : State) (x : Result) : Prop where
  P : t.P = s.P
  port : t.port = s.port
  draws : t.draws = s.draws
  op : t.seq.op = s.seq.op
  idle : t.idle = true
  how : (t.seq.cur = s.seq.cur ∧ t.seq.result = x ∧ t.seq.rdata = s.seq.rdata ∧ t.seq.pllDone = s.seq.pllDone
      ∧ t.seq.cfg = s.seq.cfgAfterAbort x)
    ∨ ((∃ k ∈ s.env, k.seqReset = true) ∧ t.seq = { Seq.reset with op := s.seq.op })

theorem now_mem {s : State} (h : s.now.seqReset = true) : ∃ k ∈ s.env, k.seqReset = true := by
  unfold State.now at h
  cases he : s.env with
  | nil => rw [he] at h; cases h
  | cons a l => rw [he] at h; exact ⟨a, List.mem_cons_self, h⟩

/-- A reset of SEQ in a gap of `abort`. -/
theorem aborted_reset (s : State) (x : Result) (h : s.now.seqReset = true) : s.Aborted s.gap.resetSeq x :=
  ⟨rfl, rfl, rfl, rfl, rfl, .inr ⟨now_mem h, rfl⟩⟩

/-- The primitive of a gap of `abort` changes nothing of what matters to how it ends. -/
theorem Aborted_closing {s : State} {x : Result} {f k : State → State} (hP : (f s.gap).P = s.P)
    (hq : ∃ st h r, (f s.gap).seq = { s.seq with step := st, hold := h, resetn := r }) (hp : (f s.gap).port = s.port)
    (hd : (f s.gap).draws = s.draws) (he : (f s.gap).env = s.gap.env) (hk : (f s.gap).Aborted (k (f s.gap)) x) :
    s.Aborted (s.closing f k) x := by
  unfold State.closing
  split
  · exact aborted_reset s x ‹_›
  · obtain ⟨st, h, r, hq⟩ := hq
    obtain ⟨a, b, c, d, e, g⟩ := hk
    refine ⟨a.trans hP, b.trans hp, c.trans hd, by rw [d, hq], e, ?_⟩
    rw [hq] at g
    rcases g with g | ⟨⟨t, ht, ht'⟩, g⟩
    · exact .inl g
    · refine .inr ⟨⟨t, ?_, ht'⟩, g⟩
      rw [he] at ht
      exact List.mem_of_mem_tail ht

/-- What an abort keeps whatever the world does, and where it leaves SEQ: idle, the bus released, the line high; the failure is
posted or SEQ has been reset. -/
theorem abort_cases (s : State) (x : Result) : s.Aborted (s.abort x) x := by
  have hpost : ∀ u : State, u.seq.hold = false → u.seq.resetn = true → u.Aborted (u.post x) x := fun u h r =>
    ⟨rfl, rfl, rfl, rfl, by simp [State.idle, State.post, h, r], .inl ⟨rfl, rfl, rfl, rfl, rfl⟩⟩
  have hline : ∀ u : State, u.seq.hold = false → u.Aborted (u.lineHigh fun v => v.post x) x := fun u h => by
    unfold State.lineHigh
    split
    · exact hpost u h ‹_›
    · exact Aborted_closing rfl ⟨_, _, _, rfl⟩ rfl rfl rfl (hpost _ h rfl)
  unfold State.abort State.letGo
  split
  · exact Aborted_closing rfl ⟨_, _, _, rfl⟩ rfl rfl rfl (hline _ rfl)
  · rename_i h; exact hline s (by simpa using h)

theorem abort_env (s : State) (x : Result) : (s.abort x).env <:+ s.env := by
  have hc : ∀ (u : State) (f k : State → State), (f u.gap).env = u.gap.env → (k (f u.gap)).env <:+ (f u.gap).env →
      (u.closing f k).env <:+ u.env := fun u f k hf hk => by
    unfold State.closing
    split
    · exact List.tail_suffix _
    · exact hk.trans (hf ▸ List.tail_suffix _)
  have hl : ∀ u : State, (u.lineHigh fun v => v.post x).env <:+ u.env := fun u => by
    unfold State.lineHigh
    split
    · exact List.suffix_rfl
    · exact hc u _ _ rfl List.suffix_rfl
  unfold State.abort State.letGo
  split
  · exact hc s _ _ rfl (hl _)
  · exact hl s

/-! ### What one micro-operation can do to SEQ's outputs -/

/-- A micro-operation after which the pseudocode goes on: the command, its result so far and the parameters stay; only `setCfg`
changes SEQ.cfg. -/
structure State.GoesOn (s t : State) (m : Micro) : Prop where
  P : t.P = s.P
  busy : t.seq.busy = s.seq.busy
  op : t.seq.op = s.seq.op
  result : t.seq.result = s.seq.result
  rdata : t.seq.rdata = s.seq.rdata
  cfg : (∀ d, m ≠ .setCfg d) → t.seq.cfg = s.seq.cfg
  env : t.env <:+ s.env

/-- A micro-operation that sends a frame. -/
def Micro.sends (s : State) (op : FrameOp) (p : Byte) : Micro → Prop
  | .frame op' p' => op' = op ∧ p' = p
  | .writeSet => op = .datw ∧ p = setRst s.P s.seq.rx
  | .writeClr => op = .datw ∧ p = clrRst s.P s.seq.rx
  | .hold | .release | .delay _ | .resetLine _ | .phase _ | .pllDone _ | .forget | .pollStart | .pollTest _ | .setCfg _
  | .finish _ => False

/-- A micro-operation after which nothing is left to do: the command finished, a frame failed, the last poll read was busy, or
SEQ was reset (rules R12, R139, R144, R145, R270, R300). -/
inductive State.Stops (s t : State) (m : Micro) : Prop where
  | finished (r : Ret) : m = .finish r → t = s.finish .ok r → Stops s t m
  | failed (u : State) (op : FrameOp) (p : Byte) (acted : Bool) : m.sends s op p → u = s.gap.unsent op p acted →
      t = u.abort .busTransportFailure → Stops s t m
  | timedOut (u : State) (k : PollKind) : m = .pollTest k → s.P.pollMax = some (s.seq.pollcnt + 1) →
      u = { s with seq := { s.seq with pollcnt := s.seq.pollcnt + 1 } } → t = u.abort .deviceTimeout → Stops s t m
  | reset : (∃ k ∈ s.env, k.seqReset = true) → t.seq = { Seq.reset with op := s.seq.op } → t.P = s.P → Stops s t m

/-- What one micro-operation can do. -/
def Flow.From (s : State) (m : Micro) : Flow → Prop
  | .go t => s.GoesOn t m
  | .pause t => s.GoesOn t m
  | .again k t => m = .pollTest k ∧ s.GoesOn t m
  | .halt t => s.Stops t m

theorem primitive_from {s : State} {m : Micro} {f : State → State} (h : s.GoesOn (f s.gap) m) : (s.primitive f).From s m := by
  unfold State.primitive State.inGap Tick.onward
  split
  · exact .reset (now_mem ‹_›) rfl rfl
  · split <;> exact h

theorem frame_from {s : State} {m : Micro} {op : FrameOp} {p : Byte} (hm : m.sends s op p) : (s.frame op p).From s m := by
  have h : s.GoesOn (s.gap.sent op p) m := ⟨rfl, rfl, rfl, rfl, rfl, fun _ => rfl, List.tail_suffix _⟩
  unfold State.frame State.inGap
  split
  · exact .reset (now_mem ‹_›) rfl rfl
  · cases s.now.fate with
    | ok => unfold Tick.onward; dsimp only; split <;> exact h
    | failActed => exact .failed _ op p true hm rfl rfl
    | failLost => exact .failed _ op p false hm rfl rfl

theorem micro_from (s : State) (m : Micro) : (s.micro m).From s m := by
  have hq : ∀ q : Seq, q.busy = s.seq.busy → q.op = s.seq.op → q.result = s.seq.result → q.rdata = s.seq.rdata →
      ((∀ d, m ≠ .setCfg d) → q.cfg = s.seq.cfg) → s.GoesOn { s with seq := q } m :=
    fun q h1 h2 h3 h4 h5 => ⟨rfl, h1, h2, h3, h4, h5, List.suffix_rfl⟩
  have hg : ∀ t : State, t.P = s.P → t.seq.busy = s.seq.busy → t.seq.op = s.seq.op → t.seq.result = s.seq.result →
      t.seq.rdata = s.seq.rdata → t.seq.cfg = s.seq.cfg → t.env = s.env.tail → s.GoesOn t m :=
    fun t h1 h2 h3 h4 h5 h6 h7 => ⟨h1, h2, h3, h4, h5, fun _ => h6, h7 ▸ List.tail_suffix _⟩
  cases m with
  | hold => exact primitive_from (hg _ rfl rfl rfl rfl rfl rfl rfl)
  | release => exact primitive_from (f := State.release) (hg _ rfl rfl rfl rfl rfl rfl rfl)
  | delay d => exact primitive_from (f := fun t => t.perform (.delay d)) (hg _ rfl rfl rfl rfl rfl rfl rfl)
  | resetLine l => exact primitive_from (f := fun t => t.driveReset l) (hg _ rfl rfl rfl rfl rfl rfl rfl)
  | frame op p => exact frame_from ⟨rfl, rfl⟩
  | writeSet => exact frame_from (op := .datw) ⟨rfl, rfl⟩
  | writeClr => exact frame_from (op := .datw) ⟨rfl, rfl⟩
  | phase p => exact hq _ rfl rfl rfl rfl fun _ => rfl
  | pllDone v => exact hq _ rfl rfl rfl rfl fun _ => rfl
  | forget => exact hq _ rfl rfl rfl rfl fun _ => rfl
  | pollStart => exact hq _ rfl rfl rfl rfl fun _ => rfl
  | setCfg d => exact hq _ rfl rfl rfl rfl fun h => absurd rfl (h d)
  | finish r => exact .finished r rfl rfl
  | pollTest k =>
    simp only [State.micro, State.pollTest]
    split
    · exact hq _ rfl rfl rfl rfl fun _ => rfl
    · split
      · exact .timedOut _ k rfl ‹_› rfl rfl
      · unfold State.inGap
        split
        · exact .reset (now_mem (s := s) ‹_›) rfl rfl
        · exact ⟨rfl, hg _ rfl rfl rfl rfl rfl rfl rfl⟩

/-! ### A calm outside world -/

theorem calm_now {s : State} (h : s.calm = true) : s.now.calm = true := by
  unfold State.now
  cases he : s.env with
  | nil => rfl
  | cons t ts => simp [State.calm, he] at h; exact h.1

theorem calm_of_env {s t : State} (h : s.calm = true) (ht : t.env = s.env.tail) : t.calm = true := by
  unfold State.calm at *
  rw [ht]
  cases he : s.env with
  | nil => rfl
  | cons a l => rw [he] at h; simp_all

@[simp] theorem calm_gap {s : State} (h : s.calm = true) : s.gap.calm = true := calm_of_env h rfl

theorem calm_congr {s t : State} (h : t.env = s.env) : t.calm = s.calm := by simp [State.calm, h]

theorem calm_tick {t : Tick} (h : t.calm = true) : t.fate = .ok ∧ t.pause = false ∧ t.seqReset = false := by
  simpa [Tick.calm, and_assoc] using h

/-- A primitive in a calm world. -/
theorem run_primitive_calm {s : State} (h : s.calm = true) {m : Micro} {f : State → State} (hm : s.micro m = s.primitive f)
    (k : List Micro) : run (m :: k) s = run k (f s.gap) := by
  obtain ⟨-, h2, h3⟩ := calm_tick (calm_now h)
  simp [run, hm, State.primitive, State.inGap, Tick.onward, h2, h3]

/-- A frame in a calm world is sent. -/
theorem frame_calm {s : State} (h : s.calm = true) (op : FrameOp) (p : Byte) : s.frame op p = .go (s.gap.sent op p) := by
  obtain ⟨h1, h2, h3⟩ := calm_tick (calm_now h)
  simp [State.frame, State.inGap, Tick.onward, h1, h2, h3]

theorem run_frame_calm {s : State} (h : s.calm = true) (op : FrameOp) (p : Byte) (k : List Micro) :
    run (.frame op p :: k) s = run k (s.gap.sent op p) := by
  simp [run, State.micro, frame_calm h]

theorem run_hold_calm {s : State} (h : s.calm = true) (k : List Micro) :
    run (.hold :: k) s
      = run k { s.gap.perform .hold with seq := { (s.gap.perform .hold).seq with hold := true } } :=
  run_primitive_calm h (f := fun t => { t.perform .hold with seq := { (t.perform .hold).seq with hold := true } }) rfl k

theorem run_release_calm {s : State} (h : s.calm = true) (k : List Micro) : run (.release :: k) s = run k s.gap.release :=
  run_primitive_calm h (f := State.release) rfl k

theorem run_delay_calm {s : State} (h : s.calm = true) (d : Dur) (k : List Micro) :
    run (.delay d :: k) s = run k (s.gap.perform (.delay d)) :=
  run_primitive_calm h (f := fun t => t.perform (.delay d)) rfl k

theorem run_resetLine_calm {s : State} (h : s.calm = true) (l : Bool) (k : List Micro) :
    run (.resetLine l :: k) s = run k (s.gap.driveReset l) :=
  run_primitive_calm h (f := fun t => t.driveReset l) rfl k

@[simp] theorem run_phase (s : State) (p : Phase) (k : List Micro) :
    run (.phase p :: k) s = run k { s with seq := { s.seq with phase := p } } := rfl

@[simp] theorem run_pllDone (s : State) (v : Bool) (k : List Micro) :
    run (.pllDone v :: k) s = run k { s with seq := { s.seq with pllDone := v } } := rfl

@[simp] theorem run_forget (s : State) (k : List Micro) :
    run (.forget :: k) s = run k { s with seq := { s.seq with cur := .unknown } } := rfl

@[simp] theorem run_pollStart (s : State) (k : List Micro) :
    run (.pollStart :: k) s = run k { s with seq := { s.seq with pollcnt := 0 } } := rfl

@[simp] theorem run_setCfg (s : State) (d : Depth) (k : List Micro) :
    run (.setCfg d :: k) s = run k { s with seq := { s.seq with cfg := some ⟨s.seq.op.width, s.seq.op.height, d, s.P.chipSelect, s.P.hasResetLine, s.P.hasIntLine⟩ } } := rfl

@[simp] theorem run_finish (s : State) (r : Ret) (k : List Micro) : run (.finish r :: k) s = s.finish .ok r := rfl

@[simp] theorem run_nil (s : State) : run [] s = s.keep [] := rfl

/-! ### Register writes and reads in a calm world -/

/-- `WrReg(a, b)` in a calm world: two frames, each after its gap. -/
def State.wrote (s : State) (a b : Byte) : State := (s.gap.sent .cmdw a).gap.sent .datw b

/-- `RdReg(a)` in a calm world. -/
def State.didRead (s : State) (a : Byte) : State := (s.gap.sent .cmdw a).gap.sent .datr 0x00

theorem calm_wrote {s : State} (h : s.calm = true) (a b : Byte) : (s.wrote a b).calm = true :=
  calm_of_env (s := s.gap.sent .cmdw a) (calm_of_env h rfl) rfl

theorem calm_didRead {s : State} (h : s.calm = true) (a : Byte) : (s.didRead a).calm = true :=
  calm_of_env (s := s.gap.sent .cmdw a) (calm_of_env h rfl) rfl

theorem run_wrAddr_calm {s : State} (h : s.calm = true) (a b : Byte) (k : List Micro) :
    run (wrAddr a b ++ k) s = run k (s.wrote a b) := by
  simp only [wrAddr, List.cons_append, List.nil_append]
  rw [run_frame_calm h, run_frame_calm (calm_of_env h rfl)]
  rfl

theorem run_rdAddr_calm {s : State} (h : s.calm = true) (a : Byte) (k : List Micro) :
    run (rdAddr a ++ k) s = run k (s.didRead a) := by
  simp only [rdAddr, List.cons_append, List.nil_append]
  rw [run_frame_calm h, run_frame_calm (calm_of_env h rfl)]
  rfl

/-! ### A bus-held window that is no command's, in a calm world -/

@[simp] theorem devAtFrame_cur (s : State) (k : Nat) : (s.devAtFrame k).cur = s.dev.cur := completeAll_cur _ _
@[simp] theorem devAtFrame_mem (s : State) (k : Nat) : (s.devAtFrame k).mem = s.dev.mem := completeAll_mem _ _
@[simp] theorem devAtFrame_cell (s : State) (k : Nat) (x : Byte) : (s.devAtFrame k).cell x = s.dev.cell x := completeAll_cell _ _ x
@[simp] theorem devAtFrame_oplog (s : State) (k : Nat) : (s.devAtFrame k).oplog = s.dev.oplog := completeAll_oplog _ _
@[simp] theorem devAtFrame_logHeads (s : State) (k : Nat) : (s.devAtFrame k).logHeads = s.dev.logHeads := completeAll_logHeads _ _
@[simp] theorem devAtFrame_rstIfUnk (s : State) (k : Nat) : (s.devAtFrame k).rstIfUnk = s.dev.rstIfUnk :=
  completeAll_rstIfUnk _ _

theorem curAfter_curAfterWrite (s : State) (b : Byte) : s.seq.curAfter s.P .datw b = s.curAfterWrite b := by
  simp only [curAfter_datw, State.curAfterWrite, Seq.resetsDevice]
  congr 1
  simp

theorem calm_grab {s : State} (h : s.calm = true) : s.grab.calm = true := by
  unfold State.grab
  split
  · exact h
  · exact calm_of_env h rfl

/-- A window of frames that act as `f` on every calm state. -/
theorem inWindow_calm {s : State} (h : s.calm = true) (body : List Micro) (f : State → State)
    (hf : ∀ u k, u.calm = true → (f u).calm = true ∧ run (body ++ k) u = run k (f u)) :
    s.inWindow body = (s.drop (f s.grab)).keep [] := by
  have hg := calm_grab h
  unfold State.inWindow State.drop
  by_cases hh : s.seq.hold = true
  · have := (hf s.grab [] hg).2
    rw [List.append_nil] at this
    simp [hh, State.grab] at this ⊢
    exact this
  · have hgrab : s.grab = { s.gap.perform .hold with seq := { (s.gap.perform .hold).seq with hold := true } } := by
      simp [State.grab, hh]
    simp only [hh, List.cons_append, List.nil_append]
    rw [if_neg (by simp), if_neg (by simp), run_hold_calm h, ← hgrab, (hf _ _ hg).2, run_release_calm (hf _ [] hg).1]
    rfl

/-- A window of one frame. -/
theorem inWindow_frame {s : State} (h : s.calm = true) (op : FrameOp) (p : Byte) :
    s.inWindow [.frame op p] = (s.drop (s.grab.gap.sent op p)).keep [] :=
  inWindow_calm h _ (fun u => u.gap.sent op p) fun _ _ hu => ⟨calm_of_env hu rfl, run_frame_calm hu op p _⟩

/-- A window of one register write. -/
theorem inWindow_wrAddr {s : State} (h : s.calm = true) (a b : Byte) :
    s.inWindow (wrAddr a b) = (s.drop (s.grab.wrote a b)).keep [] :=
  inWindow_calm h _ (fun u => u.wrote a b) fun _ _ hu => ⟨calm_wrote hu a b, run_wrAddr_calm hu a b _⟩

@[simp] theorem complete_nothing (d : Dev) : d.complete {} = d := rfl

theorem completeAll_take_one (d : Dev) (l : List Tick) : d.completeAll (l.take 1) = d.complete (l.headD {}) := by
  cases l <;> rfl

theorem completeAll_take_two (d : Dev) (l : List Tick) :
    d.completeAll (l.take 2) = (d.complete (l.headD {})).complete (l.tail.headD {}) := by
  rcases l with _ | ⟨a, _ | ⟨b, l⟩⟩ <;> rfl

/-- A frame that is no command's, in a calm world, said whole: DEV acts on it as the completion steps before it leave it. -/
theorem inWindow_frame_after {s : State} (h : s.calm = true) (op : FrameOp) (p : Byte) :
    let r := (s.devAtFrame 0).reply s.P s.draws op
    s.inWindow [.frame op p]
      = s.afterWindow
          { s.seq with
            cur := s.seq.curAfter s.P op p
            rx := r.getD s.seq.rx
            rxPrev := if r.isSome then s.seq.rx else s.seq.rxPrev }
          ((s.devAtFrame 0).after s.P s.draws op p) 1 [.xfer op p r] := by
  intro r
  rw [inWindow_frame h]
  cases hh : s.seq.hold
  · have hr : r = ((s.dev.complete s.now).complete (s.env.tail.headD {})).reply s.P s.draws op := by
      simp [r, State.devAtFrame, hh, completeAll_take_two, State.now]
    have hc : s.closingTicks 1 = (s.env.drop 2).take 1 := by simp [State.closingTicks, hh]
    simp only [State.afterWindow, State.after, State.windowTicks, State.windowPrims, hh, hc, completeAll_take_one,
      State.devAtFrame, hr, State.drop, State.grab]
    rcases he : s.env with _ | ⟨a, _ | ⟨b, l⟩⟩ <;>
      simp [State.keep, State.release, State.gap, State.sent, State.perform, State.now, events, he, Seq.curAfter,
        Seq.resetsDevice, Dev.completeAll]
  · have hr : r = (s.dev.complete s.now).reply s.P s.draws op := by
      simp [r, State.devAtFrame, hh, completeAll_take_one, State.now]
    simp only [State.afterWindow, State.after, State.windowTicks, State.windowPrims, State.closingTicks, hh,
      State.devAtFrame, hr, State.drop, State.grab]
    rcases he : s.env with _ | ⟨a, l⟩ <;>
      simp [State.keep, State.gap, State.sent, State.perform, State.now, events, he, Dev.completeAll, hh]

/-- A list of register writes, one after the other. -/
def State.wroteAll (s : State) (w : List (Byte × Byte)) : State := w.foldl (fun s e => s.wrote e.1 e.2) s

theorem calm_wroteAll {s : State} (h : s.calm = true) (w : List (Byte × Byte)) : (s.wroteAll w).calm = true := by
  induction w generalizing s with
  | nil => exact h
  | cons e w ih => exact ih (calm_wrote h _ _)

theorem run_wrTable_calm {s : State} (h : s.calm = true) (w : List (Byte × Byte)) (k : List Micro) :
    run (wrTable w ++ k) s = run k (s.wroteAll w) := by
  induction w generalizing s with
  | nil => rfl
  | cons e w ih =>
    rw [show wrTable (e :: w) = wrAddr e.1 e.2 ++ wrTable w from rfl, List.append_assoc, run_wrAddr_calm h,
      ih (calm_wrote h _ _)]
    rfl

/-- What SEQ keeps and counts over a register write. -/
theorem wrote_P (s : State) (a b : Byte) : (s.wrote a b).P = s.P := rfl
theorem wrote_env (s : State) (a b : Byte) : (s.wrote a b).env = s.env.drop 2 := by
  show s.env.tail.tail = s.env.drop 2
  rcases s.env with _ | ⟨_, _ | _⟩ <;> rfl
/-- SEQ after a register write: the shadow is at the register, moved by the policy, or `?` after a device reset. -/
theorem wrote_seq (s : State) (a b : Byte) :
    (s.wrote a b).seq = { s.seq with
      step := s.seq.step + 2
      cur := if a = s.P.addr .PWR ∧ b &&& s.P.pwrRst ≠ 0 then .unknown else .known (advByte s.P a) } := by
  simp only [State.wrote, State.sent, State.gap, State.perform, reply_cmdw, reply_datw, Seq.curAfter, Seq.resetsDevice,
    Option.getD_none, Option.isSome_none, Bool.false_eq_true, if_false, adv, Unk.map, advByte]
  congr 1
  simp
theorem wrote_bus (s : State) (a b : Byte) :
    (s.wrote a b).bus = s.bus ++ [⟨s.seq.phase, .xfer .cmdw a none⟩, ⟨s.seq.phase, .xfer .datw b none⟩] := by
  show (s.bus ++ _) ++ _ = _
  simp

theorem wrote_port (s : State) (a b : Byte) : (s.wrote a b).port = s.port := rfl
theorem wrote_draws (s : State) (a b : Byte) : (s.wrote a b).draws = s.draws + 2 := rfl
theorem wrote_dev (s : State) (a b : Byte) :
    (s.wrote a b).dev = (((s.dev.complete s.now).cmdw a).complete (s.env.tail.headD {})).datw s.P (s.draws + 1) b := rfl

/-- The same of a register write: DEV acts on each of its two frames as the completion steps before it leave it. -/
theorem inWindow_wrAddr_after {s : State} (h : s.calm = true) (a b : Byte) :
    s.inWindow (wrAddr a b)
      = s.afterWindow
          { s.seq with cur := if a = s.P.addr .PWR ∧ b &&& s.P.pwrRst ≠ 0 then .unknown else .known (advByte s.P a) }
          (((s.devAtFrame 1).cmdw a).datw s.P (s.draws + 1) b) 2 (writePrims [(a, b)]) := by
  rw [inWindow_wrAddr h]
  unfold State.drop State.grab
  cases hh : s.seq.hold
  · rcases he : s.env with _ | ⟨t0, _ | ⟨t1, _ | ⟨t2, _ | ⟨t3, l⟩⟩⟩⟩ <;>
      simp [State.keep, State.release, State.gap, State.perform, wrote_seq, wrote_bus, wrote_P, wrote_env, wrote_dev,
        wrote_draws, wrote_port, State.now, he, hh, State.afterWindow, State.after, State.windowTicks, State.windowPrims, State.closingTicks, State.devAtFrame,
        Dev.completeAll, events, writePrims] <;> trivial
  · rcases he : s.env with _ | ⟨t0, _ | ⟨t1, l⟩⟩ <;>
      simp [State.keep, wrote_seq, wrote_bus, wrote_P, wrote_env, wrote_dev, wrote_draws, wrote_port, State.now, he, hh,
        State.afterWindow, State.after, State.windowTicks, State.windowPrims, State.closingTicks, State.devAtFrame,
        Dev.completeAll, events, writePrims]
    trivial

/-- A register write to plain storage of an idle and awake device. -/
theorem wrote_dev_plain {s : State} {a : Byte} (hp : plainReg s.P a = true) (hw : s.dev.awake s.P = true)
    (hi : s.dev.allIdle = true) (b : Byte) :
    (s.wrote a b).dev = { s.dev.setCell a b with cur := .known (advByte s.P a) } := by
  show ((s.dev.complete s.now).cmdw a |>.complete _).datw s.P _ b = _
  rw [complete_of_allIdle hi, complete_of_allIdle (by exact hi),
    datw_plain_idle (target_known rfl _) hp (inReset_of_awake (by exact hw) _) (by exact hi)]
  rfl

theorem awake_setCell {P : Params} {d : Dev} {a : Byte} (hp : plainReg P a = true) (hw : d.awake P = true) (b : Byte) :
    (d.setCell a b).awake P = true := by
  obtain ⟨-, -, h3⟩ := plainReg_iff.mp hp
  unfold Dev.awake at *
  rw [cell_setCell, if_neg (Ne.symm h3)]
  exact hw

/-- Register writes to plain storage of an idle and awake device: it stays idle and awake, its cells hold the last bytes
written, and nothing else of it changes but the pointer. -/
theorem wroteAll_dev_plain {s : State} (w : List (Byte × Byte)) (hp : ∀ e ∈ w, plainReg s.P e.1 = true)
    (hw : s.dev.awake s.P = true) (hi : s.dev.allIdle = true) :
    (s.wroteAll w).dev.awake s.P = true ∧ (s.wroteAll w).dev.allIdle = true
      ∧ (∀ x, (s.wroteAll w).dev.cell x = lastWrite w x (s.dev.cell x))
      ∧ (s.wroteAll w).dev.oplog = s.dev.oplog ∧ (s.wroteAll w).dev.rstIfUnk = s.dev.rstIfUnk := by
  induction w generalizing s with
  | nil => exact ⟨hw, hi, fun _ => rfl, rfl, rfl⟩
  | cons e w ih =>
    have hd := wrote_dev_plain (hp e List.mem_cons_self) hw hi e.2
    have hw' : (s.wrote e.1 e.2).dev.awake s.P = true := by
      rw [hd]; exact awake_setCell (hp e List.mem_cons_self) hw _
    have hi' : (s.wrote e.1 e.2).dev.allIdle = true := by rw [hd]; exact hi
    obtain ⟨h1, h2, h3, h4, h5⟩ := ih (s := s.wrote e.1 e.2) (fun x hx => hp x (List.mem_cons_of_mem _ hx)) hw' hi'
    refine ⟨h1, h2, fun x => ?_, ?_, ?_⟩
    · rw [show s.wroteAll (e :: w) = (s.wrote e.1 e.2).wroteAll w from rfl, h3 x, hd]
      simp only [lastWrite, List.foldl_cons]
      rw [show ({ s.dev.setCell e.1 e.2 with cur := .known (advByte s.P e.1) } : Dev).cell x
        = (s.dev.setCell e.1 e.2).cell x from rfl, cell_setCell]
    · rw [show s.wroteAll (e :: w) = (s.wrote e.1 e.2).wroteAll w from rfl, h4, hd]; rfl
    · rw [show s.wroteAll (e :: w) = (s.wrote e.1 e.2).wroteAll w from rfl, h5, hd]; rfl

/-- SEQ, the counters and the wire over a list of register writes. -/
theorem wroteAll_rest (s : State) (w : List (Byte × Byte)) :
    (s.wroteAll w).P = s.P ∧ (s.wroteAll w).env = s.env.drop (2 * w.length) ∧ (s.wroteAll w).port = s.port
      ∧ (∃ c, (s.wroteAll w).seq = { s.seq with step := s.seq.step + 2 * w.length, cur := c })
      ∧ (s.wroteAll w).bus = s.bus ++ w.flatMap fun e =>
          [⟨s.seq.phase, .xfer .cmdw e.1 none⟩, ⟨s.seq.phase, .xfer .datw e.2 none⟩] := by
  induction w generalizing s with
  | nil => exact ⟨rfl, by simp [State.wroteAll], rfl, ⟨s.seq.cur, rfl⟩, by simp [State.wroteAll]⟩
  | cons e w ih =>
    obtain ⟨h1, h2, h3, ⟨c, h4⟩, h5⟩ := ih (s.wrote e.1 e.2)
    have hr : s.wroteAll (e :: w) = (s.wrote e.1 e.2).wroteAll w := rfl
    refine ⟨hr ▸ h1, ?_, hr ▸ h3, ⟨c, ?_⟩, ?_⟩
    · rw [hr, h2, wrote_env, List.drop_drop, List.length_cons]; congr 1; omega
    · rw [hr, h4, wrote_seq]; simp only [List.length_cons]; congr 1; omega
    · rw [hr, h5, wrote_bus, wrote_seq, List.flatMap_cons, List.append_assoc]

end Sys2Proof.Machine
end

