-- ==== Sys2Proof/Laws/Closed.lean ====
section
/-! SUPPORT. For the invariants: the shadow over a frame, that what SEQ has in progress ends with SEQ idle, and that it is of the
command in SEQ.op. -/

namespace Sys2Proof.Machine

/-! ### The shadow -/

/-- DEV's log holds a record of an UNKNOWN operation. -/
def Dev.Marked (d : Dev) : Prop := ∃ c, (Engine.unknown, c) ∈ d.logHeads

theorem shadowed_iff (s : State) :
    s.shadowed = true ↔ ∀ a, s.seq.cur = .known a → s.dev.cur = .known a ∨ s.dev.cur = .unknown ∧ s.dev.Marked := by
  have hm : (s.dev.oplog.any fun r => r.engine == .unknown) = true ↔ s.dev.Marked := by
    simp only [List.any_eq_true, Dev.Marked, Dev.logHeads, List.mem_map, Prod.mk.injEq, beq_iff_eq]
    exact ⟨fun ⟨r, h, h'⟩ => ⟨r.code, r, h, h', rfl⟩, fun ⟨_, r, h, h', _⟩ => ⟨r, h, h'⟩⟩
  unfold State.shadowed
  cases s.seq.cur <;> simp [hm]

theorem Marked_after {d : Dev} (h : d.Marked) (P : Params) (n : Nat) (op : FrameOp) (p : Byte) : (d.after P n op p).Marked := by
  obtain ⟨c, hc⟩ := h
  exact ⟨c, (oplog_heads_after P n d op p).subset hc⟩

/-- The shadow over a frame that was sent (rules R54, R139). -/
theorem shadow_after (P : Params) (n : Nat) (d : Dev) (q : Seq) (op : FrameOp) (p : Byte)
    (h : ∀ a, q.cur = .known a → d.cur = .known a ∨ d.cur = .unknown ∧ d.Marked) (a : Byte)
    (ha : q.curAfter P op p = .known a) :
    (d.after P n op p).cur = .known a ∨ (d.after P n op p).cur = .unknown ∧ (d.after P n op p).Marked := by
  have hadv : ∀ u : Unk Byte, adv P u = .known a → ∃ x, u = .known x ∧ advByte P x = a := by
    intro u hu
    cases u with
    | unknown => cases hu
    | known x => exact ⟨x, rfl, Unk.known.inj hu⟩
  cases op with
  | cmdw => exact .inl ha
  | stsr => exact h a ha
  | datr =>
    obtain ⟨x, hx, rfl⟩ := hadv _ ha
    rcases h x hx with hd | ⟨hd, hm⟩
    · exact .inl (by simp [hd, adv, Unk.map])
    · exact .inr ⟨by simp [hd, adv, Unk.map], Marked_after hm P n .datr p⟩
  | datw =>
    rw [curAfter_datw] at ha
    split at ha
    · cases ha
    · rename_i hr
      obtain ⟨x, hx, rfl⟩ := hadv _ ha
      have hcur : (d.after P n .datw p).cur = adv P (d.datwCell P n p).cur := rfl
      have hlog : (d.after P n .datw p).logHeads = (d.datwCell P n p).logHeads := rfl
      rcases h x hx with hd | ⟨hd, hm⟩
      · rcases datwCell_cur P n d p with ⟨hc, -⟩ | ⟨-, ht, hb, -⟩ | ⟨hc, hl⟩
        · exact .inl (by rw [hcur, hc, hd]; rfl)
        · have hxp : x = P.addr .PWR := by simpa [Dev.target, hd] using ht
          exact absurd (by simp [Seq.resetsDevice, hx, hxp]; exact hb) hr
        · exact .inr ⟨by rw [hcur, hc]; rfl, p, by rw [hlog, hl]; simp⟩
      · refine .inr ⟨?_, Marked_after hm P n .datw p⟩
        rcases datwCell_cur P n d p with ⟨hc, -⟩ | ⟨hc, -⟩ | ⟨hc, -⟩ <;> rw [hcur, hc]
        · rw [hd]; rfl
        · rfl
        · rfl

/-- Everything a run can do keeps the shadow invariant. -/
theorem kept_shadowed : Kept fun s => s.shadowed = true where
  seq s q b hq _ hs := by
    rw [shadowed_iff] at hs ⊢
    intro a ha
    rcases hq with hq | hq
    · exact hs a (hq ▸ ha)
    · rw [show q.cur = .known a from ha] at hq; cases hq
  gap s hs := hs
  sent s op p hs := by
    rw [shadowed_iff] at hs ⊢
    exact shadow_after s.P s.draws s.dev s.seq op p hs
  unsent s op p a hs := rfl
  hardReset s hc hs := by
    rw [shadowed_iff]
    intro a ha
    rw [show s.seq.cur = .known a from ha] at hc; cases hc

/-! ### What is in progress ends with SEQ idle -/

/-- Micro-operations that change none of the outputs, the bus held. -/
theorem closes_append_plain (r b i : Bool) (l k : List Micro)
    (hl : ∀ m ∈ l, (∃ op p, m = .frame op p) ∨ m = .writeSet ∨ m = .writeClr ∨ (∃ d, m = .delay d) ∨ m = .pollStart
      ∨ m = .forget ∨ (∃ v, m = .pllDone v) ∨ (∃ c, m = .setCfg c) ∨ (∃ p, m = .pollTest p)) :
    closes true r b i (l ++ k) = closes true r b i k := by
  induction l with
  | nil => rfl
  | cons m l ih =>
    have := ih (fun m hm => hl m (List.mem_cons_of_mem _ hm))
    rcases hl m List.mem_cons_self with ⟨_, _, rfl⟩ | rfl | rfl | ⟨_, rfl⟩ | rfl | rfl | ⟨_, rfl⟩ | ⟨_, rfl⟩ | ⟨_, rfl⟩ <;> exact this

/-- Running `k` from `s` leaves SEQ idle. -/
def State.closesWith (s : State) (k : List Micro) : Bool :=
  closes s.seq.hold s.seq.resetn s.seq.busy (s.seq.phase == .idle) k

theorem abort_closed (s : State) (x) : (s.abort x).closed = true := by
  have h := (abort_cases s x).idle
  simp only [State.idle, Bool.and_eq_true, List.isEmpty_iff] at h
  obtain ⟨⟨⟨⟨h1, h2⟩, h3⟩, h4⟩, h5⟩ := h
  simp [State.closed, h5, closes, h1, h2, h3, h4]

theorem reset_closed (s : State) : s.resetSeq.closed = true := by simp [State.closed, closes]

/-- Whatever a micro-operation leads to leaves SEQ idle in the end: `k` is what follows it, `m` it and what follows. -/
def Flow.closes (k m : List Micro) : Flow → Prop
  | .go t => t.closesWith k = true
  | .pause t => t.closesWith k = true
  | .halt t => t.closed = true
  | .again _ t => t.seq.hold = true ∧ t.closesWith m = true

theorem closes_frame (s : State) (op p k m) (hk : s.closesWith k = true) : Flow.closes k m (s.frame op p) := by
  unfold State.frame State.inGap Tick.onward
  by_cases h1 : s.now.seqReset = true
  · simp only [h1, if_true]; exact reset_closed _
  · simp only [h1]
    cases s.now.fate with
    | ok => cases s.now.pause <;> exact hk
    | failActed => exact abort_closed _ _
    | failLost => exact abort_closed _ _

theorem closes_prim (s : State) (g : State → State) (k m) (hk : (g s.gap).closesWith k = true) : Flow.closes k m (s.primitive g) := by
  unfold State.primitive State.inGap Tick.onward
  by_cases h1 : s.now.seqReset = true
  · simp only [h1, if_true]; exact reset_closed _
  · simp only [h1]; cases s.now.pause <;> exact hk

theorem of_hold {a b : Bool} (h : (a && b) = true) : a = true ∧ b = true := by simpa using h

theorem closes_micro (s : State) (m : Micro) (k) (hk : s.closesWith (m :: k) = true) : Flow.closes k (m :: k) (s.micro m) := by
  cases m with
  | hold => exact closes_prim s _ k _ hk
  | release => exact closes_prim s State.release k _ hk
  | delay d => exact closes_prim s _ k _ hk
  | resetLine l => exact closes_prim s (fun t => t.driveReset l) k _ hk
  | frame op p => exact closes_frame s op p k _ (of_hold hk).2
  | writeSet => exact closes_frame s .datw (setRst s.P s.seq.rx) k _ (of_hold hk).2
  | writeClr => exact closes_frame s .datw (clrRst s.P s.seq.rx) k _ (of_hold hk).2
  | phase p => exact hk
  | pllDone v => exact hk
  | forget => exact hk
  | pollStart => exact hk
  | setCfg d => exact hk
  | finish r =>
    have : s.seq.hold = false ∧ s.seq.resetn = true := by simpa [State.closesWith, Machine.closes] using hk
    simp [State.micro, Flow.closes, State.closed, closes, this]
  | pollTest p =>
    simp only [State.micro, State.pollTest]
    by_cases h1 : s.seq.rx &&& p.mask = 0
    · simp only [h1, if_true]; exact (of_hold hk).2
    · simp only [h1, if_false]
      by_cases h2 : s.P.pollMax = some (s.seq.pollcnt + 1)
      · simp only [h2, if_true]; exact abort_closed _ _
      · simp only [h2, if_false, State.inGap]
        split
        · exact reset_closed _
        · exact ⟨(of_hold hk).1, hk⟩

theorem run_closed (k : List Micro) (s : State) (hk : s.closesWith k = true) : (run k s).closed = true := by
  induction k generalizing s with
  | nil => exact hk
  | cons m k ih =>
    have := closes_micro s m k hk
    simp only [run]
    cases hf : s.micro m with
    | go t => rw [hf] at this; exact ih t this
    | pause t => rw [hf] at this; exact this
    | halt t => rw [hf] at this; exact this
    | again p t =>
      rw [hf] at this
      obtain ⟨h1, h2⟩ := this
      unfold State.closesWith at h2
      show closes t.seq.hold t.seq.resetn t.seq.busy (t.seq.phase == .idle) (pollFrames p ++ m :: k) = true
      rw [h1] at h2 ⊢
      rw [closes_append_plain]; exact h2
      intro m hm; cases p <;> simp [pollFrames] at hm <;> rcases hm with rfl | rfl <;> exact .inl ⟨_, _, rfl⟩

@[simp] theorem closes_wrTable (r b i : Bool) (w : List (Byte × Byte)) (k : List Micro) :
    closes true r b i (wrTable w ++ k) = closes true r b i k := by
  apply closes_append_plain
  intro m hm
  simp [wrTable, wrAddr] at hm
  obtain ⟨_, _, _, rfl | rfl⟩ := hm <;> exact .inl ⟨_, _, rfl⟩

theorem closes_draw2 (h b i : Bool) (P d o t) : closes h true b i (draw2 P d o t) = true := rfl
theorem closes_draw3 (h b i : Bool) (P d o t) : closes h true b i (draw3 P d o t) = true := rfl
theorem closes_drawC (h b i : Bool) (P d o t) : closes h true b i (drawC P d o t) = true := rfl
theorem closes_bteCopy (h b i : Bool) (P d o) : closes h true b i (bteCopy P d o) = true := by
  unfold bteCopy; cases o.transparent <;> rfl
theorem closes_init (h b i : Bool) (P o p) : closes h true b i (initProgram P o p) = true := by
  unfold initProgram resetSteps
  simp only [List.append_assoc]
  cases P.hasResetLine <;> simp [closes, hardResetSteps, softResetSteps, wrReg, wrAddr, rdAddr, wr16, wr16Addr]
theorem closes_command (h b i : Bool) (r) (body : List Micro) (hb : ∀ m ∈ body, ∃ op p, m = .frame op p) : closes h true b i (window body r) = true := by
  show closes true true b i (body ++ [.release, .finish r]) = true
  rw [closes_append_plain]; rfl
  exact fun m hm => .inl (hb m hm)

theorem exec_closed (i : Instr) (s t : State) (hc : s.closed = true) (hu : s.seq.ucode = []) (hb : s.seq.busy = false) (h : exec i s = .next t) : t.closed = true := by
  have hi : (s.seq.hold = false ∧ s.seq.resetn = true) ∧ s.seq.phase = .idle := by
    simpa [State.closed, closes, hu, hb] using hc
  obtain ⟨⟨h1, h2⟩, h3⟩ := hi
  have hacc : ∀ o k, (∀ h b i, closes h true b i k = true) → (run k (s.accept o)).closed = true := by
    intro o k hk
    refine run_closed _ _ ?_
    show closes _ s.seq.resetn _ _ k = true
    rw [h2]; exact hk _ _ _
  have hraw : ∀ k, (∀ m ∈ k, ∃ op p, m = Micro.frame op p) → (s.inWindow k).closed = true := by
    intro k hk
    unfold State.inWindow
    rw [h1, if_neg (by simp), List.append_assoc]
    refine run_closed _ _ ?_
    show closes true s.seq.resetn s.seq.busy (s.seq.phase == .idle) (k ++ [.release]) = true
    rw [closes_append_plain _ _ _ k _ fun m hm => .inl (hk m hm)]
    simp [closes, h2, h3, hb]
  have hcom : ∀ o k r, (∀ m ∈ k, ∃ op p, m = Micro.frame op p) → s.command o (window k r) = .next t → t.closed = true := by
    intro o k r hk h
    simp only [State.command, hb] at h
    obtain rfl := Host.Outcome.next.inj h; exact hacc _ _ fun h b i => closes_command h b i r k hk
  have hdraw : ∀ o (k : Depth → List Micro), (∀ d h b i, closes h true b i (k d) = true) → s.draw o k = .next t → t.closed = true := by
    intro o k hk h
    simp only [State.draw, hb] at h
    cases hcfg : s.seq.cfg with
    | none => rw [hcfg] at h; simp at h
    | some c => rw [hcfg] at h; obtain rfl := Host.Outcome.next.inj h; exact hacc _ _ (hk _)
  cases i with
  | init w hh d =>
    simp only [exec, execInit, hb] at h
    split at h
    · rename_i hx; cases hx
    · split at h
      · obtain rfl := Host.Outcome.next.inj h; simp [State.closed, closes, h1, h2]
      · obtain rfl := Host.Outcome.next.inj h; exact hacc _ _ fun h b i => closes_init h b i _ _ _
  | btecopy sl sx sy w hh dl dx dy tr key =>
    simp only [exec, execBtecopy, hb] at h
    split at h
    · rename_i hx; cases hx
    · split at h
      · cases h
      · split at h
        · split at h
          · obtain rfl := Host.Outcome.next.inj h; simp [State.closed, closes, h1, h2]
          · obtain rfl := Host.Outcome.next.inj h; exact hacc _ _ fun h b i => closes_bteCopy h b i _ _ _
        · cases h
  | line =>
    simp only [exec, execLine] at h
    exact hdraw _ _ (fun d h b i => closes_draw2 h b i _ _ _ _) h
  | rect =>
    simp only [exec, execRect] at h
    exact hdraw _ _ (fun d h b i => closes_draw2 h b i _ _ _ _) h
  | frect =>
    simp only [exec, execFrect] at h
    exact hdraw _ _ (fun d h b i => closes_draw2 h b i _ _ _ _) h
  | tri =>
    simp only [exec, execTri] at h
    exact hdraw _ _ (fun d h b i => closes_draw3 h b i _ _ _ _) h
  | ftri =>
    simp only [exec, execFtri] at h
    exact hdraw _ _ (fun d h b i => closes_draw3 h b i _ _ _ _) h
  | circ =>
    simp only [exec, execCirc] at h
    exact hdraw _ _ (fun d h b i => closes_drawC h b i _ _ _ _) h
  | fcirc =>
    simp only [exec, execFcirc] at h
    exact hdraw _ _ (fun d h b i => closes_drawC h b i _ _ _ _) h
  | wrcmd =>
    simp only [exec, execWrcmd] at h
    exact hcom _ _ _ (by simp) h
  | wrdata =>
    simp only [exec, execWrdata] at h
    exact hcom _ _ _ (by simp) h
  | rddata =>
    simp only [exec, execRddata] at h
    exact hcom _ _ _ (by simp) h
  | rdstatus =>
    simp only [exec, execRdstatus] at h
    exact hcom _ _ _ (by simp) h
  | wrreg =>
    simp only [exec, execWrreg] at h
    exact hcom _ _ _ (by simp [wrAddr]) h
  | rdreg =>
    simp only [exec, execRdreg] at h
    exact hcom _ _ _ (by simp [rdAddr]) h
  | wr16 =>
    simp only [exec, execWr16] at h
    exact hcom _ _ _ (by simp [wr16Addr, wrAddr]) h
  | rd16 =>
    simp only [exec, execRd16] at h
    exact hcom _ _ _ (by simp [rdAddr]) h
  | _ => obtain rfl := Host.Outcome.next.inj h; exact hraw _ (by simp [wrReg, wrAddr])

/-! ### What is in progress is of the command in SEQ.op -/

/-- `Micro.fits` reads SEQ.busy and SEQ.op alone. -/
theorem fits_congr {q q' : Seq} (hb : q'.busy = q.busy) (ho : q'.op = q.op) (m : Micro) : m.fits q' = m.fits q := by
  cases m <;> simp [Micro.fits, hb, ho]

theorem all_fits_congr {q q' : Seq} (hb : q'.busy = q.busy) (ho : q'.op = q.op) (k : List Micro) :
    k.all (Micro.fits q') = k.all (Micro.fits q) := by
  induction k with
  | nil => rfl
  | cons m k ih => simp [fits_congr hb ho, ih]

theorem stops_ucode {s t : State} {m : Micro} (h : s.Stops t m) : t.seq.ucode = [] ∧ t.seq.busy = false := by
  cases h with
  | finished r _ ht => subst ht; exact ⟨rfl, rfl⟩
  | failed u op p a _ _ ht =>
    subst ht
    have h := (abort_cases u .busTransportFailure).idle
    simp only [State.idle, Bool.and_eq_true, List.isEmpty_iff, Bool.not_eq_true'] at h
    exact ⟨h.2, h.1.1.2⟩
  | timedOut u k _ _ _ ht =>
    subst ht
    have h := (abort_cases u .deviceTimeout).idle
    simp only [State.idle, Bool.and_eq_true, List.isEmpty_iff, Bool.not_eq_true'] at h
    exact ⟨h.2, h.1.1.2⟩
  | reset _ ht _ => rw [ht]; exact ⟨rfl, rfl⟩

/-- A run of micro-operations of the command in SEQ.op leaves only such. -/
theorem run_fits (k : List Micro) (s : State) (h : k.all (Micro.fits s.seq) = true) : (run k s).fits = true := by
  induction k generalizing s with
  | nil => rfl
  | cons m k ih =>
    have hm := micro_from s m
    simp only [List.all_cons, Bool.and_eq_true] at h
    simp only [run]
    cases hf : s.micro m with
    | go t =>
      rw [hf] at hm
      exact ih t (by rw [all_fits_congr hm.busy hm.op]; exact h.2)
    | pause t =>
      rw [hf] at hm
      show k.all (Micro.fits t.seq) = true
      rw [all_fits_congr hm.busy hm.op]; exact h.2
    | halt t =>
      rw [hf] at hm
      show t.seq.ucode.all _ = true
      rw [(stops_ucode hm).1]; rfl
    | again p t =>
      rw [hf] at hm
      obtain ⟨rfl, hm⟩ := hm
      show (pollFrames p ++ .pollTest p :: k).all (Micro.fits t.seq) = true
      rw [all_fits_congr hm.busy hm.op, List.all_append, List.all_cons, h.1, h.2]
      have h1 : (s.seq.busy && engineCodes.contains s.seq.op.code && !s.seq.op.zeroSize) = true := h.1
      simp only [Bool.and_eq_true, Bool.not_eq_true'] at h1
      cases p <;> simp [pollFrames, Micro.fits, h1.2]

/-- Frames and plain micro-operations belong to every SEQ that is not in a block copy of zero size. -/
theorem fits_plain {q : Seq} (h : q.op.zeroSize = false) (k : List Micro)
    (hk : ∀ m ∈ k, (∀ p, m ≠ .pollTest p) ∧ ∀ d, m ≠ .setCfg d) : k.all (Micro.fits q) = true := by
  rw [List.all_eq_true]
  intro m hm
  obtain ⟨h1, h2⟩ := hk m hm
  cases m <;> first | rfl | exact absurd rfl (h1 _) | exact absurd rfl (h2 _) | simp [Micro.fits, h]

theorem wrTable_fits {q : Seq} (h : q.op.zeroSize = false) (w : List (Byte × Byte)) : (wrTable w).all (Micro.fits q) = true :=
  fits_plain h _ fun m hm => by
    simp only [wrTable, wrAddr, List.mem_flatMap, List.mem_cons, List.not_mem_nil, or_false] at hm
    obtain ⟨_, _, rfl | rfl⟩ := hm <;> exact ⟨nofun, nofun⟩

theorem pollingRest_fits {q : Seq} (hb : q.busy = true) (he : engineCodes.contains q.op.code = true) (h : q.op.zeroSize = false)
    (k : PollKind) : (pollingRest k).all (Micro.fits q) = true := by
  cases k <;>
    simp only [pollingRest, pollFrames, Micro.fits, hb, he, h, List.all_cons, List.all_nil, List.cons_append, List.nil_append] <;> rfl

/-- What an idle SEQ has in progress after an instruction is of the command in SEQ.op. -/
theorem exec_fits {i : Instr} {s t : State} (hb : s.seq.busy = false) (h : exec i s = .next t) : t.fits = true := by
  have hraw : ∀ k, (∀ m ∈ k, ∃ op p, m = Micro.frame op p) → (s.inWindow k).fits = true := by
    intro k hk
    unfold State.inWindow
    refine run_fits _ _ ?_
    rw [List.all_eq_true]
    intro m hm
    have : m = .hold ∨ m = .release ∨ m ∈ k := by
      by_cases hh : s.seq.hold = true <;> simp [hh] at hm <;> tauto
    rcases this with rfl | rfl | hm
    · rfl
    · rfl
    · obtain ⟨_, _, rfl⟩ := hk m hm
      simp [Micro.fits, hb]
  have hcom : ∀ o k r, o.zeroSize = false → (∀ m ∈ k, ∃ op p, m = Micro.frame op p) → s.command o (window k r) = .next t →
      t.fits = true := by
    intro o k r ho hk h
    simp only [State.command, hb] at h
    obtain rfl := Host.Outcome.next.inj h
    refine run_fits _ _ (fits_plain ho _ ?_)
    intro m hm
    simp only [window, List.mem_append, List.mem_cons, List.not_mem_nil, or_false] at hm
    rcases hm with (rfl | hm) | rfl | rfl
    · exact ⟨nofun, nofun⟩
    · obtain ⟨_, _, rfl⟩ := hk m hm; exact ⟨nofun, nofun⟩
    · exact ⟨nofun, nofun⟩
    · exact ⟨nofun, nofun⟩
  have heng : ∀ o w1 w2 k, engineCodes.contains o.code = true → o.zeroSize = false →
      (run ([.hold] ++ wrTable w1 ++ ([.phase .paramsStaged] ++ wrTable w2 ++ [.phase .triggered, .pollStart] ++ pollingRest k))
        (s.accept o)).fits = true := by
    intro o w1 w2 k he hz
    refine run_fits _ _ ?_
    have h1 := wrTable_fits (q := (s.accept o).seq) hz w1
    have h2 := wrTable_fits (q := (s.accept o).seq) hz w2
    have h3 := pollingRest_fits (q := (s.accept o).seq) rfl he hz k
    simp only [List.all_append, h1, h2, h3]
    rfl
  have hdraw : ∀ o (k : Depth → List Micro), (∀ d, ∃ w1 w2 p, k d = [.hold] ++ wrTable w1 ++ ([.phase .paramsStaged] ++ wrTable w2
      ++ [.phase .triggered, .pollStart] ++ pollingRest p)) → engineCodes.contains o.code = true → (o.code == 0x30) = false →
      s.draw o k = .next t → t.fits = true := by
    intro o k hk he hc h
    simp only [State.draw, hb] at h
    cases hcfg : s.seq.cfg with
    | none => rw [hcfg] at h; simp at h
    | some c =>
      rw [hcfg] at h; obtain rfl := Host.Outcome.next.inj h
      obtain ⟨w1, w2, p, hk⟩ := hk c.colorDepth
      rw [hk]; exact heng o w1 w2 p he (by rw [Op.zeroSize, hc]; rfl)
  cases i with
  | init w hh d =>
    simp only [exec, execInit, hb] at h
    split at h
    · rename_i hx; cases hx
    · split at h
      · obtain rfl := Host.Outcome.next.inj h; rfl
      · obtain rfl := Host.Outcome.next.inj h
        rename_i p hp
        refine run_fits _ _ ?_
        rw [initProgram_eq]
        have hz : (s.accept { s.seq.op with code := 0x10, width := w, height := hh, depth := d }).seq.op.zeroSize = false := rfl
        have hr : (resetSteps s.P).all
            (Micro.fits (s.accept { s.seq.op with code := 0x10, width := w, height := hh, depth := d }).seq) = true := by
          refine fits_plain hz _ ?_
          unfold resetSteps hardResetSteps softResetSteps rdAddr
          split <;> simp
        simp only [List.all_append, wrTable_fits hz, hr]
        rfl
  | btecopy sl sx sy w hh dl dx dy tr key =>
    simp only [exec, execBtecopy, hb] at h
    split at h
    · rename_i hx; cases hx
    · split at h
      · cases h
      · split at h
        · split at h
          · obtain rfl := Host.Outcome.next.inj h; rfl
          · obtain rfl := Host.Outcome.next.inj h
            rename_i hz
            rw [bteCopy_eq]
            refine heng _ _ _ _ (by rfl) ?_
            simpa [Op.zeroSize, Op.copy] using hz
        · cases h
  | line => exact hdraw _ _ (fun d => ⟨_, _, _, draw2_eq _ d _ _⟩) (by rfl) (by rfl) h
  | rect => exact hdraw _ _ (fun d => ⟨_, _, _, draw2_eq _ d _ _⟩) (by rfl) (by rfl) h
  | frect => exact hdraw _ _ (fun d => ⟨_, _, _, draw2_eq _ d _ _⟩) (by rfl) (by rfl) h
  | tri => exact hdraw _ _ (fun d => ⟨_, _, _, draw3_eq _ d _ _⟩) (by rfl) (by rfl) h
  | ftri => exact hdraw _ _ (fun d => ⟨_, _, _, draw3_eq _ d _ _⟩) (by rfl) (by rfl) h
  | circ => exact hdraw _ _ (fun d => ⟨_, _, _, drawC_eq _ d _ _⟩) (by rfl) (by rfl) h
  | fcirc => exact hdraw _ _ (fun d => ⟨_, _, _, drawC_eq _ d _ _⟩) (by rfl) (by rfl) h
  | wrcmd => exact hcom _ _ _ (by rfl) (by simp) h
  | wrdata => exact hcom _ _ _ (by rfl) (by simp) h
  | rddata => exact hcom _ _ _ (by rfl) (by simp) h
  | rdstatus => exact hcom _ _ _ (by rfl) (by simp) h
  | wrreg => exact hcom _ _ _ (by rfl) (by simp [wrAddr]) h
  | rdreg => exact hcom _ _ _ (by rfl) (by simp [rdAddr]) h
  | wr16 => exact hcom _ _ _ (by rfl) (by simp [wr16Addr, wrAddr]) h
  | rd16 => exact hcom _ _ _ (by rfl) (by simp [rdAddr]) h
  | _ => obtain rfl := Host.Outcome.next.inj h; exact hraw _ (by simp [wrReg, wrAddr])

end Sys2Proof.Machine
end

