-- ==== Sys2Proof/Laws/PerInstr.lean ====
section
/-! SUPPORT. The families of statements made instruction by instruction. -/

/-! ### FixedLength (rule R116): "a frame is always 2 bytes, a trigger byte always 1, and a command's operand list is fixed
by its code". -/

/-- How many bytes an instruction has, from its format and, for a command, its code alone. -/
def Sys2Proof.Laws.FixedLength.bytes (f : Sys2Proof.Format) (code : Sys2Proof.Byte) : Nat :=
  match f with
  | .frame16 => 2
  | .dcr8 => 1
  | .bterop8 => 1
  | .btestart8 => 1
  | .pwr8 => 1
  | .seqcmd => 1 + Sys2Proof.operandBytes code

/-- The encoding of an instruction is as long as its format and its first byte say. -/
def Sys2Proof.Laws.FixedLength.Statement (i : Sys2Proof.Instr) : Prop :=
  (Sys2Proof.encode i).length = Sys2Proof.Laws.FixedLength.bytes i.format ((Sys2Proof.encode i).headD 0)

theorem Sys2Proof.Laws.FixedLength.cmdw (a : Sys2Proof.Byte) :
    Sys2Proof.Laws.FixedLength.Statement (.cmdw a) := rfl

theorem Sys2Proof.Laws.FixedLength.datw (b : Sys2Proof.Byte) :
    Sys2Proof.Laws.FixedLength.Statement (.datw b) := rfl

theorem Sys2Proof.Laws.FixedLength.datr (p : Sys2Proof.Byte) :
    Sys2Proof.Laws.FixedLength.Statement (.datr p) := rfl

theorem Sys2Proof.Laws.FixedLength.stsr (p : Sys2Proof.Byte) :
    Sys2Proof.Laws.FixedLength.Statement (.stsr p) := rfl

theorem Sys2Proof.Laws.FixedLength.tLine :
    Sys2Proof.Laws.FixedLength.Statement (.tLine) := rfl

theorem Sys2Proof.Laws.FixedLength.tRect :
    Sys2Proof.Laws.FixedLength.Statement (.tRect) := rfl

theorem Sys2Proof.Laws.FixedLength.tFrect :
    Sys2Proof.Laws.FixedLength.Statement (.tFrect) := rfl

theorem Sys2Proof.Laws.FixedLength.tTri :
    Sys2Proof.Laws.FixedLength.Statement (.tTri) := rfl

theorem Sys2Proof.Laws.FixedLength.tFtri :
    Sys2Proof.Laws.FixedLength.Statement (.tFtri) := rfl

theorem Sys2Proof.Laws.FixedLength.tCirc :
    Sys2Proof.Laws.FixedLength.Statement (.tCirc) := rfl

theorem Sys2Proof.Laws.FixedLength.tFcirc :
    Sys2Proof.Laws.FixedLength.Statement (.tFcirc) := rfl

theorem Sys2Proof.Laws.FixedLength.bMove :
    Sys2Proof.Laws.FixedLength.Statement (.bMove) := rfl

theorem Sys2Proof.Laws.FixedLength.bTmove :
    Sys2Proof.Laws.FixedLength.Statement (.bTmove) := rfl

theorem Sys2Proof.Laws.FixedLength.bStart :
    Sys2Proof.Laws.FixedLength.Statement (.bStart) := rfl

theorem Sys2Proof.Laws.FixedLength.pwrOn :
    Sys2Proof.Laws.FixedLength.Statement (.pwrOn) := rfl

theorem Sys2Proof.Laws.FixedLength.wrcmd (reg : Sys2Proof.Byte) :
    Sys2Proof.Laws.FixedLength.Statement (.wrcmd reg) := rfl

theorem Sys2Proof.Laws.FixedLength.wrdata (byte : Sys2Proof.Byte) :
    Sys2Proof.Laws.FixedLength.Statement (.wrdata byte) := rfl

theorem Sys2Proof.Laws.FixedLength.rddata :
    Sys2Proof.Laws.FixedLength.Statement (.rddata) := rfl

theorem Sys2Proof.Laws.FixedLength.rdstatus :
    Sys2Proof.Laws.FixedLength.Statement (.rdstatus) := rfl

theorem Sys2Proof.Laws.FixedLength.wrreg (reg : Sys2Proof.Byte) (byte : Sys2Proof.Byte) :
    Sys2Proof.Laws.FixedLength.Statement (.wrreg reg byte) := rfl

theorem Sys2Proof.Laws.FixedLength.rdreg (reg : Sys2Proof.Byte) :
    Sys2Proof.Laws.FixedLength.Statement (.rdreg reg) := rfl

theorem Sys2Proof.Laws.FixedLength.wr16 (reg0 : Sys2Proof.Byte) (reg1 : Sys2Proof.Byte) (v : Sys2Proof.Half) :
    Sys2Proof.Laws.FixedLength.Statement (.wr16 reg0 reg1 v) := rfl

theorem Sys2Proof.Laws.FixedLength.rd16 (reg0 : Sys2Proof.Byte) (reg1 : Sys2Proof.Byte) :
    Sys2Proof.Laws.FixedLength.Statement (.rd16 reg0 reg1) := rfl

theorem Sys2Proof.Laws.FixedLength.init (width : Sys2Proof.Half) (height : Sys2Proof.Half) (depth : Sys2Proof.Byte) :
    Sys2Proof.Laws.FixedLength.Statement (.init width height depth) := rfl

theorem Sys2Proof.Laws.FixedLength.line (x0 : Sys2Proof.Half) (y0 : Sys2Proof.Half) (x1 : Sys2Proof.Half) (y1 : Sys2Proof.Half) (c : Sys2Proof.Half) :
    Sys2Proof.Laws.FixedLength.Statement (.line x0 y0 x1 y1 c) := rfl

theorem Sys2Proof.Laws.FixedLength.rect (x0 : Sys2Proof.Half) (y0 : Sys2Proof.Half) (x1 : Sys2Proof.Half) (y1 : Sys2Proof.Half) (c : Sys2Proof.Half) :
    Sys2Proof.Laws.FixedLength.Statement (.rect x0 y0 x1 y1 c) := rfl

theorem Sys2Proof.Laws.FixedLength.frect (x0 : Sys2Proof.Half) (y0 : Sys2Proof.Half) (x1 : Sys2Proof.Half) (y1 : Sys2Proof.Half) (c : Sys2Proof.Half) :
    Sys2Proof.Laws.FixedLength.Statement (.frect x0 y0 x1 y1 c) := rfl

theorem Sys2Proof.Laws.FixedLength.tri (x0 : Sys2Proof.Half) (y0 : Sys2Proof.Half) (x1 : Sys2Proof.Half) (y1 : Sys2Proof.Half) (x2 : Sys2Proof.Half) (y2 : Sys2Proof.Half) (c : Sys2Proof.Half) :
    Sys2Proof.Laws.FixedLength.Statement (.tri x0 y0 x1 y1 x2 y2 c) := rfl

theorem Sys2Proof.Laws.FixedLength.ftri (x0 : Sys2Proof.Half) (y0 : Sys2Proof.Half) (x1 : Sys2Proof.Half) (y1 : Sys2Proof.Half) (x2 : Sys2Proof.Half) (y2 : Sys2Proof.Half) (c : Sys2Proof.Half) :
    Sys2Proof.Laws.FixedLength.Statement (.ftri x0 y0 x1 y1 x2 y2 c) := rfl

theorem Sys2Proof.Laws.FixedLength.circ (cx : Sys2Proof.Half) (cy : Sys2Proof.Half) (r : Sys2Proof.Byte) (c : Sys2Proof.Half) :
    Sys2Proof.Laws.FixedLength.Statement (.circ cx cy r c) := rfl

theorem Sys2Proof.Laws.FixedLength.fcirc (cx : Sys2Proof.Half) (cy : Sys2Proof.Half) (r : Sys2Proof.Byte) (c : Sys2Proof.Half) :
    Sys2Proof.Laws.FixedLength.Statement (.fcirc cx cy r c) := rfl

theorem Sys2Proof.Laws.FixedLength.btecopy (sl : BitVec 2) (sx : Sys2Proof.Half) (sy : Sys2Proof.Half) (w : Sys2Proof.Half) (h : Sys2Proof.Half) (dl : BitVec 2) (dx : Sys2Proof.Half) (dy : Sys2Proof.Half) (transparent : Bool) (key : Sys2Proof.Half) :
    Sys2Proof.Laws.FixedLength.Statement (.btecopy sl sx sy w h dl dx dy transparent key) := rfl
end

