-- ==== Sys2Proof/Tests/Slice0.lean ====
section
/-! SUPPORT. The model's own tests: ill-formed terms, decoding of words written out from the tables of 30_encoding.md, one step on
small states with results from 95_test_vectors.md, and states that meet the hypotheses of the statements. A step that polls an
engine reads free bits, so the tests of such a command stop it (a tick's `pause`) before its poll. -/

namespace Sys2Proof.Tests

open Sys2Proof Sys2Proof.Machine

/-! ### Well-formedness: one ill-formed term for each check -/

theorem test_wf_datr_payload : (Instr.datr 0x01).wf = false ∧ (Instr.datr 0x00).wf = true := by decide
theorem test_wf_stsr_payload : (Instr.stsr 0x01).wf = false ∧ (Instr.stsr 0x00).wf = true := by decide
theorem test_wf_source_layer : (Instr.btecopy 0 0 0 1 1 1 0 0 false 0).wf = false
    ∧ (Instr.btecopy 3 0 0 1 1 1 0 0 false 0).wf = false := by decide
theorem test_wf_destination_layer : (Instr.btecopy 1 0 0 1 1 0 0 0 false 0).wf = false
    ∧ (Instr.btecopy 1 0 0 1 1 3 0 0 false 0).wf = false := by decide
theorem test_wf_source_y : (Instr.btecopy 1 0 0x8000 1 1 2 0 0 false 0).wf = false
    ∧ (Instr.btecopy 1 0 0x7FFF 1 1 2 0 0 false 0).wf = true := by decide
theorem test_wf_destination_y : (Instr.btecopy 1 0 0 1 1 2 0 0x8000 false 0).wf = false
    ∧ (Instr.btecopy 1 0 0 1 1 2 0 0x7FFF false 0).wf = true := by decide

/-! ### Decoding: words written out from rules R91, R100, R101, R102, R107 and R110 -/

theorem test_decode_frames :
    decodeWhole .frame16 [0b1000_0000, 0x90] = .ok (.cmdw 0x90) ∧ decodeWhole .frame16 [0b0000_0000, 0x0A] = .ok (.datw 0x0A)
      ∧ decodeWhole .frame16 [0b0100_0000, 0x00] = .ok (.datr 0) ∧ decodeWhole .frame16 [0b1100_0000, 0x00] = .ok (.stsr 0) := by
  decide
theorem test_decode_drawing_triggers :
    decodeWhole .dcr8 [0x80 ||| 0x00] = .ok .tLine ∧ decodeWhole .dcr8 [0x80 ||| 0x10] = .ok .tRect
      ∧ decodeWhole .dcr8 [0x80 ||| 0x30] = .ok .tFrect ∧ decodeWhole .dcr8 [0x80 ||| 0x01] = .ok .tTri
      ∧ decodeWhole .dcr8 [0x80 ||| 0x21] = .ok .tFtri ∧ decodeWhole .dcr8 [0x40 ||| 0x00] = .ok .tCirc
      ∧ decodeWhole .dcr8 [0x40 ||| 0x20] = .ok .tFcirc := by decide
theorem test_decode_bte_and_power :
    decodeWhole .bterop8 [0xC2] = .ok .bMove ∧ decodeWhole .bterop8 [0xC5] = .ok .bTmove
      ∧ decodeWhole .btestart8 [0x80] = .ok .bStart ∧ decodeWhole .pwr8 [0x80] = .ok .pwrOn := by decide
theorem test_decode_register_commands :
    decodeWhole .seqcmd [0x01, 0x91] = .ok (.wrcmd 0x91) ∧ decodeWhole .seqcmd [0x02, 0x0A] = .ok (.wrdata 0x0A)
      ∧ decodeWhole .seqcmd [0x03] = .ok .rddata ∧ decodeWhole .seqcmd [0x04] = .ok .rdstatus
      ∧ decodeWhole .seqcmd [0x05, 0x90, 0xB0] = .ok (.wrreg 0x90 0xB0) ∧ decodeWhole .seqcmd [0x06, 0x90] = .ok (.rdreg 0x90)
      ∧ decodeWhole .seqcmd [0x07, 0x91, 0x92, 0xF4, 0x01] = .ok (.wr16 0x91 0x92 0x01F4)
      ∧ decodeWhole .seqcmd [0x08, 0x91, 0x92] = .ok (.rd16 0x91 0x92) := by decide
theorem test_decode_init : decodeWhole .seqcmd [0x10, 0xE0, 0x01, 0x10, 0x01, 0x10] = .ok (.init 480 272 16) := by decide
theorem test_decode_two_point :
    decodeWhole .seqcmd [0x20, 0, 0, 0, 0, 0xDF, 0x01, 0x0F, 0x01, 0x1F, 0x00] = .ok (.line 0 0 479 271 0x001F)
      ∧ decodeWhole .seqcmd [0x21, 10, 0, 11, 0, 50, 0, 51, 0, 0xFF, 0xFF] = .ok (.rect 10 11 50 51 0xFFFF)
      ∧ decodeWhole .seqcmd [0x22, 10, 0, 10, 0, 50, 0, 50, 0, 0x00, 0xF8] = .ok (.frect 10 10 50 50 0xF800) := by decide
theorem test_decode_three_point :
    decodeWhole .seqcmd [0x23, 1, 0, 2, 0, 3, 0, 4, 0, 5, 0, 6, 0, 0xE0, 0x07] = .ok (.tri 1 2 3 4 5 6 0x07E0)
      ∧ decodeWhole .seqcmd [0x24, 1, 0, 2, 0, 3, 0, 4, 0, 5, 0, 6, 0, 0xE0, 0x07] = .ok (.ftri 1 2 3 4 5 6 0x07E0) := by decide
theorem test_decode_circle :
    decodeWhole .seqcmd [0x25, 100, 0, 101, 0, 20, 0x00, 0xF8] = .ok (.circ 100 101 20 0xF800)
      ∧ decodeWhole .seqcmd [0x26, 100, 0, 101, 0, 20, 0x00, 0xF8] = .ok (.fcirc 100 101 20 0xF800) := by decide
theorem test_decode_copy :
    decodeWhole .seqcmd [0x30, 2, 1, 0, 2, 0, 100, 0, 50, 0, 1, 20, 0, 30, 0, 1, 0x1F, 0xF8]
      = .ok (.btecopy 2 1 2 100 50 1 20 30 true 0xF81F) := by decide
theorem test_decode_rejects :
    decodeWhole .frame16 [0x20, 0x00] = .error (.undefinedFrameOpcode 0x20) ∧ decodeWhole .frame16 [0x80] = .error .truncated
      ∧ decodeWhole .frame16 [0x80, 0x90, 0x00] = .error .trailingBytes
      ∧ decodeWhole .dcr8 [0xC0] = .error (.undefinedTrigger 0xC0) ∧ decodeWhole .bterop8 [0xC3] = .error (.undefinedOperation 0xC3)
      ∧ decodeWhole .btestart8 [0x81] = .error (.undefinedStart 0x81) ∧ decodeWhole .pwr8 [0x01] = .error (.undefinedPower 0x01)
      ∧ decodeWhole .seqcmd [0x09] = .error (.undefinedCommand 0x09) := by decide
theorem test_decode_rejects_reserved_bits :
    decodeWhole .seqcmd [0x30, 4, 1, 0, 2, 0, 100, 0, 50, 0, 1, 20, 0, 30, 0, 1, 0x1F, 0xF8] = .error .reservedOperandBits := by
  decide
/-- Words as spec/opcode_table.json numbers them. -/
theorem test_decode_table_words :
    decodeTableWord 16 0x8090 = some (.cmdw 0x90) ∧ decodeTableWord 16 0xC000 = some (.stsr 0) ∧ decodeTableWord 8 0xB0 = some .tFrect
      ∧ decodeTableWord 8 0x40 = some .tCirc ∧ decodeTableWord 8 0xC5 = some .bTmove
      ∧ decodeTableWord 8 0x10 = some (.init 0 0 0) ∧ decodeTableWord 8 0x30 = some (.btecopy 0 0 0 0 0 0 0 0 false 0)
      ∧ decodeTableWord 8 0xFF = none := by decide

/-! ### Small states -/

/-- An idle, awake device with some registers known. -/
def dev : Dev where
  cur := .known 0x91
  mem := [(0x01, 0x80), (0x50, 0x00), (0x51, 0xC2), (0x5C, 0x64), (0x5D, 0x00), (0x5E, 0x00), (0x5F, 0x01), (0x91, 0x0A)]
  drawBusy := .known false
  circBusy := .known false
  bteBusy := .known false
  oplog := []
  rstIfUnk := .known false

/-- The machine after a reset, with that device, initialised for 480 x 272 at depth 16, in the world given. -/
def at_ (env : List Tick) : State :=
  { State.reset with
    seq := { Seq.reset with cfg := some ⟨480, 272, .d16, 0, true, false⟩ }
    dev := dev
    env := env }

/-- What exec leaves, or the state given where it leaves none. -/
def after (i : Instr) (s : State) : State :=
  match exec i s with
  | .next t => t
  | .fault _ => s
  | .refused _ => s

/-- The world in which the step ends after `n` primitives. -/
def pauseAt (n : Nat) : List Tick := List.replicate (n - 1) ({} : Tick) ++ [{ pause := true }]

/-- The frames of a step from nothing. -/
def wireOf (i : Instr) (s : State) : List (Byte × Byte) := frames ((after i s).bus.drop s.bus.length)

/-! ### Family A: frames -/

/-- A1. -/
theorem test_cmdw : (after (.cmdw 0x90) (at_ [])).dev = { dev with cur := .known 0x90 } := by decide
/-- A2, reuse. -/
theorem test_datw : (after (.datw 0x55) (at_ [])).dev.cell 0x91 = .known 0x55 ∧ (after (.datw 0x55) (at_ [])).dev.cur = .known 0x91 := by
  decide
/-- A6, increment: the wrap. -/
theorem test_datw_wraps :
    let s := { at_ [] with P := { exampleParams with ptrPolicy := .increment }, dev := { dev with cur := .known 0xFF } }
    (after (.datw 0x55) s).dev.cell 0xFF = .known 0x55 ∧ (after (.datw 0x55) s).dev.cur = .known 0x00 := by decide
/-- A3. -/
theorem test_datr : (after (.datr 0) (at_ [])).seq.rx = 0x0A ∧ (after (.datr 0) (at_ [])).dev = dev := by decide
/-- A5: the pointer and DEV stay. -/
theorem test_stsr : (after (.stsr 0) (at_ [])).dev = dev := by decide
/-- Rule R139: a frame that failed before DEV acted. -/
theorem test_failed_frame :
    let t := after (.cmdw 0x90) (at_ [{}, { fate := .failLost }])
    t.dev = dev ∧ t.seq.cur = .unknown ∧ t.seq.result = .busTransportFailure := by decide
/-- Rules R13, R232: an engine may complete between a frame that failed and the release after it. -/
theorem test_completion_before_release :
    let t := after .bStart (at_ [{}, {}, { fate := .failActed }, { bteDone := true }])
    t.dev.bteBusy = .known false ∧ t.dev.logHeads = [(.bte, 0x80)] ∧ t.seq.hold = false := by decide
/-- Rule R139: a frame is sent with the bus held. -/
theorem test_frame_window :
    (after (.cmdw 0x90) (at_ [])).bus = events .idle [.hold, .xfer .cmdw 0x90 none, .release] := by decide

/-! ### Trigger, control and power bytes: what DEV logs (rules R204, R205, R231) -/

theorem test_tLine : (after .tLine (at_ [])).dev.logHeads = [(.draw, 0x80)] := by decide
theorem test_tRect : (after .tRect (at_ [])).dev.logHeads = [(.draw, 0x90)] := by decide
theorem test_tFrect : (after .tFrect (at_ [])).dev.drawBusy = .known true ∧ (after .tFrect (at_ [])).dev.logHeads = [(.draw, 0xB0)] := by
  decide
theorem test_tTri : (after .tTri (at_ [])).dev.logHeads = [(.draw, 0x81)] := by decide
theorem test_tFtri : (after .tFtri (at_ [])).dev.logHeads = [(.draw, 0xA1)] := by decide
theorem test_tCirc : (after .tCirc (at_ [])).dev.flags = (.known false, .known true, .known false) := by decide
theorem test_tFcirc : (after .tFcirc (at_ [])).dev.logHeads = [(.circ, 0x60)] := by decide
/-- U3: a trigger while an engine is busy. -/
theorem test_trigger_while_busy :
    (after .tLine { at_ [] with dev := { dev with circBusy := .known true } }).dev.logHeads = [(.unknown, 0x80)] := by decide
/-- R205 and U7: a byte without a start bit. -/
theorem test_dcr_no_start :
    (after (.datw 0x31) { at_ [] with dev := { dev with cur := .known 0x90 } }).dev = { dev with cur := .known 0x90 }
      ∧ (after (.datw 0x0E) { at_ [] with dev := { dev with cur := .known 0x90 } }).dev.logHeads = [(.unknown, 0x0E)]
      ∧ (after (.datw 0x02) { at_ [] with dev := { dev with cur := .known 0x90 } }).dev.drawBusy = .unknown := by decide
theorem test_bMove : (after .bMove (at_ [])).dev.cell 0x51 = .known 0xC2 ∧ (after .bMove (at_ [])).dev.oplog = [] := by decide
theorem test_bTmove : (after .bTmove (at_ [])).dev.cell 0x51 = .known 0xC5 := by decide
theorem test_bStart : (after .bStart (at_ [])).dev.flags = (.known false, .known false, .known true) := by decide
/-- U11: a zero width. -/
theorem test_bStart_zero_size :
    (after .bStart { at_ [] with dev := dev.setCell 0x5C 0x00 }).dev.logHeads = [(.unknown, 0x80)] := by decide
theorem test_pwrOn : (after .pwrOn (at_ [])).dev.cell 0x01 = .known 0x80 ∧ wireOf .pwrOn (at_ []) = [(0x80, 0x01), (0x00, 0x80)] := by
  decide

/-! ### Family R: register-access commands -/

/-- R-1. -/
theorem test_wrcmd : (after (.wrcmd 0x01) (at_ [])).seq.step = 3 ∧ (after (.wrcmd 0x01) (at_ [])).dev.cur = .known 0x01 := by decide
/-- R-2's shape. -/
theorem test_wrdata : (after (.wrdata 0x80) (at_ [])).dev.cell 0x91 = .known 0x80 := by decide
/-- R-3's shape. -/
theorem test_rddata : (after .rddata (at_ [])).seq.rdata = 0x000A := by decide
/-- Rule R138: no pointer write. -/
theorem test_rdstatus : wireOf .rdstatus (at_ []) = [(0xC0, 0x00)] := by decide
/-- R-6. -/
theorem test_wrreg : (after (.wrreg 0x92 0x0B) (at_ [])).dev.cell 0x92 = .known 0x0B ∧ (after (.wrreg 0x92 0x0B) (at_ [])).seq.step = 4 := by
  decide
/-- Rule R303: the reset bit; rule R54: the shadow after it. -/
theorem test_wrreg_resets :
    (after (.wrreg 0x01 0x01) (at_ [])).dev.mem = [(0x01, 0x01)] ∧ (after (.wrreg 0x01 0x01) (at_ [])).seq.cur = .unknown := by decide
/-- Rule R303, U5: at power-up DEV may or may not be in software reset. -/
theorem test_reset_draw :
    State.reset.dev.inReset State.reset.P 0 = (anyPwr 0 &&& State.reset.P.pwrRst != 0) := rfl
/-- R-7. -/
theorem test_rdreg : (after (.rdreg 0x91) (at_ [])).seq.rdata = 0x000A := by decide
/-- R-8. -/
theorem test_wr16 :
    wireOf (.wr16 0x91 0x92 0x01F4) (at_ []) = [(0x80, 0x91), (0x00, 0xF4), (0x80, 0x92), (0x00, 0x01)] := by decide
/-- R-12. -/
theorem test_wr16_same_register : (after (.wr16 0x91 0x91 0x1234) (at_ [])).dev.cell 0x91 = .known 0x12 := by decide
/-- R-9's shape: the low register first. -/
theorem test_rd16 : (after (.rd16 0x91 0x51) (at_ [])).seq.rdata = 0xC20A := by decide

/-! ### INIT -/

/-- S5. -/
theorem test_init_unsupported :
    (after (.init 320 200 16) (at_ [])).seq.result = .unsupportedConfiguration ∧ (after (.init 320 200 16) (at_ [])).bus = [] := by
  decide
set_option maxRecDepth 8000 in
/-- S6, P2: the frame count and the literals of the source. -/
theorem test_init :
    (wireOf (.init 480 272 16) State.reset).length = 56
      ∧ (wireOf (.init 480 272 16) State.reset).take 4 = [(0x80, 0x88), (0x00, 0x0A), (0x80, 0x89), (0x00, 0x02)] := by decide
set_option maxRecDepth 8000 in
/-- S6: the display is on and SEQ.cfg valid. -/
theorem test_init_leaves :
    (after (.init 480 272 16) State.reset).dev.cell 0x01 = .known 0x80
      ∧ (after (.init 480 272 16) State.reset).seq.cfg = some ⟨480, 272, .d16, 0, true, false⟩ := by decide

/-! ### Drawing and block copies, stopped before their polls -/

/-- R190's example. -/
theorem test_line :
    wireOf (.line 0 0 479 271 0x001F) (at_ (pauseAt 25))
      = wire [(0x91, 0x00), (0x92, 0x00), (0x93, 0x00), (0x94, 0x00), (0x95, 0xDF), (0x96, 0x01), (0x97, 0x0F), (0x98, 0x01),
        (0x63, 0x00), (0x64, 0x00), (0x65, 0x1F), (0x90, 0x80)] := by decide
/-- R191's example. -/
theorem test_rect :
    (wireOf (.rect 10 10 50 50 0xFFFF) (at_ (pauseAt 25))).drop 16 = wire [(0x63, 0x1F), (0x64, 0x3F), (0x65, 0x1F), (0x90, 0x90)] := by
  decide
/-- R192's example. -/
theorem test_frect :
    wireOf (.frect 10 10 50 50 0xF800) (at_ (pauseAt 25))
      = wire [(0x91, 0x0A), (0x92, 0x00), (0x93, 0x0A), (0x94, 0x00), (0x95, 0x32), (0x96, 0x00), (0x97, 0x32), (0x98, 0x00),
        (0x63, 0x1F), (0x64, 0x00), (0x65, 0x00), (0x90, 0xB0)] := by decide
/-- R193's example. -/
theorem test_tri :
    (wireOf (.tri 0 0 10 0 0 10 0x07E0) (at_ (pauseAt 33))).drop 16
      = wire [(0xA9, 0x00), (0xAA, 0x00), (0xAB, 0x0A), (0xAC, 0x00), (0x63, 0x00), (0x64, 0x3F), (0x65, 0x00), (0x90, 0x81)] := by
  decide
/-- R194's example. -/
theorem test_ftri : (after (.ftri 0 0 10 0 0 10 0x07E0) (at_ (pauseAt 33))).dev.logHeads = [(.draw, 0xA1)] := by decide
/-- R195's example. -/
theorem test_circ :
    wireOf (.circ 100 100 20 0xF800) (at_ (pauseAt 19))
      = wire [(0x99, 0x64), (0x9A, 0x00), (0x9B, 0x64), (0x9C, 0x00), (0x9D, 0x14), (0x63, 0x1F), (0x64, 0x00), (0x65, 0x00),
        (0x90, 0x40)] := by decide
/-- R196's example. -/
theorem test_fcirc : (after (.fcirc 100 100 20 0xF800) (at_ (pauseAt 19))).dev.logHeads = [(.circ, 0x60)] := by decide
/-- R220's example. -/
theorem test_btecopy :
    wireOf (.btecopy 2 0 0 100 50 1 20 30 true 0xF81F) (at_ (pauseAt 35))
      = wire [(0x54, 0x00), (0x55, 0x00), (0x56, 0x00), (0x57, 0x80), (0x58, 0x14), (0x59, 0x00), (0x5A, 0x1E), (0x5B, 0x00),
        (0x5C, 0x64), (0x5D, 0x00), (0x5E, 0x32), (0x5F, 0x00), (0x63, 0x1F), (0x64, 0x00), (0x65, 0x1F), (0x51, 0xC5),
        (0x50, 0x80)] := by decide
/-- S3. -/
theorem test_btecopy_zero_size :
    (after (.btecopy 1 0 0 0 50 2 0 0 false 0) (at_ [])).seq.result = .ok
      ∧ (after (.btecopy 1 0 0 0 50 2 0 0 false 0) (at_ [])).bus = [] := by decide
/-- U8. -/
theorem test_draw_before_init : exec (.line 0 0 0 0 0) State.reset = .refused .notAdmitted := rfl

/-! ### Operand assembly (family E) -/

/-- S2. -/
theorem test_colour_16 : colR exampleParams .d16 0x1234 = 0x02 ∧ colG exampleParams .d16 0x1234 = 0x11
    ∧ colB exampleParams .d16 0x1234 = 0x14 := by decide
/-- S2. -/
theorem test_colour_8 : colR exampleParams .d8 0x00A5 = 0x05 ∧ colG exampleParams .d8 0x00A5 = 0x01
    ∧ colB exampleParams .d8 0x00A5 = 0x01 := by decide
/-- S4. -/
theorem test_layer_bit : hiL 300 1 = 0x01 ∧ hiL 300 2 = 0x81 := by decide


/-! ### States that meet the hypotheses of the statements, clause by clause -/

/-- A state in which software reset is on: PWR holds the reset bit. -/
def held : State := { at_ [] with dev := { dev with mem := [(0x01, 0x01)] } }

/-- A state with the pointer at an address. -/
def pointing (a : Byte) : State := { at_ [] with dev := { dev with cur := .known a } }

/-- A machine whose DCR, BTE_CTRL0 and PWR are not at the address drawn while the pointer is `?`. -/
def unknownPointer : State :=
  { State.reset with
    P := { exampleParams with
      regmap := { exampleRegMap with DCR := anyAddr 0 + 1, BTE_CTRL0 := anyAddr 0 + 2, PWR := anyAddr 0 + 3 } }
    dev := { Dev.powerUp with rstIfUnk := .known false } }

/-- A register map with every address changed. -/
def moved (f : Byte → Byte) (m : RegMap) : RegMap :=
  ⟨f m.PWR, f m.PLL1, f m.PLL2, f m.AWXS_L, f m.AWXS_H, f m.AWYS_L, f m.AWYS_H, f m.AWXE_L, f m.AWXE_H, f m.AWYE_L, f m.AWYE_H,
   f m.DX0_L, f m.DX0_H, f m.DY0_L, f m.DY0_H, f m.DX1_L, f m.DX1_H, f m.DY1_L, f m.DY1_H, f m.DX2_L, f m.DX2_H, f m.DY2_L,
   f m.DY2_H, f m.CX_L, f m.CX_H, f m.CY_L, f m.CY_H, f m.CRAD, f m.FGC_R, f m.FGC_G, f m.FGC_B, f m.DCR, f m.BSX_L, f m.BSX_H,
   f m.BSY_L, f m.BSY_H, f m.BDX_L, f m.BDX_H, f m.BDY_L, f m.BDY_H, f m.BW_L, f m.BW_H, f m.BH_L, f m.BH_H, f m.BTE_CTRL0,
   f m.BTE_CTRL1, f m.BTK_R, f m.BTK_G, f m.BTK_B⟩

theorem moved_addr (f : Byte → Byte) (m : RegMap) (n : RegName) : (moved f m).addr n = f (m.addr n) := by cases n <;> rfl

/-- A machine whose pointer is `?` and whose register `n` is at the address drawn for it. -/
def drawing (n : RegName) : State :=
  { State.reset with
    P := { exampleParams with
      regmap := moved (fun a => a + (anyAddr 0 - exampleRegMap.addr n)) exampleRegMap
      panels := [{ examplePanel .d16 0x0C with timing := [], layer := [] }]
      font := [] }
    dev := { Dev.powerUp with
      drawBusy := .known false, circBusy := .known false, bteBusy := .known false, rstIfUnk := .known false } }

theorem drawing_wf (n : RegName) : (drawing n).P.wf = true := by
  have hd : exampleRegMap.distinct = true := by decide
  have h : (drawing n).P.regmap.distinct = true := by
    simp only [RegMap.distinct, List.all_eq_true, Bool.or_eq_true, beq_iff_eq, bne_iff_ne] at hd ⊢
    intro a ha b hb
    refine (hd a ha b hb).imp id fun hne he => hne ?_
    have := (moved_addr _ _ a).symm.trans (he.trans (moved_addr _ _ b))
    simpa using this
  unfold Params.wf
  rw [h]
  rfl

theorem drawing_addr (n : RegName) : (drawing n).dev.cur.getD (anyAddr (drawing n).draws) = (drawing n).P.addr n := by
  show anyAddr 0 = (moved _ _).addr n
  rw [moved_addr]
  simp

/-- Every engine completes in every one of `n` ticks. -/
def finishing (n : Nat) : List Tick := List.replicate n { drawDone := true, circDone := true, bteDone := true }

/-- SEQ in the middle of a poll of an engine that is busy or not. -/
def polling (k : PollKind) (busy : Bool) (pollMax : Option Nat) : State :=
  { at_ [] with
    P := { exampleParams with pollMax := pollMax }
    seq := { (at_ []).seq with busy := true, phase := .triggered, hold := true, ucode := pollingRest k }
    dev := { dev with drawBusy := .known busy, circBusy := .known busy, bteBusy := .known busy } }

theorem test_example_params_wf : exampleParams.wf = true := by decide
theorem test_example_params_wf_polls :
    ({ exampleParams with pollMax := some 1 } : Params).wf = true ∧ ({ exampleParams with pollMax := some 2 } : Params).wf = true :=
  by decide

theorem test_witness_DecodedBytesAreTheEncoding :
    decode .frame16 [0x80, 0x90, 0xAA] = .ok (.cmdw 0x90, [0xAA])
      ∧ decode .seqcmd [0x02, 0x0A] = .ok (.wrdata 0x0A, []) := by decide
theorem test_witness_UndefinedOpcodeRefused :
    let op : Byte := 0x01
    let s := { State.reset with port := [⟨.frame16, [op, 0x00]⟩] }
    op ≠ 0x00 ∧ op ≠ 0x40 ∧ op ≠ 0x80 ∧ op ≠ 0xC0 ∧ s.seq.ucode = [] ∧ s.seq.busy = false
      ∧ s.port = ⟨.frame16, [op, 0x00]⟩ :: [] := by decide
theorem test_witness_StepRunsPresentedInstruction :
    let s := { State.reset with port := [⟨.dcr8, [0xB0]⟩, ⟨.pwr8, [0x80]⟩] }
    s.seq.ucode = [] ∧ s.seq.busy = false ∧ s.port = ⟨.dcr8, [0xB0]⟩ :: [⟨.pwr8, [0x80]⟩]
      ∧ decodeWhole .dcr8 [0xB0] = .ok .tFrect := by decide
theorem test_witness_StepRunsFetchWord :
    decodeTableWord 16 0x8090 = some (.cmdw 0x90) ∧ decodeTableWord 8 0x03 = some .rddata := by decide
theorem test_witness_NothingAcceptedWhileBusy :
    let s := { at_ [] with seq := { (at_ []).seq with busy := true }, port := [⟨.seqcmd, [0x03]⟩] }
    Instr.rddata.format = .seqcmd ∧ s.seq.busy = true ∧ ∃ t, step s = .next t :=
  ⟨rfl, rfl, _, rfl⟩
theorem test_witness_SeqResetInAnyGap :
    let t : List Tick := [{ seqReset := true }]
    let s := fun k => { at_ t with seq := { (at_ t).seq with hold := true, rx := 0x40, ucode := k } }
    (at_ t).now.seqReset = true ∧ (at_ t).seq.ucode = [] ∧ (at_ t).port = [] ∧ Instr.tLine.format ≠ .seqcmd
      ∧ Instr.rddata.format = .seqcmd ∧ (at_ t).seq.busy = false ∧ (∃ u, exec .rddata (at_ t) = .next u)
      ∧ (∃ u, exec (.init 320 200 16) (at_ t) = .next u ∧ u.env = (at_ t).env)
      ∧ (∀ m ∈ [Micro.hold, .release, .frame .stsr 0x00, .writeSet, .writeClr, .delay .tPoll, .resetLine false, .resetLine true],
          m.isPrimitive = true ∧ (s [m]).seq.ucode = m :: [] ∧ (s [m]).now.seqReset = true)
      ∧ (s [.pollTest (.status 0x40)]).seq.ucode = .pollTest (.status 0x40) :: []
      ∧ (s [.pollTest (.status 0x40)]).seq.rx &&& PollKind.mask (.status 0x40) ≠ 0
      ∧ (s [.pollTest (.status 0x40)]).P.pollMax ≠ some ((s [.pollTest (.status 0x40)]).seq.pollcnt + 1) :=
  ⟨rfl, rfl, rfl, by decide, rfl, rfl, ⟨_, rfl⟩, ⟨_, rfl, rfl⟩, by decide, rfl, by decide, by decide⟩
theorem test_witness_SeqResetInAnyGap_failed :
    let e : List Tick := [{ fate := .failLost }, { seqReset := true, bteDone := true }]
    let s := { at_ e with seq := { (at_ e).seq with hold := true, ucode := [.frame .stsr 0x00] } }
    s.seq.ucode = .frame .stsr 0x00 :: [] ∧ s.seq.hold = true ∧ s.seq.resetn = true
      ∧ s.env = { fate := .failLost } :: { seqReset := true, bteDone := true } :: [] := by decide
theorem test_witness_EnginesCompleteWhileSeqWaits :
    let s := at_ [{ drawDone := true }]
    s.seq.ucode = [] ∧ s.port = [] ∧ s.now.seqReset = false ∧ s.now.drawDone = true := by decide
theorem test_witness_CmdwLoadsPointer : State.reset.calm = true ∧ (at_ [{ bteDone := true }]).calm = true := by decide
theorem test_witness_DatwStoresInPlainRegister :
    let s := at_ []
    s.calm = true ∧ 0x91 = s.dev.cur.getD (anyAddr s.draws) ∧ plainReg s.P 0x91 = true
      ∧ s.dev.inReset s.P s.draws = false := ⟨rfl, rfl, rfl, rfl⟩
theorem test_witness_DatwStoresInPlainRegister_unknown :
    let s := unknownPointer
    let a := anyAddr 0
    s.calm = true ∧ a = s.dev.cur.getD (anyAddr s.draws) ∧ plainReg s.P a = true ∧ s.dev.inReset s.P s.draws = false := by
  refine ⟨rfl, rfl, ?_, rfl⟩
  show (anyAddr 0 != anyAddr 0 + 1 && anyAddr 0 != anyAddr 0 + 2 && anyAddr 0 != anyAddr 0 + 3) = true
  generalize anyAddr 0 = a
  revert a
  decide
theorem test_witness_PowerWriteMayResetDevice :
    let s := { held with dev := { held.dev with cur := .known 0x01 } }
    s.P.wf = true ∧ s.calm = true ∧ s.dev.cur.getD (anyAddr s.draws) = s.P.addr .PWR
      ∧ (0x80 : Byte) &&& s.P.pwrRst = 0 ∧ (0x01 : Byte) &&& s.P.pwrRst ≠ 0 :=
  ⟨test_example_params_wf, by decide⟩
/-- PowerWriteMayResetDevice, DcrWriteTriggers and BteStartWriteTriggers with an unknown pointer. -/
theorem test_witness_unknown_pointer :
    ∀ n ∈ [RegName.PWR, .DCR, .BTE_CTRL0],
      let s := drawing n
      s.P.wf = true ∧ s.calm = true ∧ s.dev.cur = .unknown ∧ s.dev.cur.getD (anyAddr s.draws) = s.P.addr n
        ∧ s.dev.inReset s.P s.draws = false ∧ (s.devAtFrame 0).allIdle = true :=
  fun n _ => ⟨drawing_wf n, rfl, rfl, drawing_addr n, rfl, rfl⟩
theorem test_witness_DatwLostInSoftwareReset :
    let s := held
    s.calm = true ∧ 0x91 = s.dev.cur.getD (anyAddr s.draws) ∧ (0x91 : Byte) ≠ s.P.addr .PWR
      ∧ s.dev.inReset s.P s.draws = true := ⟨rfl, rfl, by decide, rfl⟩
theorem test_witness_DcrWriteTriggers :
    let s := pointing 0x90
    let b := { s with dev := { s.dev with drawBusy := .known true } }
    s.P.wf = true ∧ s.calm = true ∧ s.dev.cur.getD (anyAddr s.draws) = s.P.addr .DCR ∧ s.dev.inReset s.P s.draws = false
      ∧ (s.devAtFrame 0).allIdle = true ∧ (s.devAtFrame 0).drawBusy ≠ .known true
      ∧ (0x31 : Byte).getLsbD 7 = false ∧ (0x31 : Byte).getLsbD 6 = false ∧ (0x31 : Byte) &&& 0x0E = 0 ∧ (0x0E : Byte) &&& 0x0E ≠ 0
      ∧ (0x80 : Byte) ∈ ([0x80, 0x90, 0xB0, 0x81, 0xA1] : List Byte) ∧ (0x40 : Byte) ∈ ([0x40, 0x60] : List Byte)
      ∧ (0x40 : Byte).getLsbD 6 = true ∧ (0x80 : Byte).getLsbD 7 = true
      ∧ (0xC0 : Byte) ∉ ([0x80, 0x90, 0xB0, 0x81, 0xA1] : List Byte)
      ∧ b.calm = true ∧ b.dev.inReset b.P b.draws = false ∧ (b.devAtFrame 0).allIdle = false :=
  ⟨test_example_params_wf, rfl, rfl, rfl, rfl, by decide, rfl, rfl, rfl, by decide, by decide, by decide, rfl, rfl, by decide, rfl, rfl, rfl⟩
theorem test_witness_BteStartWriteTriggers :
    let s := pointing 0x50
    dev.cell (s.P.addr .BW_L) = .known 0x64 ∧ dev.cell (s.P.addr .BW_H) = .known 0x00 ∧ dev.cell (s.P.addr .BH_L) = .known 0x00
      ∧ dev.cell (s.P.addr .BH_H) = .known 0x01
      ∧ s.P.wf = true ∧ s.calm = true ∧ s.dev.cur.getD (anyAddr s.draws) = s.P.addr .BTE_CTRL0 ∧ s.dev.inReset s.P s.draws = false
      ∧ (s.devAtFrame 0).allIdle = true ∧ s.dev.bteSizeZero s.P s.draws = false
      ∧ s.dev.cell (s.P.addr .BTE_CTRL1) = .known 0xC2
      ∧ (0x7F : Byte).getLsbD 7 = false ∧ (0x80 : Byte).getLsbD 7 = true ∧ (0x81 : Byte).getLsbD 7 = true ∧ (0x81 : Byte) ≠ 0x80 :=
  ⟨rfl, rfl, rfl, rfl, test_example_params_wf, rfl, rfl, rfl, rfl, rfl, rfl, by decide⟩
theorem test_witness_DatrReturnsRegister :
    let s := at_ []
    s.calm = true ∧ (s.devAtFrame 0).awake s.P = true ∧ (s.devAtFrame 0).cell 0x91 = .known 0x0A
      ∧ (pointing 0x90).calm = true ∧ (pointing 0x90).dev.drawBusy = .known false := by decide
theorem test_witness_StsrReturnsStatus :
    (at_ []).calm = true ∧ ((at_ []).devAtFrame 0).bteBusy = .known false := by decide
theorem test_witness_PointerMovesByPolicy :
    exampleParams.ptrPolicy = .reuse ∧ { exampleParams with ptrPolicy := .increment }.ptrPolicy = .increment
      ∧ State.reset.P.wf = true ∧ State.reset.calm = true
      ∧ (pointing 0x01).dev.cur.getD (anyAddr 0) = (pointing 0x01).P.addr .PWR ∧ (0x01 : Byte) &&& (pointing 0x01).P.pwrRst ≠ 0
      ∧ (after (.datw 0xC0) (pointing 0x90)).dev.logHeads = (pointing 0x90).dev.logHeads ++ [(.unknown, 0xC0)]
      ∧ (after (.datw 0x55) (at_ [])).dev.logHeads ≠ (at_ []).dev.logHeads ++ [(.unknown, 0x55)] :=
  ⟨rfl, rfl, test_example_params_wf, by decide⟩
/-- With the bus taken for the frame and with the bus held already; acted and lost; the line high and low. -/
theorem test_witness_FailedFrameAborts :
    ∀ f ∈ [Fate.failActed, .failLost], ∀ r ∈ [true, false], ∀ h ∈ [true, false],
      let pre : List Tick := if h then [] else [{}]
      let s := { at_ (pre ++ { fate := f } :: [({} : Tick)]) with seq := { (at_ []).seq with hold := h, resetn := r } }
      s.env = pre ++ { fate := f } :: [({} : Tick)] ∧ pre.length = (if s.seq.hold then 0 else 1) ∧ f ≠ .ok
        ∧ (∀ x ∈ s.env, x.seqReset = false ∧ x.pause = false) ∧ s.seq.busy = false := by decide
theorem test_witness_TriggerBytesAreTwoFrames : State.reset.calm = true ∧ (at_ (finishing 2)).calm = true := by decide
theorem test_witness_DrawingTriggersStart :
    let s := { at_ (finishing 1) with dev := { dev with drawBusy := .known true } }
    s.P.wf = true ∧ s.calm = true ∧ s.dev.awake s.P = true ∧ (s.devAtFrame 1).allIdle = true :=
  ⟨test_example_params_wf, by decide⟩
theorem test_witness_BteOperationBytesAreStored :
    let s := at_ []
    s.P.wf = true ∧ s.calm = true ∧ s.dev.awake s.P = true :=
  ⟨test_example_params_wf, by decide⟩
theorem test_witness_BteStartStarts :
    let s := at_ []
    s.P.wf = true ∧ s.calm = true ∧ s.dev.awake s.P = true ∧ (s.devAtFrame 1).allIdle = true
      ∧ s.dev.cell (s.P.addr .BTE_CTRL1) = .known 0xC2
      ∧ s.dev.cell (s.P.addr .BW_L) = .known 0x64 ∧ s.dev.cell (s.P.addr .BW_H) = .known 0x00 ∧ join16 0x64 0x00 ≠ 0
      ∧ s.dev.cell (s.P.addr .BH_L) = .known 0x00 ∧ s.dev.cell (s.P.addr .BH_H) = .known 0x01 ∧ join16 0x00 0x01 ≠ 0 :=
  ⟨test_example_params_wf, by decide⟩
theorem test_witness_PowerOnStoresByte : held.P.wf = true ∧ held.calm = true :=
  ⟨test_example_params_wf, by decide⟩
/-- For the eight register-access commands: RegisterCommandsAreTheirFrames and the statements of their results. -/
theorem test_witness_register_commands :
    let s := at_ []
    s.calm = true ∧ s.seq.busy = false ∧ 0x91 = s.dev.cur.getD (anyAddr s.draws) ∧ plainReg s.P 0x91 = true
      ∧ plainReg s.P 0x92 = true ∧ (0x91 : Byte) ≠ 0x92 ∧ s.dev.awake s.P = true ∧ s.dev.inReset s.P s.draws = false := by decide
/-- The same, of the state right after reset, for those that ask nothing of DEV. -/
theorem test_witness_register_commands_reset : State.reset.calm = true ∧ State.reset.seq.busy = false := by decide
theorem test_witness_PointerPolicyIndependence :
    let s := at_ []
    let t := { s with
      P := { s.P with ptrPolicy := .increment }
      seq := { s.seq with cur := .known 0x33 }
      dev := { s.dev with cur := .unknown } }
    (Instr.wrreg 0x92 0x0B).format = .seqcmd ∧ (∀ b, Instr.wrreg 0x92 0x0B ≠ .wrdata b) ∧ Instr.wrreg 0x92 0x0B ≠ .rddata
      ∧ s.sameButPointer t := ⟨rfl, nofun, by decide, rfl⟩
theorem test_witness_UnsupportedInitTouchesNothing :
    let s := at_ []
    s.P.wf = true ∧ s.seq.busy = false ∧ s.P.panel? 320 200 16 = none ∧ s.P.panel? 480 272 24 = none ∧ (24 : Byte) ≠ 8 ∧ (24 : Byte) ≠ 16 :=
  ⟨test_example_params_wf, by decide⟩
/-- For InitBringsDeviceUp and InitFrameCount, at both depths and on both reset paths. -/
theorem test_witness_InitBringsDeviceUp :
    let s := State.reset
    let n := { at_ [] with P := { exampleParams with hasResetLine := false } }
    s.P.wf = true ∧ s.calm = true ∧ s.seq.busy = false ∧ s.P.panel? 480 272 16 = some (examplePanel .d16 0x0C)
      ∧ n.calm = true ∧ n.seq.busy = false ∧ n.P.panel? 480 272 8 = some (examplePanel .d8 0x00)
      ∧ n.dev.cell (n.P.addr .PWR) = .known 0x80 :=
  ⟨test_example_params_wf, by decide⟩
theorem test_example_params_wf_soft : ({ exampleParams with hasResetLine := false } : Params).wf = true := test_example_params_wf
theorem test_witness_InitExposesNoPartialSuccess :
    let s := at_ [{}, { fate := .ok }, {}, {}, {}, { fate := .failLost }]
    s.seq.busy = false ∧ (∀ k ∈ s.env, k.seqReset = false)
      ∧ ∃ t, exec (.init 480 272 16) s = .next t ∧ t.seq.busy = false :=
  ⟨rfl, by decide, _, rfl, rfl⟩
theorem test_witness_InitExposesNoPartialSuccess_ends :
    (∃ t, exec (.init 320 200 16) (at_ []) = .next t ∧ t.seq.busy = false)
      ∧ ∃ t, exec (.init 480 272 16) (at_ []) = .next t ∧ t.seq.busy = false :=
  ⟨⟨_, rfl, rfl⟩, _, rfl, rfl⟩
theorem test_witness_EngineCommandsNeedAdmission :
    State.reset.seq.busy = false ∧ State.reset.seq.cfg = none ∧ (at_ []).seq.busy = false ∧ (at_ []).seq.cfg ≠ none
      ∧ ((3 : BitVec 2) ≠ 1 ∧ (3 : BitVec 2) ≠ 2) ∧ 0x7FFF < (0x8000 : Half).toNat := by decide
/-- For TwoPointCommandsDraw (25), ThreePointCommandsDraw (33), CircleCommandsDraw (19) and BtecopyCopies (29 or 35): the
completions fall in the last gap before the poll, or the one before it. -/
theorem test_witness_engine_commands :
    let g : DeviceConfig := ⟨480, 272, .d16, 0, true, false⟩
    exampleParams.wf = true ∧ ∀ n ∈ [19, 25, 29, 33, 35], ∀ m ∈ [n, n + 1],
      let s := at_ (List.replicate m ({} : Tick) ++ finishing 1)
      s.P = exampleParams ∧ s.calm = true ∧ s.seq.busy = false ∧ s.seq.cfg = some g ∧ s.dev.awake s.P = true ∧ s.dev.allIdle = true
        ∧ ((s.env.drop n).take 2).any (·.drawDone) = true ∧ ((s.env.drop n).take 2).any (·.circDone) = true
        ∧ (m = n → ((s.env.drop n).take 1).any (·.bteDone) = true)
        ∧ bteOperandsOk 2 1 0x7FFF 0 = true ∧ (100 : Half) ≠ 0 :=
  ⟨test_example_params_wf, by decide⟩
theorem test_witness_ZeroSizeCopyTouchesNothing :
    (at_ []).seq.busy = false ∧ (at_ []).seq.cfg = some ⟨480, 272, .d16, 0, true, false⟩ ∧ bteOperandsOk 1 2 0x7FFF 0 = true
      ∧ ((0 : Half) = 0 ∨ (50 : Half) = 0) := by decide
theorem test_witness_BusyEngineLeavesCommandPolling :
    let s := at_ []
    s.P.wf = true ∧ s.env = [] ∧ s.seq.busy = false ∧ s.seq.cfg = some ⟨480, 272, .d16, 0, true, false⟩
      ∧ s.dev.awake s.P = true ∧ s.dev.allIdle = true ∧ s.P.pollMax ≠ some 1
      ∧ (Instr.line 0 0xFFFF 0 0x8000 0 = .btecopy 1 0 0xFFFF 0 0 2 0 0x8000 false 0 →
          bteOperandsOk 1 2 0xFFFF 0x8000 = true ∧ (0 : Half) ≠ 0 ∧ (0 : Half) ≠ 0)
      ∧ bteOperandsOk 1 2 0 0x7FFF = true ∧ (1 : Half) ≠ 0 :=
  ⟨test_example_params_wf, by decide⟩
/-- Both clauses: the last read and one before it. -/
theorem test_witness_BusyPollWaitsOrTimesOut :
    (∀ m ∈ [some 1, some 2], ({ exampleParams with pollMax := m } : Params).wf = true)
      ∧ ∀ k ∈ enginePolls exampleParams, ∀ m ∈ [some 1, some 2],
        let s := polling k true m
        s.P = { exampleParams with pollMax := m } ∧ s.calm = true ∧ s.dev.awake s.P = true ∧ s.seq.hold = true
          ∧ s.seq.resetn = true ∧ k ∈ enginePolls s.P ∧ s.seq.ucode = pollingRest k
          ∧ k.flag (s.dev.completeAll (s.env.take (pollFrames k).length)) = .known true :=
  ⟨by simpa using test_example_params_wf_polls, by decide⟩
theorem test_witness_ClearPollFinishes :
    exampleParams.wf = true ∧ ∀ k ∈ enginePolls exampleParams,
      let s := polling k false none
      s.P = exampleParams ∧ s.calm = true ∧ s.dev.awake s.P = true ∧ k ∈ enginePolls s.P ∧ s.seq.ucode = pollingRest k
        ∧ k.flag (s.dev.completeAll (s.env.take (pollFrames k).length)) = .known false :=
  ⟨test_example_params_wf, by decide⟩
/-- For Colour8Decomposes, at the largest shifts. -/
theorem test_witness_Colour8Decomposes :
    { exampleParams with shiftR := 5, shiftG := 5, shiftB := 6 }.wf = true := by decide
theorem test_witness_LayerBitIsOred : bteYOk 0x7FFF = true := by decide
theorem test_witness_TransportFailureEndsCommand :
    let s := { State.reset with env := [{}, { fate := .failLost }], port := [⟨.seqcmd, [0x05, 0x90, 0xB0]⟩] }
    let l : List Event := [⟨.idle, .hold⟩, ⟨.idle, .xferFailed .cmdw 0x90⟩, ⟨.idle, .release⟩]
    ∃ t, step s = .next t ∧ t.bus = s.bus ++ l ∧ ∃ e ∈ l, ∃ op p, e.prim = .xferFailed op p :=
  ⟨_, rfl, rfl, ⟨.idle, .xferFailed .cmdw 0x90⟩, by simp, .cmdw, 0x90, rfl⟩
/-- The same with a reset of SEQ before the release. -/
theorem test_witness_TransportFailureEndsCommand_reset :
    let s := { State.reset with
      env := [{}, { fate := .failLost }, { seqReset := true }], port := [⟨.seqcmd, [0x05, 0x90, 0xB0]⟩] }
    let l : List Event := [⟨.idle, .hold⟩, ⟨.idle, .xferFailed .cmdw 0x90⟩]
    ∃ t, step s = .next t ∧ t.bus = s.bus ++ l ∧ t.seq.result = .ok :=
  ⟨_, rfl, rfl, rfl⟩
theorem test_witness_ResultTable :
    let s := at_ []
    let p := at_ [{ pause := true }]
    (Instr.wrreg 0x92 0x0B).format = .seqcmd ∧ s.seq.busy = false ∧ (∀ k ∈ s.env, k.seqReset = false)
      ∧ (∃ t, exec (.wrreg 0x92 0x0B) s = .next t ∧ t.seq.busy = false)
      ∧ p.seq.busy = false ∧ (∀ k ∈ p.env, k.seqReset = false) ∧ ∃ t, exec (.wrreg 0x92 0x0B) p = .next t ∧ t.seq.busy = true :=
  ⟨rfl, rfl, by decide, ⟨_, rfl, rfl⟩, rfl, by decide, _, rfl, rfl⟩
/-- A later step: of a command whose frames are left, and of a poll. -/
theorem test_witness_ResultTable_later :
    let s := { at_ [] with
      seq := { (at_ []).seq with busy := true, hold := true, op := { Op.reset with code := 0x05 }, ucode := [.release, .finish .none] } }
    let k := PollKind.status 0x40
    let p := { polling k true none with seq := { (polling k true none).seq with op := { Op.reset with code := 0x30, w := 1, h := 1 } } }
    s.seq.busy = true ∧ s.fits = true ∧ (∀ x ∈ s.env, x.seqReset = false) ∧ (∃ t, step s = .next t ∧ t.seq.busy = false)
      ∧ p.seq.busy = true ∧ p.fits = true ∧ (∀ x ∈ p.env, x.seqReset = false) ∧ ∃ t, step p = .next t :=
  ⟨rfl, rfl, by decide, ⟨_, rfl, rfl⟩, rfl, by decide, by decide, _, rfl⟩
theorem test_witness_OnlyInitChangesConfiguration :
    let s := at_ []
    s.seq.busy = false ∧ (∀ k ∈ s.env, k.seqReset = false) ∧ (∀ w h d, Instr.tLine ≠ .init w h d)
      ∧ ∃ t, exec .tLine s = .next t := ⟨rfl, by decide, nofun, _, rfl⟩
/-- A later step: a transport failure in the poll of a command that is not INIT. -/
theorem test_witness_OnlyInitChangesConfiguration_later :
    let k := PollKind.status 0x40
    let s := { polling k true none with
      seq := { (polling k true none).seq with op := { Op.reset with code := 0x30, w := 1, h := 1 } }
      env := [{ fate := .failLost }] }
    s.fits = true ∧ s.seq.ucode ≠ [] ∧ ¬(s.seq.busy = true ∧ s.seq.op.code = 0x10) ∧ (∀ x ∈ s.env, x.seqReset = false)
      ∧ ∃ t, step s = .next t ∧ t.seq.result = .busTransportFailure :=
  ⟨by decide, by decide, by decide, by decide, _, rfl, rfl⟩
theorem test_witness_LogsOnlyGrow : ∃ t, step { at_ [] with port := [⟨.dcr8, [0x80]⟩] } = .next t := ⟨_, rfl⟩
/-- For StepKeepsSafe: the state right after reset, and one with a command in progress. -/
theorem test_witness_StepKeepsSafe :
    let k := PollKind.status 0x40
    let p := { polling k true none with seq := { (polling k true none).seq with op := { Op.reset with code := 0x30, w := 1, h := 1 } } }
    State.reset.safe ∧ (∃ t, step State.reset = .next t) ∧ p.safe ∧ ∃ t, step p = .next t :=
  ⟨⟨test_example_params_wf, by decide⟩, ⟨_, rfl⟩, ⟨test_example_params_wf, by decide⟩, _, rfl⟩
/-- A block transfer whose newest record is tainted by a write to one of its registers, and an older one that is not; and a
drawing engine disturbed by a byte without start bits. -/
theorem test_witness_TaintedRecordLosesRegisters :
    let r : OpRecord := ⟨.bte, 0x80, .known []⟩
    let s := { pointing 0x54 with dev := { (pointing 0x54).dev with bteBusy := .known true, oplog := [r, r] } }
    let c := { pointing 0x90 with dev := { (pointing 0x90).dev with drawBusy := .known true, oplog := [⟨.draw, 0x80, .known []⟩] } }
    s.P.wf = true ∧ s.calm = true ∧ 0x54 = s.dev.cur.getD (anyAddr s.draws) ∧ s.dev.inReset s.P s.draws = false
      ∧ plainReg s.P 0x54 = true ∧ s.dev.oplog = [r] ++ r :: [] ∧ s.dev.oplog = [] ++ r :: [r]
      ∧ (s.devAtFrame 0).flagOf r.engine = .known true ∧ (∃ m ∈ r.engine.latched, s.P.addr m = 0x54)
      ∧ 0x90 = c.dev.cur.getD (anyAddr c.draws) ∧ 0x90 = c.P.addr .DCR ∧ (0x31 : Byte).getLsbD 7 = false
      ∧ (0x31 : Byte).getLsbD 6 = false ∧ (0x31 : Byte) &&& 0x0E = 0 ∧ (c.devAtFrame 0).flagOf .draw = .known true :=
  ⟨test_example_params_wf, by decide⟩
theorem test_taint :
    let r : OpRecord := ⟨.bte, 0x80, .known []⟩
    let s := { pointing 0x54 with dev := { (pointing 0x54).dev with bteBusy := .known true, oplog := [r, r] } }
    (after (.datw 0x01) s).dev.oplog = [r, { r with regs := .unknown }] := by decide

end Sys2Proof.Tests
end

section
/-! PROOFS. The invariants of every step (rules R6, R21, R25, R45, R54): what a step keeps, each part from what the elementary
changes of a run keep (`Kept`), put together for the safe states. -/

namespace Sys2Proof.Machine

/-! ### What the elementary changes of a run keep -/

theorem kept_params (P : Params) : Kept fun s => s.P = P where
  seq _ _ _ _ _ hs := hs
  gap _ hs := hs
  sent _ _ _ hs := hs
  unsent _ _ _ _ hs := hs
  hardReset _ _ hs := hs

theorem kept_memory_wf : Kept fun s => Memory.wf s.dev.mem where
  seq _ _ _ _ _ hs := hs
  gap _ hs := hs
  sent s op p hs := wf_after hs s.draws op p
  unsent s op p acted hs := by
    cases acted with
    | true => exact wf_after hs s.draws op p
    | false => exact hs
  hardReset _ _ _ := mem_nil_wf

theorem kept_logHeads (l : List (Engine × Byte)) : Kept fun s => l <+: s.dev.logHeads where
  seq _ _ _ _ _ hs := hs
  gap _ hs := hs
  sent s op p hs := hs.trans (oplog_heads_after s.P s.draws s.dev op p)
  unsent s op p acted hs := by
    cases acted with
    | true => exact hs.trans (oplog_heads_after s.P s.draws s.dev op p)
    | false => exact hs
  hardReset _ _ hs := hs

theorem kept_bus (l : List Event) : Kept fun s => l <+: s.bus where
  seq _ _ _ _ hb hs := hs.trans hb
  gap _ hs := hs
  sent _ _ _ hs := hs.trans (List.prefix_append _ _)
  unsent _ _ _ _ hs := hs.trans (List.prefix_append _ _)
  hardReset _ _ hs := hs

/-! ### What a step keeps -/

/-- No step writes the parameters (rule R6). -/
theorem step_params {s t : State} (h : step s = .next t) : t.P = s.P :=
  step_preserves (kept_params s.P) (fun _ _ hs => hs) h rfl

theorem step_memory_wf {s t : State} (h : step s = .next t) (hs : Memory.wf s.dev.mem) : Memory.wf t.dev.mem :=
  step_preserves kept_memory_wf (fun _ _ hs => hs) h hs

theorem step_shadowed {s t : State} (h : step s = .next t) (hs : s.shadowed = true) : t.shadowed = true :=
  step_preserves kept_shadowed (fun _ _ hs => hs) h hs

/-- After a step, what SEQ has in progress still ends with SEQ idle, its frames sent with the bus held (rules R21, R25, R139). -/
theorem step_closed {s t : State} (h : step s = .next t) (hs : s.closed = true) : t.closed = true := by
  rcases step_cases h with ⟨-, rfl⟩ | ⟨-, rfl⟩ | ⟨p, ps, i, hu, hb, -, -, he⟩
  · exact run_closed s.seq.ucode (s.keep []) hs
  · unfold State.wait
    split
    · exact reset_closed s.gap
    · exact hs
  · exact exec_closed i { s with port := ps } t hs hu hb he

/-- After a step, what SEQ has in progress is of the command in SEQ.op (rule R26). -/
theorem step_fits {s t : State} (h : step s = .next t) (hs : s.fits = true) : t.fits = true := by
  rcases step_cases h with ⟨-, rfl⟩ | ⟨-, rfl⟩ | ⟨p, ps, i, -, hb, -, -, he⟩
  · exact run_fits s.seq.ucode (s.keep []) hs
  · unfold State.wait
    split
    · rfl
    · exact hs
  · exact exec_fits (s := { s with port := ps }) hb he

/-! ### The obligations -/

/-- Settles O59: each of the five parts of a safe state is kept by every step. -/
theorem stepKeepsSafe : Obligations.StepKeepsSafe := by
  rintro s t ⟨hP, hmem, hclosed, hshadow, hfits⟩ h
  exact ⟨step_params h ▸ hP, step_memory_wf h hmem, step_closed h hclosed, step_shadowed h hshadow, step_fits h hfits⟩

/-- Settles O56: the parameters, the heads of the operation log and the bus log are each kept by the elementary changes of a run. -/
theorem logsOnlyGrow : Obligations.LogsOnlyGrow := fun s _ h =>
  ⟨step_params h,
    step_preserves (kept_logHeads s.dev.logHeads) (fun _ _ hs => hs) h List.prefix_rfl,
    step_preserves (kept_bus s.bus) (fun _ _ hs => hs) h List.prefix_rfl⟩

/-- The example parameter set meets rule R6 (log 10). -/
theorem exampleParams_wf : exampleParams.wf = true := by decide

/-- Settles O58: SEQ is idle with nothing in progress, nothing is listed in the register space and the shadow is `?`, so the
parameters are all there is to check. -/
theorem resetIsSafe : Obligations.ResetIsSafe :=
  ⟨exampleParams_wf, mem_nil_wf, rfl, rfl, rfl⟩

end Sys2Proof.Machine
end

section
/-! PROOFS. A frame the transport fails (rules R139, R263, R270), in a bus-held window that is no command's. -/

namespace Sys2Proof.Machine

/-! ### A run that nothing cuts -/

/-- A primitive in whose tick SEQ is not reset and the step does not end. -/
theorem run_primitive_uncut {s : State} (hr : s.now.seqReset = false) (hp : s.now.pause = false) {m : Micro}
    {f : State → State} (hm : s.micro m = s.primitive f) (k : List Micro) : run (m :: k) s = run k (f s.gap) := by
  simp [run, hm, State.primitive, State.inGap, Tick.onward, hr, hp]

/-- A frame that goes through. -/
theorem run_frame_sent {s : State} (hr : s.now.seqReset = false) (hp : s.now.pause = false) (hf : s.now.fate = .ok)
    (op : FrameOp) (p : Byte) (k : List Micro) : run (.frame op p :: k) s = run k (s.gap.sent op p) := by
  simp [run, State.micro, State.frame, State.inGap, Tick.onward, hr, hp, hf]

/-- A frame the transport fails: what is left of the pseudocode is dropped (rules R139, R272). -/
theorem run_frame_failed {s : State} (hr : s.now.seqReset = false) (hf : s.now.fate ≠ .ok) (op : FrameOp) (p : Byte)
    (k : List Micro) :
    run (.frame op p :: k) s = (s.gap.unsent op p (decide (s.now.fate = .failActed))).abort .busTransportFailure := by
  cases h : s.now.fate with
  | ok => exact absurd h hf
  | failActed => simp [run, State.micro, State.frame, State.inGap, hr, h]
  | failLost => simp [run, State.micro, State.frame, State.inGap, hr, h]

/-! ### The window -/

/-- How many primitives open a window: the `Hold`, where SEQ does not hold the bus already. -/
def State.grabTicks (s : State) : Nat := if s.seq.hold then 0 else 1

/-- No pending tick resets SEQ or ends the step; the transport may fail frames. -/
def State.uncut (s : State) : Prop := ∀ x ∈ s.env, x.seqReset = false ∧ x.pause = false

theorem uncut_now {s : State} (h : s.uncut) : s.now.seqReset = false ∧ s.now.pause = false := by
  unfold State.now
  cases he : s.env with
  | nil => exact ⟨rfl, rfl⟩
  | cons t l => exact h t (he ▸ List.mem_cons_self)

theorem uncut_of_suffix {s t : State} (h : s.uncut) (ht : t.env <:+ s.env) : t.uncut := fun x hx => h x (ht.subset hx)

/-- A window opened, said whole. -/
theorem grab_eq (s : State) :
    s.grab = s.after { s.seq with hold := true, step := s.seq.step + s.grabTicks } (s.dev.completeAll (s.env.take s.grabTicks))
      s.grabTicks 0 (events s.seq.phase (if s.seq.hold then [] else [.hold])) := by
  obtain ⟨P, q, d, port, env, dr, bus⟩ := s
  cases hh : q.hold
  · simp [State.grab, State.grabTicks, State.after, hh, State.gap, State.perform, events, completeAll_take_one, State.now]
  · cases q
    simp_all [State.grab, State.grabTicks, State.after, events, Dev.completeAll]

theorem uncut_grab {s : State} (h : s.uncut) : s.grab.uncut :=
  uncut_of_suffix h (by rw [grab_eq]; exact List.drop_suffix _ _)

/-- A window around micro-operations begins where it has been opened. -/
theorem inWindow_grab {s : State} (h : s.uncut) (body : List Micro) :
    s.inWindow body = run (body ++ if s.seq.hold then [] else [.release]) s.grab := by
  unfold State.inWindow State.grab
  split
  · rw [List.append_nil]
  · obtain ⟨hr, hp⟩ := uncut_now h
    exact run_primitive_uncut hr hp (m := .hold)
      (f := fun t => { t.perform .hold with seq := { (t.perform .hold).seq with hold := true } }) rfl _

/-- A window whose frame the transport fails. -/
theorem inWindow_frame_failed {s : State} (h : s.uncut) (hf : s.grab.now.fate ≠ .ok) (op : FrameOp) (p : Byte) :
    s.inWindow [.frame op p]
      = (s.grab.gap.unsent op p (decide (s.grab.now.fate = .failActed))).abort .busTransportFailure := by
  rw [inWindow_grab h]
  exact run_frame_failed (uncut_now (uncut_grab h)).1 hf op p _

/-- A window whose frame goes through. -/
theorem inWindow_frame_sent {s : State} (h : s.uncut) (hf : s.grab.now.fate = .ok) (op : FrameOp) (p : Byte) :
    s.inWindow [.frame op p] = (s.drop (s.grab.gap.sent op p)).keep [] := by
  obtain ⟨hr, hp⟩ := uncut_now (uncut_grab h)
  have hsent : (s.grab.gap.sent op p).uncut := uncut_of_suffix (uncut_grab h) (List.tail_suffix _)
  rw [inWindow_grab h, List.singleton_append, run_frame_sent hr hp hf]
  unfold State.drop
  split
  · rfl
  · obtain ⟨hr', hp'⟩ := uncut_now hsent
    exact run_primitive_uncut hr' hp' (m := .release) (f := State.release) rfl _

/-- DEV completes in the gap before the `Release` of a window that took the bus itself. -/
theorem drop_dev (s t : State) : (s.drop t).dev = t.dev.completeAll (t.env.take s.grabTicks) := by
  unfold State.drop State.grabTicks
  split
  · rfl
  · exact (completeAll_take_one t.dev t.env).symm

/-- The four frames as instructions are windows of one frame (log 2). -/
theorem exec_frame {p : Byte} {e : Instr × FrameOp}
    (he : e ∈ ([(.cmdw p, .cmdw), (.datw p, .datw), (.datr p, .datr), (.stsr p, .stsr)] : List (Instr × FrameOp)))
    (s : State) : exec e.1 s = .next (s.inWindow [.frame e.2 p]) := by
  simp only [List.mem_cons, List.not_mem_nil, or_false] at he
  rcases he with rfl | rfl | rfl | rfl <;> rfl

/-! ### The frame of a window, where its tick is named -/

section FrameTick

variable {s : State} {pre post : List Tick} {f : Tick} (he : s.env = pre ++ f :: post) (hn : pre.length = s.grabTicks)
include he hn

theorem grab_now : s.grab.now = f := by
  rw [grab_eq, State.now]
  show (s.env.drop s.grabTicks).headD {} = f
  rw [he, ← hn, List.drop_left]
  rfl

/-- The state a window's frame finds. -/
theorem grab_gap_eq :
    s.grab.gap = s.after { s.seq with hold := true, step := s.seq.step + pre.length } (s.dev.completeAll (pre ++ [f]))
      (pre.length + 1) 0 (events s.seq.phase (if s.seq.hold then [] else [.hold])) := by
  have hdev : (s.dev.completeAll (s.env.take s.grabTicks)).complete f = s.dev.completeAll (pre ++ [f]) := by
    rw [he, ← hn, List.take_left, completeAll_append]
    rfl
  have henv : (s.env.drop s.grabTicks).tail = s.env.drop (pre.length + 1) := by rw [List.tail_drop, hn]
  rw [State.gap, grab_now he hn, grab_eq, ← hdev, ← hn]
  simp only [State.after, henv, hn]

/-- DEV after a window whose frame goes through. -/
theorem inWindow_frame_sent_dev (h : s.uncut) (hf : f.fate = .ok) (op : FrameOp) (p : Byte) :
    (s.inWindow [.frame op p]).dev
      = ((s.dev.completeAll (pre ++ [f])).after s.P s.draws op p).completeAll (post.take pre.length) := by
  have hpost : s.env.drop (pre.length + 1) = post := by rw [he]; simp
  rw [inWindow_frame_sent h (by rwa [grab_now he hn]), keep_dev, drop_dev, ← hn, grab_gap_eq he hn]
  simp [State.after, hpost]

/-- A window whose frame the transport fails, said whole (rules R139, R270). -/
theorem inWindow_frame_failed_after (h : s.uncut) (hf : f.fate ≠ .ok) (op : FrameOp) (p : Byte) :
    let d := s.dev.completeAll (pre ++ [f])
    let m := if s.seq.resetn then 1 else 2
    s.inWindow [.frame op p]
      = s.after
          { s.seq with
            step := s.seq.step + (pre.length + 1 + m)
            cur := .unknown
            hold := false
            resetn := true
            result := .busTransportFailure
            phase := .idle
            busy := false
            cfg := s.seq.cfgAfterAbort .busTransportFailure
            ucode := [] }
          ((if f.fate = .failActed then d.after s.P s.draws op p else d).completeAll (post.take m)) (pre.length + 1 + m) 1
          (events s.seq.phase ((if s.seq.hold then [] else [.hold]) ++ [.xferFailed op p, .release]
            ++ (if s.seq.resetn then [] else [.resetLine true]))) := by
  intro d m
  have hpost : s.env.drop (pre.length + 1) = post := by rw [he]; simp
  have hfree : ∀ t ∈ post, t.seqReset = false := fun t ht => (h t (by rw [he]; simp [ht])).1
  have hm : 1 + (if s.seq.resetn then 0 else 1) = m := by
    show _ = if s.seq.resetn then 1 else 2
    split <;> rfl
  have hdrop : post.drop m = s.env.drop (pre.length + (1 + m)) := by rw [← hpost, List.drop_drop, Nat.add_assoc]
  rw [inWindow_frame_failed h (by rwa [grab_now he hn]), grab_now he hn, grab_gap_eq he hn,
    abort_after (by simpa [State.after, hpost] using hfree)]
  simp [State.after, State.unsent, State.perform, State.abortTicks, events, Seq.cfgAfterAbort, hm, hpost, hdrop, d, Nat.add_assoc]

end FrameTick

/-- A completion step does not depend on what the transport does. -/
theorem completeAll_fate (d : Dev) (pre : List Tick) (f : Tick) (x : Fate) :
    d.completeAll (pre ++ [{ f with fate := x }]) = d.completeAll (pre ++ [f]) := by
  rw [completeAll_append, completeAll_append]
  rfl

/-- A world without cuts stays one where the transport lets a frame through that it failed. -/
theorem uncut_fate {s : State} {pre post : List Tick} {f : Tick} (h : s.uncut) (he : s.env = pre ++ f :: post) (x : Fate) :
    State.uncut { s with env := pre ++ { f with fate := x } :: post } := by
  intro t ht
  rcases List.mem_append.mp ht with ht | ht
  · exact h t (by simp [he, ht])
  · rcases List.mem_cons.mp ht with rfl | ht
    · exact h f (by simp [he])
    · exact h t (by simp [he, ht])

/-- Settles O19: the failed window, said whole (inWindow_frame_failed_after), beside the same window with its frame gone through. -/
theorem failedFrameAborts : Obligations.FailedFrameAborts := by
  intro p s pre post f he hn hf h m n e hmem
  refine ⟨_, _, exec_frame hmem s, exec_frame hmem _, ?_⟩
  rw [inWindow_frame_sent_dev (s := { s with env := _ }) rfl hn (uncut_fate h he .ok) rfl, completeAll_fate,
    inWindow_frame_failed_after he hn h hf]
  refine ⟨?_, rfl, rfl, rfl, rfl, rfl, rfl, rfl, rfl, rfl, rfl, rfl, fun hb => ?_, rfl, rfl, rfl, rfl⟩
  · show Dev.completeAll _ (post.take m) = _
    split
    · have hle : pre.length ≤ m := by
        rw [hn]
        show _ ≤ if s.seq.resetn then 1 else 2
        split <;> split <;> decide
      have htake : post.take pre.length = (post.take m).take pre.length := by rw [List.take_take, Nat.min_eq_left hle]
      rw [← completeAll_append, htake, List.take_append_drop]
    · have htake : s.env.take n = (pre ++ [f]) ++ post.take m := by
        rw [he, show n = (pre ++ [f]).length + m by simp [n], show pre ++ f :: post = (pre ++ [f]) ++ post from List.append_cons pre f post,
          List.take_length_add_append]
      rw [htake, ← completeAll_append]
  · simp [State.after, Seq.cfgAfterAbort, hb]

end Sys2Proof.Machine
end

section
/-! PROOFS. What a step takes from the port (rules R21, R110), and a reset of SEQ in any gap (rules R52, R300, R331). -/

namespace Sys2Proof.Machine

/-! ### What a step presents to exec -/

/-- With nothing in progress the step takes the packet at the head of the port. -/
theorem step_presented {s : State} {p : Packet} {ps : List Packet} {i : Instr} (hu : s.seq.ucode = []) (hb : s.seq.busy = false)
    (hp : s.port = p :: ps) (hd : decodeWhole p.fmt p.bytes = .ok i) : step s = exec i { s with port := ps } := by
  simp [step, State.nextWork, hu, hb, hp, hd]

/-- With nothing in progress and nothing to take, the step waits. -/
theorem step_waits {s : State} (hu : s.seq.ucode = []) (h : s.seq.busy = true ∨ s.port = []) : step s = .next s.wait := by
  cases hb : s.seq.busy with
  | true => simp [step, State.nextWork, hu, hb]
  | false =>
    have hp : s.port = [] := h.resolve_left (by simp [hb])
    simp [step, State.nextWork, hu, hb, hp]

/-- What is left of a command is what the step runs. -/
theorem step_resumes {s : State} {m : Micro} {k : List Micro} (hu : s.seq.ucode = m :: k) :
    step s = .next (run (m :: k) (s.keep [])) := by
  simp [step, State.nextWork, State.resume, hu]

/-- The packet of a table word is the one its instruction is decoded from. -/
theorem decodeWhole_tablePacket {nbits w : Nat} {i : Instr} (h : decodeTableWord nbits w = some i) :
    decodeWhole (tablePacket nbits w).1 (tablePacket nbits w).2 = .ok i := by
  unfold decodeTableWord at h
  split at h
  · rename_i j hj
    rw [hj, Option.some.inj h]
  · cases h

/-- Settles O5: nothing is in progress, so the packet at the port is taken. -/
theorem stepRunsPresentedInstruction : Obligations.StepRunsPresentedInstruction :=
  fun _ _ _ _ hu hb hp hd => step_presented hu hb hp hd

/-- Settles O6: withFetchWord puts the word's packet at the head of the port of a SEQ with nothing in progress. -/
theorem stepRunsFetchWord : Obligations.StepRunsFetchWord := fun s nbits w _ h =>
  step_presented (s := s.withFetchWord nbits w) rfl rfl rfl (decodeWhole_tablePacket h)

/-! ### A busy SEQ -/

/-- A command presented while SEQ is busy has no effect (rule R21). -/
theorem exec_command_busy {i : Instr} {s : State} (hf : i.format = .seqcmd) (hb : s.seq.busy = true) : exec i s = .next s := by
  cases i with
  | cmdw | datw | datr | stsr | tLine | tRect | tFrect | tTri | tFtri | tCirc | tFcirc | bMove | bTmove | bStart | pwrOn =>
    cases hf
  | _ => exact if_pos hb

theorem kept_port (l : List Packet) : Kept fun s => s.port = l where
  seq _ _ _ _ _ hs := hs
  gap _ hs := hs
  sent _ _ _ hs := hs
  unsent _ _ _ _ hs := hs
  hardReset _ _ hs := hs

/-- Settles O7: every command tests SEQ.busy first, and a step of a busy SEQ goes on or waits, neither of which writes the
port. -/
theorem nothingAcceptedWhileBusy : Obligations.NothingAcceptedWhileBusy := by
  refine ⟨fun i s => exec_command_busy, fun s t hb h => ?_⟩
  rcases step_cases h with ⟨-, rfl⟩ | ⟨-, rfl⟩ | ⟨p, ps, i, -, hidle, -⟩
  · exact run_preserves (kept_port s.port) _ _ rfl
  · unfold State.wait
    split <;> rfl
  · rw [hb] at hidle
    cases hidle

/-! ### The programs of the instructions -/

/-- Frames as micro-operations. -/
def frameMicros (fs : List (FrameOp × Byte)) : List Micro := fs.map fun f => .frame f.1 f.2

/-- An instruction that is no command is a window of frames, at least one (log 2). -/
theorem exec_frames {i : Instr} (hf : i.format ≠ .seqcmd) (s : State) :
    ∃ f fs, exec i s = .next (s.inWindow (frameMicros (f :: fs))) := by
  cases i with
  | cmdw a => exact ⟨(.cmdw, a), [], rfl⟩
  | datw b => exact ⟨(.datw, b), [], rfl⟩
  | datr p => exact ⟨(.datr, p), [], rfl⟩
  | stsr p => exact ⟨(.stsr, p), [], rfl⟩
  | tLine | tRect | tFrect | tTri | tFtri | tCirc | tFcirc | bMove | bTmove | bStart | pwrOn =>
    exact ⟨(.cmdw, _), [(.datw, _)], rfl⟩
  | _ => exact absurd rfl hf

/-- What an idle SEQ does with a command that it does not refuse: it accepts it, and ends it at once or runs a program that
begins with `Hold`. Only INIT has INIT's code, and only under that code does a program set SEQ.cfg. -/
structure State.Accepts (s : State) (i : Instr) (o : Op) (t : State) : Prop where
  code : o.code = 0x10 → ∃ w h d, i = .init w h d
  how : (∃ x, t = (s.accept o).finish x .none)
    ∨ ∃ k, (∀ d, Micro.setCfg d ∈ k → o.code = 0x10) ∧ t = run (.hold :: k) (s.accept o)

theorem setCfg_notMem_frameMicros (d : Depth) (fs : List (FrameOp × Byte)) : Micro.setCfg d ∉ frameMicros fs := by
  simp [frameMicros]

theorem setCfg_notMem_wrTable (d : Depth) (w : List (Byte × Byte)) : Micro.setCfg d ∉ wrTable w := by
  simp [wrTable, wrAddr]

theorem setCfg_notMem_pollingRest (d : Depth) (k : PollKind) : Micro.setCfg d ∉ pollingRest k := by
  cases k <;> simp [pollingRest, pollFrames]

theorem command_accepts {i : Instr} {s t : State} {o : Op} {fs : List (FrameOp × Byte)} {r : Ret} (hb : s.seq.busy = false)
    (hc : (o.code == 0x10) = false) (h : s.command o (window (frameMicros fs) r) = .next t) : s.Accepts i o t := by
  refine ⟨fun e => absurd hc (by simp [e]), .inr ⟨frameMicros fs ++ [.release, .finish r], fun d hd => ?_, ?_⟩⟩
  · simp [setCfg_notMem_frameMicros] at hd
  · simpa [State.command, hb, window, eq_comm] using h

/-- The form the programs of the engine commands have in common (rules R197 to R199, R220). -/
def engineProgram (staging trigger : List (Byte × Byte)) (k : PollKind) : List Micro :=
  [.hold] ++ wrTable staging ++ ([.phase .paramsStaged] ++ wrTable trigger ++ [.phase .triggered, .pollStart] ++ pollingRest k)

theorem engine_accepts {i : Instr} {s t : State} {o : Op} {w w' : List (Byte × Byte)} {p : PollKind}
    (hc : (o.code == 0x10) = false) (h : t = run (engineProgram w w' p) (s.accept o)) : s.Accepts i o t := by
  refine ⟨fun e => absurd hc (by simp [e]), .inr ⟨_, fun d hd => ?_, h⟩⟩
  simp [setCfg_notMem_wrTable, setCfg_notMem_pollingRest] at hd

theorem draw_accepts {i : Instr} {s t : State} {o : Op} {prog : Depth → List Micro} (hb : s.seq.busy = false)
    (hc : (o.code == 0x10) = false) (hp : ∀ d, ∃ w w' p, prog d = engineProgram w w' p) (h : s.draw o prog = .next t) :
    s.Accepts i o t := by
  simp only [State.draw, hb] at h
  cases hg : s.seq.cfg with
  | none => simp [hg] at h
  | some c =>
    obtain ⟨w, w', p, e⟩ := hp c.colorDepth
    simp only [hg, e] at h
    exact engine_accepts hc (Host.Outcome.next.inj h).symm

/-- The operands of INIT in SEQ.op (rule R26). -/
def Op.forInit (o : Op) (width height : Half) (depth : Byte) : Op :=
  { o with code := 0x10, width := width, height := height, depth := depth }

/-- Validation ends an INIT of a triple SUPPORTED does not hold of (rule R161). -/
theorem exec_init_unsupported {s : State} {w h : Half} {d : Byte} (hb : s.seq.busy = false) (hp : s.P.panel? w h d = none) :
    exec (.init w h d) s = .next ((s.accept (s.seq.op.forInit w h d)).finish .unsupportedConfiguration .none) := by
  simp [exec, execInit, hb, hp, Op.forInit]

/-- A supported INIT runs its program (rule R160). -/
theorem exec_init_supported {s : State} {w h : Half} {d : Byte} {p : Panel} (hb : s.seq.busy = false)
    (hp : s.P.panel? w h d = some p) :
    exec (.init w h d) s = .next (run (initProgram s.P (s.seq.op.forInit w h d) p) (s.accept (s.seq.op.forInit w h d))) := by
  simp [exec, execInit, hb, hp, Op.forInit]

/-- What exec does with a command that an idle SEQ does not refuse. -/
theorem exec_accepts {i : Instr} {s t : State} (hf : i.format = .seqcmd) (hb : s.seq.busy = false) (h : exec i s = .next t) :
    ∃ o, s.Accepts i o t := by
  cases i with
  | cmdw | datw | datr | stsr | tLine | tRect | tFrect | tTri | tFtri | tCirc | tFcirc | bMove | bTmove | bStart | pwrOn =>
    cases hf
  | wrcmd reg => exact ⟨_, command_accepts (fs := [(.cmdw, reg)]) hb rfl h⟩
  | wrdata b => exact ⟨_, command_accepts (fs := [(.datw, b)]) hb rfl h⟩
  | rddata => exact ⟨_, command_accepts (fs := [(.datr, 0x00)]) hb rfl h⟩
  | rdstatus => exact ⟨_, command_accepts (fs := [(.stsr, 0x00)]) hb rfl h⟩
  | wrreg reg b => exact ⟨_, command_accepts (fs := [(.cmdw, reg), (.datw, b)]) hb rfl h⟩
  | rdreg reg => exact ⟨_, command_accepts (fs := [(.cmdw, reg), (.datr, 0x00)]) hb rfl h⟩
  | wr16 r0 r1 v =>
    exact ⟨_, command_accepts (fs := [(.cmdw, r0), (.datw, lo v), (.cmdw, r1), (.datw, hi v)]) hb rfl h⟩
  | rd16 r0 r1 =>
    exact ⟨_, command_accepts (fs := [(.cmdw, r0), (.datr, 0x00), (.cmdw, r1), (.datr, 0x00)]) hb rfl h⟩
  | line | rect | frect => exact ⟨_, draw_accepts hb rfl (fun d => ⟨_, _, _, draw2_eq _ d _ _⟩) h⟩
  | tri | ftri => exact ⟨_, draw_accepts hb rfl (fun d => ⟨_, _, _, draw3_eq _ d _ _⟩) h⟩
  | circ | fcirc => exact ⟨_, draw_accepts hb rfl (fun d => ⟨_, _, _, drawC_eq _ d _ _⟩) h⟩
  | init w hh d =>
    refine ⟨s.seq.op.forInit w hh d, fun _ => ⟨w, hh, d, rfl⟩, ?_⟩
    cases hp : s.P.panel? w hh d with
    | none =>
      rw [exec_init_unsupported hb hp] at h
      exact .inl ⟨_, (Host.Outcome.next.inj h).symm⟩
    | some p =>
      rw [exec_init_supported hb hp, initProgram_eq] at h
      simp only [List.append_assoc, List.cons_append] at h
      exact .inr ⟨_, fun _ _ => rfl, (Host.Outcome.next.inj h).symm⟩
  | btecopy sl sx sy w hh dl dx dy tr key =>
    simp only [exec, execBtecopy, hb, Bool.false_eq_true, if_false] at h
    refine ⟨s.seq.op.copy sl sx sy w hh dl dx dy tr key, ?_⟩
    split at h
    · cases h
    · split at h
      · split at h
        · exact ⟨fun e => (by cases e), .inl ⟨_, (Host.Outcome.next.inj h).symm⟩⟩
        · rw [bteCopy_eq] at h
          exact engine_accepts rfl (Host.Outcome.next.inj h).symm
      · cases h

/-! ### A reset of SEQ in a gap -/

/-- SEQ after its own reset, field by field, is what rule R52 says, SEQ.op kept; DEV has completed in the gap. -/
theorem gap_resetSeq_after (s : State) :
    s.gap.resetSeq = s.after { Seq.reset with op := s.seq.op } (s.dev.complete s.now) 1 0 [] := by
  simp [State.gap, State.resetSeq, State.after]

theorem wait_reset {s : State} (h : s.now.seqReset = true) : s.wait = s.gap.resetSeq := if_pos h

/-- A reset of SEQ before a primitive drops it and what follows it. -/
theorem run_primitive_reset {s : State} (h : s.now.seqReset = true) {m : Micro} (hm : m.isPrimitive = true) (k : List Micro) :
    run (m :: k) s = s.gap.resetSeq := by
  have hgap : ∀ f : State → Flow, s.inGap f = .halt s.gap.resetSeq := fun f => if_pos h
  cases m with
  | hold | release | frame | writeSet | writeClr | delay | resetLine =>
    simp only [run, State.micro, State.primitive, State.frame, hgap]
  | _ => cases hm

/-- A reset of SEQ before the first primitive of a window. -/
theorem inWindow_reset {s : State} (h : s.now.seqReset = true) (f : FrameOp × Byte) (fs : List (FrameOp × Byte)) :
    s.inWindow (frameMicros (f :: fs)) = s.gap.resetSeq := by
  unfold State.inWindow
  split
  · exact run_primitive_reset h (m := .frame f.1 f.2) rfl _
  · exact run_primitive_reset h (m := .hold) rfl _

/-- A reset of SEQ before the release of an abort. -/
theorem abort_reset {s : State} (hh : s.seq.hold = true) (h : s.now.seqReset = true) (x : Result) :
    s.abort x = s.gap.resetSeq := by
  simp [State.abort, State.letGo, hh, State.closing, h]

/-- A reset of SEQ after a busy poll read: before its delay, or before the release of the timeout. -/
theorem run_pollTest_reset {s : State} (h : s.now.seqReset = true) {p : PollKind} (hr : s.seq.rx &&& p.mask ≠ 0)
    (hm : s.P.pollMax ≠ some (s.seq.pollcnt + 1) ∨ s.seq.hold = true) (k : List Micro) :
    run (.pollTest p :: k) s = s.gap.resetSeq := by
  let s1 : State := { s with seq := { s.seq with pollcnt := s.seq.pollcnt + 1 } }
  have hs1 : s1.now.seqReset = true := h
  have hflow : s.pollTest p = .halt s1.gap.resetSeq := by
    by_cases hmax : s.P.pollMax = some (s.seq.pollcnt + 1)
    · have hh : s1.seq.hold = true := hm.resolve_left fun hne => hne hmax
      simp only [State.pollTest, if_neg hr, if_pos hmax]
      exact congrArg Flow.halt (abort_reset hh hs1 _)
    · simp only [State.pollTest, if_neg hr, if_neg hmax]
      exact if_pos hs1
  simp only [run, State.micro, hflow]
  rfl

/-- DEV over an abort that has only the bus to release. -/
theorem abort_dev_of_hold {s : State} (hh : s.seq.hold = true) (hl : s.seq.resetn = true) (h : s.now.seqReset = false)
    (x : Result) : (s.abort x).dev = s.dev.complete s.now := by
  simp [State.abort, State.letGo, hh, closing_calm h, State.lineHigh, hl, State.post]

/-- A step that begins with a frame the transport fails (rule R139). -/
theorem step_frame_failed {s : State} {op : FrameOp} {p : Byte} {k : List Micro} (hu : s.seq.ucode = .frame op p :: k)
    (hr : s.now.seqReset = false) (hf : s.now.fate ≠ .ok) :
    step s = .next (((s.keep []).gap.unsent op p (decide (s.now.fate = .failActed))).abort .busTransportFailure) := by
  rw [step_resumes hu, run_frame_failed (s := s.keep []) hr hf]
  rfl

/-- Settles O8: each of these steps begins with a gap, or comes to one after the failed frame, and a reset there leaves the
state of `gap_resetSeq_after`. -/
theorem seqResetInAnyGap : Obligations.SeqResetInAnyGap := by
  unfold Obligations.SeqResetInAnyGap
  intro q
  refine ⟨fun s h => ?_, fun s t0 t1 ts op p k hu hh hl he h0 hfate h1 => ?_⟩
  · intro t
    have hgap : s.gap.resetSeq = t s.seq.op := gap_resetSeq_after s
    have hkeep : (s.keep []).gap.resetSeq = t s.seq.op := hgap
    refine ⟨fun hu hw => ?_, fun i hf => ?_, fun i u hf hb hi => ?_, fun m k hm hu => ?_, fun p k hu hr hm => ?_⟩
    · rw [step_waits hu hw, wait_reset h, hgap]
    · obtain ⟨f, fs, hi⟩ := exec_frames hf s
      rw [hi, inWindow_reset h, hgap]
    · obtain ⟨o, -, ⟨x, rfl⟩ | ⟨k, -, rfl⟩⟩ := exec_accepts hf hb hi
      · exact ⟨rfl, .inl rfl⟩
      · rw [run_primitive_reset (s := s.accept o) h (m := .hold) rfl]
        exact ⟨rfl, .inr (gap_resetSeq_after (s.accept o))⟩
    · rw [step_resumes hu, run_primitive_reset (s := s.keep []) h hm, hkeep]
    · rw [step_resumes hu, run_pollTest_reset (s := s.keep []) h hr hm, hkeep]
  · let v : State := { s with env := t0 :: { t1 with seqReset := false } :: ts }
    have hnow : s.now = t0 := by simp [State.now, he]
    have hreset : (s.env.tail.headD {}).seqReset = true := by simp [he, h1]
    refine ⟨_, step_frame_failed (s := v) hu h0 hfate, ?_⟩
    rw [step_frame_failed hu (hnow ▸ h0) (hnow ▸ hfate), abort_reset (s := (s.keep []).gap.unsent op p _) hh hreset,
      gap_resetSeq_after, abort_dev_of_hold (s := (v.keep []).gap.unsent op p _) hh hl rfl]
    simp [v, q, State.after, State.now, he, events, Seq.reset, Dev.complete]

end Sys2Proof.Machine
end

section
/-! PROOFS. A data write or a status read as a frame of its own (rules R131, R133, R204, R205, R231, R303), said whole, and what a
write taints (U4). -/

namespace Sys2Proof.Machine

/-! ### The frame -/

/-- DATW in a calm world: DEV takes the byte as the completion steps before it leave DEV. -/
theorem exec_datw_after {s : State} (h : s.calm = true) (b : Byte) :
    exec (.datw b) s = .next (s.afterWindow { s.seq with cur := s.curAfterWrite b } ((s.devAtFrame 0).datw s.P s.draws b) 1
      [.xfer .datw b none]) := by
  have hw := inWindow_frame_after h .datw b
  rw [curAfter_curAfterWrite] at hw
  exact congrArg Host.Outcome.next hw

@[simp] theorem devAtFrame_target (s : State) (k n : Nat) : (s.devAtFrame k).target n = s.dev.cur.getD (anyAddr n) := by
  simp [Dev.target]

@[simp] theorem devAtFrame_inReset (s : State) (k : Nat) (P : Params) (n : Nat) :
    (s.devAtFrame k).inReset P n = s.dev.inReset P n := by
  simp [Dev.inReset]

@[simp] theorem devAtFrame_snapshot (s : State) (k : Nat) (P : Params) (g : List RegName) :
    (s.devAtFrame k).snapshot P g = s.dev.snapshot P g := snapshot_congr (devAtFrame_mem s k) P g

@[simp] theorem devAtFrame_bteSizeZero (s : State) (k : Nat) (P : Params) (n : Nat) :
    (s.devAtFrame k).bteSizeZero P n = s.dev.bteSizeZero P n := by
  simp [Dev.bteSizeZero]

/-- Completion steps leave the cells, the pointer and the reset state alone. -/
theorem devAtFrame_kept (s : State) (k : Nat) :
    (∀ x, (s.devAtFrame k).cell x = s.dev.cell x) ∧ adv s.P (s.devAtFrame k).cur = adv s.P s.dev.cur
      ∧ (s.devAtFrame k).rstIfUnk = s.dev.rstIfUnk :=
  ⟨devAtFrame_cell s k, congrArg (adv s.P) (devAtFrame_cur s k), devAtFrame_rstIfUnk s k⟩

/-! ### The status register -/

/-- Bit 6 of the status register is the BTE's flag (rules R50, R133). -/
theorem statusByte_bit6 {d : Dev} {f : Bool} (h : d.bteBusy = .known f) (any : Byte) : (d.statusByte any).getLsbD 6 = f := by
  cases f <;> simp [Dev.statusByte, flagBit, h]

/-- Settles O17: the reply is the status byte of DEV as the frame finds it. -/
theorem stsrReturnsStatus : Obligations.StsrReturnsStatus := fun p _ h =>
  ⟨_, congrArg Host.Outcome.next (inWindow_frame_after h .stsr p), fun _ hf => statusByte_bit6 hf _⟩

/-! ### PWR -/

/-- A byte without the reset bit is stored in PWR. -/
theorem writePwr_store {P : Params} {b : Byte} (h : b &&& P.pwrRst = 0) (d : Dev) : d.writePwr P b = d.setCell (P.addr .PWR) b :=
  if_neg (by simp [h])

/-- A byte with the reset bit resets DEV (rule R303). -/
theorem writePwr_reset {P : Params} {b : Byte} (h : b &&& P.pwrRst ≠ 0) (d : Dev) :
    d.writePwr P b = { d with
      cur := .unknown, mem := [((P.addr .PWR).toNat, b)], drawBusy := .known false, circBusy := .known false,
      bteBusy := .known false } :=
  if_pos (by simpa using h)

/-- Settles O12: the write of PWR by whether its byte has the reset bit. -/
theorem powerWriteMayResetDevice : Obligations.PowerWriteMayResetDevice := by
  intro b s hP h ht
  refine ⟨_, exec_datw_after h b, ?_⟩
  rw [datw_pwr hP ((devAtFrame_target s 0 s.draws).trans ht)]
  by_cases hb : b &&& s.P.pwrRst = 0
  · rw [writePwr_store hb, if_pos hb]
    refine ⟨devAtFrame_oplog s 0, devAtFrame_rstIfUnk s 0, fun x => ?_, rfl, congrArg (adv s.P) (devAtFrame_cur s 0)⟩
    have := cell_setCell (s.devAtFrame 0) (s.P.addr .PWR) b x
    rwa [devAtFrame_cell] at this
  · rw [writePwr_reset hb, if_neg hb]
    exact ⟨devAtFrame_oplog s 0, devAtFrame_rstIfUnk s 0, cell_of_mem_single rfl, rfl, rfl⟩

/-! ### DCR -/

/-- The five listed start bytes of the drawing engine (rule R204). -/
theorem mem_drawStarts_iff (b : Byte) :
    b ∈ ([0x80, 0x90, 0xB0, 0x81, 0xA1] : List Byte)
      ↔ b.getLsbD 7 = true ∧ b.getLsbD 6 = false ∧ drawCodes.contains (b &&& 0x7F) = true := by
  revert b; decide

/-- The two listed start bytes of the circle engine (rule R205). -/
theorem mem_circStarts_iff (b : Byte) :
    b ∈ ([0x40, 0x60] : List Byte)
      ↔ b.getLsbD 7 = false ∧ b.getLsbD 6 = true ∧ circCodes.contains (b &&& 0xBF) = true := by
  revert b; decide

/-- A byte without start bits and with bits 3:1 clear (rule R205, U7). -/
abbrev quietByte (b : Byte) : Prop := b.getLsbD 7 = false ∧ b.getLsbD 6 = false ∧ b &&& 0x0E = 0

theorem writeDcr_quiet {b : Byte} (h : quietByte b) (P : Params) (d : Dev) :
    d.writeDcr P b = { d with
      drawBusy := disturbed d.drawBusy
      circBusy := disturbed d.circBusy
      oplog := taintIf d.circBusy .circ (taintIf d.drawBusy .draw d.oplog) } := by
  obtain ⟨h7, h6, hz⟩ := h
  simp only [Dev.writeDcr, h7, h6, hz, if_true]

theorem writeDcr_draw {b : Byte} (hb : b ∈ ([0x80, 0x90, 0xB0, 0x81, 0xA1] : List Byte)) {d : Dev} (hi : d.allIdle = true)
    (P : Params) :
    d.writeDcr P b = { d with
      drawBusy := .known true
      oplog := d.oplog ++ [⟨.draw, b, .known (d.snapshot P drawRegs)⟩] } := by
  obtain ⟨h7, h6, hc⟩ := (mem_drawStarts_iff b).mp hb
  simp only [Dev.writeDcr, h7, h6, hc, hi, Bool.and_self, if_true]

theorem writeDcr_circ {b : Byte} (hb : b ∈ ([0x40, 0x60] : List Byte)) {d : Dev} (hi : d.allIdle = true) (P : Params) :
    d.writeDcr P b = { d with
      circBusy := .known true
      oplog := d.oplog ++ [⟨.circ, b, .known (d.snapshot P drawRegs)⟩] } := by
  obtain ⟨h7, h6, hc⟩ := (mem_circStarts_iff b).mp hb
  simp only [Dev.writeDcr, h7, h6, hc, hi, Bool.and_self, if_true]

/-- Any other byte, or a start byte while a flag is not 0 (U2, U3, U7). -/
theorem writeDcr_scramble {b : Byte} {d : Dev} (hq : ¬quietByte b)
    (hd : ¬(b ∈ ([0x80, 0x90, 0xB0, 0x81, 0xA1] : List Byte) ∧ d.allIdle = true))
    (hc : ¬(b ∈ ([0x40, 0x60] : List Byte) ∧ d.allIdle = true)) (P : Params) : d.writeDcr P b = d.scramble P b drawRegs := by
  rw [mem_drawStarts_iff] at hd
  rw [mem_circStarts_iff] at hc
  unfold Dev.writeDcr
  cases h7 : b.getLsbD 7 <;> cases h6 : b.getLsbD 6
  case false.false => exact if_neg fun hz => hq ⟨h7, h6, hz⟩
  case false.true =>
    refine if_neg fun hs => ?_
    obtain ⟨hcode, hidle⟩ := Bool.and_eq_true_iff.mp hs
    exact hc ⟨⟨h7, h6, hcode⟩, hidle⟩
  case true.false =>
    refine if_neg fun hs => ?_
    obtain ⟨hcode, hidle⟩ := Bool.and_eq_true_iff.mp hs
    exact hd ⟨⟨h7, h6, hcode⟩, hidle⟩
  case true.true => rfl

/-- A write that scrambles DEV, the pointer's movement included, leaves every field but the log `?` (U2, U3). -/
theorem scramble_scrambled {d e : Dev} (hl : e.oplog = d.oplog) (P : Params) (b : Byte) (g : List RegName) :
    d.scrambled { e.scramble P b g with cur := adv P (e.scramble P b g).cur } b :=
  ⟨fun _ => rfl, rfl, rfl, ⟨.unknown, b, .known (e.snapshot P g)⟩, rfl, rfl, congrArg (· ++ _) hl⟩

/-- Settles O14: the four things a byte written to DCR can do. -/
theorem dcrWriteTriggers : Obligations.DcrWriteTriggers := by
  intro b s hP h ht hr
  refine ⟨_, exec_datw_after h b, ?_⟩
  rw [datw_dcr ((devAtFrame_target s 0 s.draws).trans ht) ((devAtFrame_inReset s 0 _ _).trans hr)]
  have hkept := devAtFrame_kept s 0
  have hlog := devAtFrame_oplog s 0
  by_cases hq : quietByte b
  · rw [writeDcr_quiet hq]
    intro e kept
    rw [if_pos hq]
    refine ⟨hkept, rfl, rfl, rfl, ?_, fun hd hc => ?_⟩
    · simp [Dev.logHeads, taintIf_heads]
    · exact (taintIf_of_ne hc _ _).trans ((taintIf_of_ne hd _ _).trans hlog)
  by_cases hd : b ∈ ([0x80, 0x90, 0xB0, 0x81, 0xA1] : List Byte) ∧ (s.devAtFrame 0).allIdle = true
  · rw [writeDcr_draw hd.1 hd.2, devAtFrame_snapshot, hlog]
    intro e kept
    rw [if_neg hq, if_pos hd]
    obtain ⟨-, hcirc, hbte⟩ := allIdle_iff.mp hd.2
    exact ⟨hkept, by simp [Dev.flags, hcirc, hbte], rfl⟩
  by_cases hc : b ∈ ([0x40, 0x60] : List Byte) ∧ (s.devAtFrame 0).allIdle = true
  · rw [writeDcr_circ hc.1 hc.2, devAtFrame_snapshot, hlog]
    intro e kept
    rw [if_neg hq, if_neg hd, if_pos hc]
    obtain ⟨hdraw, -, hbte⟩ := allIdle_iff.mp hc.2
    exact ⟨hkept, by simp [Dev.flags, hdraw, hbte], rfl⟩
  · rw [writeDcr_scramble hq hd hc]
    intro e kept
    rw [if_neg hq, if_neg hd, if_neg hc]
    exact scramble_scrambled hlog _ _ _

/-! ### BTE_CTRL0 -/

theorem join16_eq_zero_iff (l h : Byte) : join16 l h = 0 ↔ l = 0 ∧ h = 0 := by
  constructor
  · intro e
    exact ⟨by rw [← lo_join16 l h, e]; rfl, by rw [← hi_join16 l h, e]; rfl⟩
  · rintro ⟨rfl, rfl⟩
    rfl

/-- The size a start latches is zero where its width or its height is (rule R231, U11). -/
theorem bteSizeZero_iff {P : Params} {d : Dev} {w0 w1 h0 h1 : Byte} (hw0 : d.cell (P.addr .BW_L) = .known w0)
    (hw1 : d.cell (P.addr .BW_H) = .known w1) (hh0 : d.cell (P.addr .BH_L) = .known h0)
    (hh1 : d.cell (P.addr .BH_H) = .known h1) (n : Nat) :
    d.bteSizeZero P n = true ↔ join16 w0 w1 = 0 ∨ join16 h0 h1 = 0 := by
  rw [join16_eq_zero_iff, join16_eq_zero_iff]
  simp [Dev.bteSizeZero, hw0, hw1, hh0, hh1]

theorem bteOperationOk_iff {P : Params} {d : Dev} :
    d.bteOperationOk P = true ↔ d.cell (P.addr .BTE_CTRL1) = .known 0xC2 ∨ d.cell (P.addr .BTE_CTRL1) = .known 0xC5 := by
  simp [Dev.bteOperationOk]

theorem writeBteStart_quiet {b : Byte} (h : b.getLsbD 7 = false) (P : Params) (n : Nat) (d : Dev) :
    d.writeBteStart P n b = { d with oplog := d.taintedLog P (P.addr .BTE_CTRL0) } := by
  simp only [Dev.writeBteStart, h, Bool.false_eq_true, if_false]

theorem writeBteStart_start {P : Params} {n : Nat} {d : Dev} (hi : d.allIdle = true) (hz : d.bteSizeZero P n = false)
    (ho : d.bteOperationOk P = true) :
    d.writeBteStart P n 0x80 = { d with
      bteBusy := .known true
      oplog := d.oplog ++ [⟨.bte, 0x80, .known (d.snapshot P bteRegs)⟩] } := by
  simp [Dev.writeBteStart, hi, hz, ho]

/-- Any other byte with bit 7, or 0x80 where a start is not allowed (U2, U3, U11). -/
theorem writeBteStart_scramble {P : Params} {n : Nat} {d : Dev} {b : Byte} (h : b.getLsbD 7 = true)
    (hs : ¬(b = 0x80 ∧ d.allIdle = true ∧ d.bteSizeZero P n = false ∧ d.bteOperationOk P = true)) :
    d.writeBteStart P n b = d.scramble P b bteRegs := by
  unfold Dev.writeBteStart
  rw [if_pos h, if_neg]
  simpa [and_assoc, and_comm, and_left_comm] using hs

/-- Settles O15: the three things a byte written to BTE_CTRL0 can do. -/
theorem bteStartWriteTriggers : Obligations.BteStartWriteTriggers := by
  refine ⟨fun P n d w0 w1 h0 h1 hw0 hw1 hh0 hh1 => bteSizeZero_iff hw0 hw1 hh0 hh1 n, fun b s hP h ht hr => ?_⟩
  refine ⟨_, exec_datw_after h b, ?_⟩
  rw [datw_bteStart hP ((devAtFrame_target s 0 s.draws).trans ht) ((devAtFrame_inReset s 0 _ _).trans hr)]
  have hkept := devAtFrame_kept s 0
  have hlog := devAtFrame_oplog s 0
  have hop : (s.devAtFrame 0).bteOperationOk s.P = true ↔ _ := bteOperationOk_iff
  rw [devAtFrame_cell] at hop
  have hsize := devAtFrame_bteSizeZero s 0 s.P s.draws
  by_cases h7 : b.getLsbD 7 = false
  · rw [writeBteStart_quiet h7]
    intro e kept
    rw [if_pos h7]
    refine ⟨hkept, rfl, ?_⟩
    exact (taintedLog_heads _ _ _).trans (devAtFrame_logHeads s 0)
  by_cases hs : b = 0x80 ∧ (s.devAtFrame 0).allIdle = true ∧ s.dev.bteSizeZero s.P s.draws = false
      ∧ (s.dev.cell (s.P.addr .BTE_CTRL1) = .known 0xC2 ∨ s.dev.cell (s.P.addr .BTE_CTRL1) = .known 0xC5)
  · obtain ⟨rfl, hi, hz, ho⟩ := hs
    rw [writeBteStart_start hi (hsize.trans hz) (hop.mpr ho), devAtFrame_snapshot, hlog]
    intro e kept
    rw [if_neg h7, if_pos ⟨rfl, hi, hz, ho⟩]
    obtain ⟨hdraw, hcirc, -⟩ := allIdle_iff.mp hi
    exact ⟨hkept, by simp [Dev.flags, hdraw, hcirc], rfl⟩
  · rw [writeBteStart_scramble (by simpa using h7) (by rwa [hsize, hop])]
    intro e kept
    rw [if_neg h7, if_neg hs]
    exact scramble_scrambled hlog _ _ _

/-! ### What a write taints (U4) -/

/-- Tainting the newest record of an engine, at one place of the list (newest first): the record there loses its registers
exactly where it is of that engine and none before it is. -/
theorem taintNewest_at (e : Engine) (newer older : List OpRecord) (r : OpRecord) :
    ∃ newer' older', taintNewest e (newer ++ r :: older)
        = newer' ++ (if r.engine = e ∧ e ∉ newer.map (·.engine) then { r with regs := .unknown } else r) :: older'
      ∧ newer'.map (·.engine) = newer.map (·.engine) ∧ older'.length = older.length := by
  have hlen : ∀ l, (taintNewest e l).length = l.length := fun l => by
    simpa using congrArg List.length (taintNewest_heads e l)
  induction newer with
  | nil =>
    by_cases hr : r.engine = e
    · exact ⟨[], older, by simp [taintNewest, hr], rfl, rfl⟩
    · exact ⟨[], taintNewest e older, by simp [taintNewest, hr], rfl, hlen older⟩
  | cons x l ih =>
    obtain ⟨newer', older', heq, hn, ho⟩ := ih
    by_cases hx : x.engine = e
    · exact ⟨{ x with regs := .unknown } :: l, older, by simp [taintNewest, hx], rfl, rfl⟩
    · exact ⟨x :: newer', older', by simp [taintNewest, hx, heq, Ne.symm hx], by simp [hn], ho⟩

/-- The same in the log's own order. -/
theorem taintIf_at (f : Unk Bool) (e : Engine) (pre post : List OpRecord) (r : OpRecord) :
    ∃ pre' post', taintIf f e (pre ++ r :: post)
        = pre' ++ (if f = .known true ∧ r.engine = e ∧ e ∉ post.map (·.engine) then { r with regs := .unknown } else r)
          :: post'
      ∧ pre'.length = pre.length ∧ post'.map (·.engine) = post.map (·.engine) := by
  by_cases hf : f = .known true
  · obtain ⟨newer', older', heq, hn, ho⟩ := taintNewest_at e post.reverse pre.reverse r
    refine ⟨older'.reverse, newer'.reverse, ?_, by simpa using ho, by simp [List.map_reverse, hn]⟩
    simp [taintIf, hf, heq]
  · exact ⟨pre, post, by simp [taintIf, hf], rfl, rfl⟩

/-- A log after tainting engine by engine, each where its flag in `f` is 1. -/
def taintEach (f : Engine → Unk Bool) (es : List Engine) (log : List OpRecord) : List OpRecord :=
  es.foldl (fun l e => taintIf (f e) e l) log

theorem taintEach_cons (f : Engine → Unk Bool) (e : Engine) (es : List Engine) (log : List OpRecord) :
    taintEach f (e :: es) log = taintEach f es (taintIf (f e) e log) := rfl

theorem taintEach_length (f : Engine → Unk Bool) (es : List Engine) (log : List OpRecord) :
    (taintEach f es log).length = log.length := by
  induction es generalizing log with
  | nil => rfl
  | cons e es ih =>
    have h : (taintIf (f e) e log).length = log.length := by simpa using congrArg List.length (taintIf_heads (f e) e log)
    rw [taintEach_cons, ih, h]

/-- A record of the log after that: it has lost its registers exactly where it is the newest of its engine, and that engine's
flag is 1 and it is among those named. -/
theorem taintEach_at (f : Engine → Unk Bool) (es : List Engine) (pre post : List OpRecord) (r : OpRecord) :
    (taintEach f es (pre ++ r :: post))[pre.length]?
      = some (if r.engine ∈ es ∧ f r.engine = .known true ∧ r.engine ∉ post.map (·.engine)
          then { r with regs := .unknown } else r) := by
  induction es generalizing pre post r with
  | nil => simp [taintEach]
  | cons e es ih =>
    obtain ⟨pre', post', heq, hpre, hpost⟩ := taintIf_at (f e) e pre post r
    rw [taintEach_cons, heq, ← hpre, ih, hpost]
    by_cases hr : r.engine = e
    · subst hr
      by_cases hc : f r.engine = .known true ∧ r.engine ∉ post.map (·.engine)
      · simp only [hc.1, hc.2, not_false_eq_true, and_self, and_true, if_true, List.mem_cons_self, ite_self]
      · simp only [true_and, hc, and_false, if_false]
    · simp [hr]

/-- The engines a data write can disturb, in the order the log is tainted in. -/
def engines : List Engine := [.draw, .circ, .bte]

/-- The flags of the engines `g` names. -/
def Dev.flagsIn (d : Dev) (g : Engine → Bool) (e : Engine) : Unk Bool := if g e then d.flagOf e else .known false

theorem flagsIn_eq_true_iff {d : Dev} {g : Engine → Bool} {e : Engine} :
    d.flagsIn g e = .known true ↔ d.flagOf e = .known true ∧ g e = true := by
  cases h : g e <;> simp [Dev.flagsIn, h]

theorem mem_engines_of_running {d : Dev} {e : Engine} (h : d.flagOf e = .known true) : e ∈ engines := by
  cases e with
  | draw | circ | bte => decide
  | unknown => cases h

theorem taintedLog_eq (P : Params) (d : Dev) (a : Byte) :
    d.taintedLog P a = taintEach (d.flagsIn fun e => inGroup P e.latched a) engines d.oplog := by
  have hdraw : Engine.draw.latched = drawRegs := rfl
  have hcirc : Engine.circ.latched = drawRegs := rfl
  have hbte : Engine.bte.latched = bteRegs := rfl
  have hno : ∀ e l, taintIf (.known false) e l = l := fun e l => taintIf_of_ne (by decide) e l
  cases h1 : inGroup P drawRegs a <;> cases h2 : inGroup P bteRegs a <;>
    simp [Dev.taintedLog, taintEach, engines, Dev.flagsIn, hdraw, hcirc, hbte, h1, h2, hno, Dev.flagOf]

/-- What a data write taints that neither resets nor starts nor scrambles anything: the running engines that latched the
register, at DCR the running drawing engines. -/
theorem datw_oplog_tainted {P : Params} (hP : P.wf = true) {d : Dev} {n : Nat} {a b : Byte} (ht : d.target n = a)
    (hr : d.inReset P n = false)
    (ha : plainReg P a = true ∨ a = P.addr .BTE_CTRL0 ∧ b.getLsbD 7 = false ∨ a = P.addr .DCR ∧ quietByte b) :
    ∃ g : Engine → Bool, (d.datw P n b).oplog = taintEach (d.flagsIn g) engines d.oplog
      ∧ ∀ e ∈ engines, g e = true ↔ (∃ m ∈ e.latched, P.addr m = a) ∨ a = P.addr .DCR ∧ e ≠ .bte := by
  have hgroup : a ≠ P.addr .DCR → ∀ e ∈ engines,
      inGroup P e.latched a = true ↔ (∃ m ∈ e.latched, P.addr m = a) ∨ a = P.addr .DCR ∧ e ≠ .bte := by
    intro hne e _
    simp [inGroup, hne]
  rcases ha with hp | ⟨rfl, h7⟩ | ⟨rfl, hq⟩
  · refine ⟨_, ?_, hgroup (plainReg_iff.mp hp).1⟩
    rw [datw_plain ht hp hr, taintedLog_eq]
  · refine ⟨_, ?_, hgroup (addr_ne hP (by decide) rfl)⟩
    rw [datw_bteStart hP ht hr, writeBteStart_quiet h7, taintedLog_eq]
  · refine ⟨fun e => e != .bte, ?_, fun e he => ?_⟩
    · rw [datw_dcr ht hr, writeDcr_quiet hq]
      rfl
    · have hbte : ∀ m ∈ bteRegs, P.addr m ≠ P.addr .DCR := fun m hm =>
        addr_ne hP (by rintro rfl; revert hm; decide) (by cases m <;> rfl)
      cases e with
      | draw | circ => simp
      | bte => simpa [Engine.latched] using hbte
      | unknown => exact absurd he (by decide)

/-- Settles O60: which engines the write taints, and what that does to one record. -/
theorem taintedRecordLosesRegisters : Obligations.TaintedRecordLosesRegisters := by
  intro b a s hP h ha hr hreg
  obtain ⟨g, hlog, hg⟩ := datw_oplog_tainted hP ((devAtFrame_target s 0 s.draws).trans ha.symm)
    ((devAtFrame_inReset s 0 _ _).trans hr) hreg
  rw [devAtFrame_oplog] at hlog
  have hdev : ∀ q d n l, (s.afterWindow q d n l).dev.oplog = d.oplog := fun _ d _ _ => completeAll_oplog d _
  refine ⟨_, exec_datw_after h b, ?_, fun pre post r hsplit => ?_⟩
  · rw [hdev, hlog, taintEach_length]
  · rw [hdev, hlog, hsplit, taintEach_at]
    have hpost : r.engine ∉ post.map (·.engine) ↔ ∀ x ∈ post, x.engine ≠ r.engine := by simp
    refine congrArg some (if_congr ⟨?_, ?_⟩ rfl rfl)
    · rintro ⟨he, hflag, hp⟩
      obtain ⟨hf, hge⟩ := flagsIn_eq_true_iff.mp hflag
      exact ⟨hf, hpost.mp hp, (hg _ he).mp hge⟩
    · rintro ⟨hf, hp, hl⟩
      have he := mem_engines_of_running hf
      exact ⟨he, flagsIn_eq_true_iff.mpr ⟨hf, (hg _ he).mpr hl⟩, hpost.mpr hp⟩

end Sys2Proof.Machine
end

section
/-! PROOFS. A register-access command, or a trigger byte, is its frames in one bus-held window (rules R25, R139 to R143;
log 2). -/

namespace Sys2Proof.Machine

/-! ### Frames one after the other in an open window -/

/-- The instruction that is one frame (rules R130 to R133). -/
def FrameOp.instr : FrameOp → Byte → Instr
  | .cmdw => .cmdw
  | .datw => .datw
  | .datr => .datr
  | .stsr => .stsr

theorem exec_frameInstr (op : FrameOp) (p : Byte) (s : State) : exec (op.instr p) s = .next (s.inWindow [.frame op p]) := by
  cases op <;> rfl

/-- Frames that go through, each after its gap. -/
def State.sentAll (s : State) (fs : List (FrameOp × Byte)) : State := fs.foldl (fun t f => t.gap.sent f.1 f.2) s

theorem sentAll_cons (s : State) (f : FrameOp × Byte) (fs : List (FrameOp × Byte)) :
    s.sentAll (f :: fs) = (s.gap.sent f.1 f.2).sentAll fs := rfl

theorem calm_sentAll {s : State} (h : s.calm = true) (fs : List (FrameOp × Byte)) : (s.sentAll fs).calm = true := by
  induction fs generalizing s with
  | nil => exact h
  | cons f fs ih => exact ih (calm_of_env h rfl)

theorem run_frameMicros_calm {s : State} (h : s.calm = true) (fs : List (FrameOp × Byte)) (k : List Micro) :
    run (frameMicros fs ++ k) s = run k (s.sentAll fs) := by
  induction fs generalizing s with
  | nil => rfl
  | cons f fs ih => exact (run_frame_calm h f.1 f.2 _).trans (ih (calm_of_env h rfl))

/-- What was in progress does not matter to frames of a window. -/
theorem keep_sentAll (s : State) (k : List Micro) (fs : List (FrameOp × Byte)) :
    ((s.keep k).sentAll fs).keep [] = (s.sentAll fs).keep [] := by
  induction fs generalizing s with
  | nil => rfl
  | cons f fs ih => exact ih (s.gap.sent f.1 f.2)

/-- A frame as an instruction, where SEQ holds the bus, is sent in the window that is open (rule R121). -/
theorem execAll_frame_cons {s : State} (h : s.calm = true) (hh : s.seq.hold = true) (f : FrameOp × Byte) (l : List Instr) :
    execAll (f.1.instr f.2 :: l) s = execAll l ((s.gap.sent f.1 f.2).keep []) := by
  have hrun : s.inWindow [.frame f.1 f.2] = (s.gap.sent f.1 f.2).keep [] := by
    rw [State.inWindow, if_pos hh, run_frame_calm h, run_nil]
  rw [execAll, exec_frameInstr, hrun]

/-- Frames as instructions, at least one, in an open window. -/
theorem execAll_frames {s : State} (h : s.calm = true) (hh : s.seq.hold = true) (f : FrameOp × Byte)
    (fs : List (FrameOp × Byte)) :
    execAll ((f :: fs).map fun f => f.1.instr f.2) s = .next ((s.sentAll (f :: fs)).keep []) := by
  induction fs generalizing s f with
  | nil => exact execAll_frame_cons h hh f []
  | cons g fs ih =>
    rw [List.map_cons, execAll_frame_cons h hh, ih (s := (s.gap.sent f.1 f.2).keep []) (calm_of_env h rfl) hh,
      keep_sentAll, sentAll_cons s f]

/-! ### The trigger, control and power bytes -/

theorem hold_grab (s : State) : s.grab.seq.hold = true := by
  unfold State.grab
  split
  · assumption
  · rfl

/-- A window of one register write is CMDW and DATW in the window `grab` opens and `drop` closes. -/
theorem inWindow_wrAddr_execAll {s : State} (h : s.calm = true) (a b : Byte) :
    ∃ u, execAll [.cmdw a, .datw b] s.grab = .next u ∧ s.inWindow (wrAddr a b) = s.drop u := by
  refine ⟨_, execAll_frames (calm_grab h) (hold_grab s) (.cmdw, a) [(.datw, b)], (inWindow_wrAddr h a b).trans ?_⟩
  unfold State.drop
  split <;> rfl

/-- Settles O20: each of these bytes is a window of one register write. -/
theorem triggerBytesAreTwoFrames : Obligations.TriggerBytesAreTwoFrames := by
  intro s h e he
  obtain ⟨u, hu, hw⟩ := inWindow_wrAddr_execAll h (s.P.addr e.2.1) e.2.2
  refine ⟨u, hu, ?_⟩
  rw [← hw]
  simp only [List.mem_cons, List.not_mem_nil, or_false] at he
  rcases he with rfl | rfl | rfl | rfl | rfl | rfl | rfl | rfl | rfl | rfl | rfl <;> rfl

/-! ### The register-access commands -/

/-- A command accepted by an idle SEQ that is a window of frames. -/
theorem command_windowed {s : State} {i : Instr} {op : Op} {r : Ret} (h : s.calm = true) (hb : s.seq.busy = false)
    (f : FrameOp × Byte) (fs : List (FrameOp × Byte)) (hi : exec i s = s.command op (window (frameMicros (f :: fs)) r)) :
    s.windowed i op ((f :: fs).map fun f => f.1.instr f.2) r := by
  have hopen : (s.opened op).calm = true := calm_of_env (s := s.accept op) h rfl
  refine ⟨_, execAll_frames hopen rfl f fs, ?_⟩
  rw [hi, State.command, if_neg (by simp [hb])]
  refine congrArg Host.Outcome.next ?_
  calc run (window (frameMicros (f :: fs)) r) (s.accept op)
    _ = run (frameMicros (f :: fs) ++ [.release, .finish r]) (s.opened op) := by
      rw [window, List.append_assoc, List.singleton_append, run_hold_calm (s := s.accept op) h]
      rfl
    _ = run [.release, .finish r] ((s.opened op).sentAll (f :: fs)) := run_frameMicros_calm hopen _ _
    _ = ((s.opened op).sentAll (f :: fs)).ended r := by
      rw [run_release_calm (calm_sentAll hopen _), run_finish]
      rfl

/-- Settles O25: the program of each of these commands is a window of its frames. -/
theorem registerCommandsAreTheirFrames : Obligations.RegisterCommandsAreTheirFrames := by
  intro s reg reg0 reg1 b v h hb o
  exact ⟨command_windowed h hb (.cmdw, reg) [] rfl,
    command_windowed h hb (.datw, b) [] rfl,
    command_windowed h hb (.datr, 0x00) [] rfl,
    command_windowed h hb (.stsr, 0x00) [] rfl,
    command_windowed h hb (.cmdw, reg) [(.datw, b)] rfl,
    command_windowed h hb (.cmdw, reg) [(.datr, 0x00)] rfl,
    command_windowed h hb (.cmdw, reg0) [(.datw, lo v), (.cmdw, reg1), (.datw, hi v)] rfl,
    command_windowed h hb (.cmdw, reg0) [(.datr, 0x00), (.cmdw, reg1), (.datr, 0x00)] rfl⟩

end Sys2Proof.Machine
end

section
/-! PROOFS. SEQ.cfg (rules R24, R170, R171): only INIT changes it, and an INIT leaves none, the old one or the whole new one. -/

namespace Sys2Proof.Machine

/-! ### Everything but INIT -/

/-- SEQ.cfg is `c`, the command in progress is not INIT, and no pending tick resets SEQ. -/
structure State.CfgStays (c : Option DeviceConfig) (s : State) : Prop where
  cfg : s.seq.cfg = c
  notInit : ¬(s.seq.busy = true ∧ s.seq.op.code = 0x10)
  free : ∀ k ∈ s.env, k.seqReset = false

theorem not_reset_of_free {s : State} (h : ∀ k ∈ s.env, k.seqReset = false) : ¬∃ k ∈ s.env, k.seqReset = true := by
  rintro ⟨k, hk, hr⟩
  rw [h k hk] at hr
  cases hr

/-- An abort with no reset of SEQ pending posts its result, and SEQ.cfg is as rule R171 has it. -/
theorem abort_free {s : State} (h : ∀ k ∈ s.env, k.seqReset = false) (x : Result) :
    (s.abort x).seq.result = x ∧ (s.abort x).seq.cfg = s.seq.cfgAfterAbort x ∧ (s.abort x).seq.busy = false := by
  rw [abort_after h]
  exact ⟨rfl, rfl, rfl⟩

theorem cfgAfterAbort_of_not_init {q : Seq} (h : ¬(q.busy = true ∧ q.op.code = 0x10)) (x : Result) :
    q.cfgAfterAbort x = q.cfg := by
  unfold Seq.cfgAfterAbort
  rw [if_neg]
  simp only [Bool.and_eq_true, beq_iff_eq]
  exact fun hx => h hx.1

theorem cfgStays_abort {c : Option DeviceConfig} {s : State} (h : s.CfgStays c) (x : Result) : (s.abort x).CfgStays c := by
  obtain ⟨hc, hn, hf⟩ := h
  obtain ⟨-, hcfg, hbusy⟩ := abort_free hf x
  refine ⟨hcfg.trans ((cfgAfterAbort_of_not_init hn x).trans hc), fun hx => ?_, fun k hk => hf k ((abort_env s x).subset hk)⟩
  rw [hbusy] at hx
  cases hx.1

/-- A micro-operation other than `setCfg` leaves SEQ.cfg alone. -/
theorem micro_cfgStays {c : Option DeviceConfig} {s : State} {m : Micro} (hm : ∀ d, m ≠ .setCfg d) (h : s.CfgStays c) :
    (s.micro m).state.CfgStays c := by
  have hon : ∀ t, s.GoesOn t m → t.CfgStays c := fun t ht =>
    ⟨(ht.cfg hm).trans h.cfg, by rw [ht.busy, ht.op]; exact h.notInit, fun k hk => h.free k (ht.env.subset hk)⟩
  have hfrom := micro_from s m
  cases hf : s.micro m with
  | go t => rw [hf] at hfrom; exact hon t hfrom
  | pause t => rw [hf] at hfrom; exact hon t hfrom
  | again k t => rw [hf] at hfrom; exact hon t hfrom.2
  | halt t =>
    rw [hf] at hfrom
    cases hfrom with
    | finished r _ ht => subst ht; exact ⟨h.cfg, by simp [Flow.state], h.free⟩
    | failed u op p acted _ hu ht =>
      have hs : u.CfgStays c := by rw [hu]; exact ⟨h.cfg, h.notInit, fun k hk => h.free k (List.mem_of_mem_tail hk)⟩
      exact ht ▸ cfgStays_abort hs _
    | timedOut u k _ _ hu ht =>
      have hs : u.CfgStays c := by rw [hu]; exact ⟨h.cfg, h.notInit, h.free⟩
      exact ht ▸ cfgStays_abort hs _
    | reset hr => exact absurd hr (not_reset_of_free h.free)

/-- Micro-operations without a `setCfg` leave SEQ.cfg alone. -/
theorem run_cfgStays {c : Option DeviceConfig} {s : State} {k : List Micro} (hk : ∀ d, Micro.setCfg d ∉ k)
    (h : s.CfgStays c) : (run k s).CfgStays c :=
  run_ind (I := State.CfgStays c) (fun _ _ hs => ⟨hs.cfg, hs.notInit, hs.free⟩) k
    (fun _ hm _ hs => micro_cfgStays (fun d e => hk d (e ▸ hm)) hs) s h

theorem inWindow_cfgStays {c : Option DeviceConfig} {s : State} (fs : List (FrameOp × Byte)) (h : s.CfgStays c) :
    (s.inWindow (frameMicros fs)).CfgStays c := by
  refine run_cfgStays (fun d => ?_) h
  split <;> simp [setCfg_notMem_frameMicros]

theorem exec_cfgStays {c : Option DeviceConfig} {i : Instr} {s t : State} (hb : s.seq.busy = false)
    (hi : ∀ w h d, i ≠ .init w h d) (h : exec i s = .next t) (hs : s.CfgStays c) : t.CfgStays c := by
  by_cases hf : i.format = .seqcmd
  · obtain ⟨o, hcode, hhow⟩ := exec_accepts hf hb h
    have hne : o.code ≠ 0x10 := fun e => by
      obtain ⟨w, hh, d, rfl⟩ := hcode e
      exact hi w hh d rfl
    have ha : (s.accept o).CfgStays c := ⟨hs.cfg, fun hx => hne hx.2, hs.free⟩
    rcases hhow with ⟨x, rfl⟩ | ⟨k, hk, rfl⟩
    · exact ⟨ha.cfg, by simp, ha.free⟩
    · exact run_cfgStays (fun d hd => hne (hk d (by simpa using hd))) ha
  · obtain ⟨f, fs, he⟩ := exec_frames hf s
    obtain rfl := Host.Outcome.next.inj (h.symm.trans he)
    exact inWindow_cfgStays _ hs

/-- What is of a command that is not INIT holds no `setCfg`. -/
theorem setCfg_notMem_of_fits {s : State} (h : s.fits = true) (hn : ¬(s.seq.busy = true ∧ s.seq.op.code = 0x10)) (d : Depth) :
    Micro.setCfg d ∉ s.seq.ucode := by
  intro hd
  have := List.all_eq_true.mp h _ hd
  exact hn (by simpa [Micro.fits] using this)

/-- Settles O55: nothing an instruction other than INIT runs sets SEQ.cfg, and no failure of it clears SEQ.cfg. -/
theorem onlyInitChangesConfiguration : Obligations.OnlyInitChangesConfiguration := by
  refine ⟨fun i s t hb hfree hi h => ?_, fun s t hfits hwork hn hfree h => ?_⟩
  · have ht := exec_cfgStays hb hi h ⟨rfl, by simp [hb], hfree⟩
    exact ⟨ht.cfg, ht.notInit⟩
  · rcases step_cases h with ⟨-, rfl⟩ | ⟨-, rfl⟩ | ⟨p, ps, i, hu, hb, hp, -⟩
    · exact (run_cfgStays (s := s.keep []) (setCfg_notMem_of_fits hfits hn) ⟨rfl, hn, hfree⟩).cfg
    · unfold State.wait
      rw [if_neg fun hr => not_reset_of_free hfree (now_mem hr)]
      rfl
    · simp [hu, hb, hp] at hwork

/-! ### INIT -/

/-- How an INIT that ends with no reset of SEQ ends, once it has been accepted: by a transport failure, or with the whole
configuration of its operands. -/
def State.InitEnded (s : State) (d : Depth) (t : State) : Prop :=
  t.seq.result = .busTransportFailure ∧ t.seq.cfg = none
    ∨ t.seq.result = .ok
      ∧ t.seq.cfg = some ⟨s.seq.op.width, s.seq.op.height, d, s.P.chipSelect, s.P.hasResetLine, s.P.hasIntLine⟩

/-- A micro-operation of INIT before its last two: it does not end the command by itself. -/
def Micro.initStep : Micro → Bool
  | .pollTest _ | .finish _ => false
  | .hold | .release | .frame _ _ | .writeSet | .writeClr | .delay _ | .resetLine _ | .phase _ | .pllDone _ | .forget
  | .pollStart | .setCfg _ => true

/-- INIT sets SEQ.cfg right before it finishes, and nothing before that ends it but a failure (rules R170, R171). -/
theorem initProgram_split (P : Params) (o : Op) (p : Panel) :
    ∃ pre, initProgram P o p = pre ++ [.setCfg p.depth, .finish .none] ∧ pre.all Micro.initStep = true := by
  have htable : ∀ w, (wrTable w).all Micro.initStep = true := fun w => by simp [wrTable, wrAddr, Micro.initStep]
  have hreset : (resetSteps P).all Micro.initStep = true := by
    unfold resetSteps
    split <;> rfl
  have hrel : initProgram P o p = _ ++ ([.release] ++ [.setCfg p.depth, .finish .none]) := rfl
  refine ⟨_, hrel.trans (List.append_assoc _ _ _).symm, ?_⟩
  simp only [List.all_append, htable, hreset, Bool.and_true]
  rfl

/-- A step of INIT that stops it is a transport failure. -/
theorem initStep_stops {s t : State} {m : Micro} (hm : m.initStep = true) (hb : s.seq.busy = true) (hc : s.seq.op.code = 0x10)
    (hfree : ∀ k ∈ s.env, k.seqReset = false) (h : s.Stops t m) :
    t.seq.result = .busTransportFailure ∧ t.seq.cfg = none := by
  cases h with
  | finished r hr => subst hr; cases hm
  | timedOut u k hk => subst hk; cases hm
  | reset hr => exact absurd hr (not_reset_of_free hfree)
  | failed u op p acted _ hu ht =>
    subst ht hu
    obtain ⟨hres, hcfg, -⟩ := abort_free (s := s.gap.unsent op p acted) (fun k hk => hfree k (List.mem_of_mem_tail hk))
      .busTransportFailure
    refine ⟨hres, hcfg.trans ?_⟩
    simp [Seq.cfgAfterAbort, hb, hc]

/-- The end of INIT's program, from any point of it on. -/
theorem run_init_ended {s : State} {pre : List Micro} {d : Depth} (hpre : pre.all Micro.initStep = true)
    (hb : s.seq.busy = true) (hc : s.seq.op.code = 0x10) (hfree : ∀ k ∈ s.env, k.seqReset = false)
    (hend : (run (pre ++ [.setCfg d, .finish .none]) s).seq.busy = false) :
    s.InitEnded d (run (pre ++ [.setCfg d, .finish .none]) s) := by
  induction pre generalizing s with
  | nil => exact .inr ⟨rfl, rfl⟩
  | cons m pre ih =>
    simp only [List.all_cons, Bool.and_eq_true] at hpre
    obtain ⟨hm, hpre⟩ := hpre
    have hfrom := micro_from s m
    simp only [List.cons_append, run] at hend ⊢
    cases hf : s.micro m with
    | go t =>
      simp only [hf] at hfrom hend ⊢
      have := ih (s := t) hpre (hfrom.busy.trans hb) (hfrom.op ▸ hc) (fun k hk => hfree k (hfrom.env.subset hk)) hend
      unfold State.InitEnded at this ⊢
      rwa [hfrom.op, hfrom.P] at this
    | pause t =>
      simp only [hf] at hfrom hend
      rw [keep_seq_busy, hfrom.busy, hb] at hend
      cases hend
    | halt t =>
      simp only [hf] at hfrom ⊢
      exact .inl (initStep_stops hm hb hc hfree hfrom)
    | again k t =>
      rw [hf] at hfrom
      obtain ⟨rfl, -⟩ := hfrom
      cases hm

theorem panel?_depth {P : Params} {w h : Half} {d : Byte} {p : Panel} (hp : P.panel? w h d = some p) : p.depth.toByte = d := by
  have := List.find?_some hp
  simp only [Bool.and_eq_true, beq_iff_eq] at this
  exact this.2

/-- Settles O39: validation ends it with the old configuration, a failed frame with none, and only its end sets the new one. -/
theorem initExposesNoPartialSuccess : Obligations.InitExposesNoPartialSuccess := by
  intro width height depth s t hb hfree h hend
  cases hp : s.P.panel? width height depth with
  | none =>
    rw [exec_init_unsupported hb hp] at h
    obtain rfl := Host.Outcome.next.inj h
    exact .inr (.inl ⟨rfl, rfl⟩)
  | some p =>
    obtain ⟨pre, heq, hpre⟩ := initProgram_split s.P (s.seq.op.forInit width height depth) p
    rw [exec_init_supported hb hp, heq] at h
    obtain rfl := Host.Outcome.next.inj h
    rcases run_init_ended (s := s.accept _) hpre rfl rfl hfree hend with hfail | ⟨hok, hcfg⟩
    · exact .inl hfail
    · exact .inr (.inr ⟨hok, _, hcfg, rfl, rfl, panel?_depth hp, rfl, rfl, rfl⟩)

end Sys2Proof.Machine
end

section
/-! PROOFS. The encodings (rules R90, R91, R100 to R102, R107, R110, R116): the decoder reads back what the encoder writes, and
reads nothing else; each by the part of the decoder that reads an operand list or a lone byte. -/

namespace Sys2Proof.Machine

/-! ### Operands on the command port -/

theorem half_join16 (l h : Byte) : half (join16 l h) = [l, h] := by
  rw [half, lo_join16, hi_join16]

/-- An operand of two bits, carried in a byte (log 4). -/
theorem setWidth_byte_lt_four (l : BitVec 2) : (l.setWidth 8).toNat < 4 := by
  have := l.isLt
  rw [BitVec.toNat_setWidth]
  omega

theorem byte_of_lt_four {b : Byte} (h : b.toNat < 4) : (b.setWidth 2).setWidth 8 = b := by
  apply BitVec.eq_of_toNat_eq
  simp only [BitVec.toNat_setWidth]
  omega

/-- BTECOPY's last operand but one, carried in a byte. -/
theorem byte_of_lt_two {b : Byte} (h : b.toNat < 2) : (if b.getLsbD 0 then 1 else 0 : Byte) = b := by
  obtain hb | hb : b.toNat = 0 ∨ b.toNat = 1 := by omega
  · rw [show b = 0 from BitVec.eq_of_toNat_eq hb]; rfl
  · rw [show b = 1 from BitVec.eq_of_toNat_eq hb]; rfl

/-! ### The decoder on an encoding -/

theorem decodeTwoPoint_half (mk : Half → Half → Half → Half → Half → Instr) (x0 y0 x1 y1 c : Half) (rest : List Byte) :
    decodeTwoPoint mk (half x0 ++ half y0 ++ half x1 ++ half y1 ++ half c ++ rest) = .ok (mk x0 y0 x1 y1 c, rest) := by
  simp [decodeTwoPoint, half, join16_lo_hi]

theorem decodeThreePoint_half (mk : Half → Half → Half → Half → Half → Half → Half → Instr) (x0 y0 x1 y1 x2 y2 c : Half)
    (rest : List Byte) :
    decodeThreePoint mk (half x0 ++ half y0 ++ half x1 ++ half y1 ++ half x2 ++ half y2 ++ half c ++ rest)
      = .ok (mk x0 y0 x1 y1 x2 y2 c, rest) := by
  simp [decodeThreePoint, half, join16_lo_hi]

theorem decodeCircle_half (mk : Half → Half → Byte → Half → Instr) (cx cy : Half) (r : Byte) (c : Half) (rest : List Byte) :
    decodeCircle mk (half cx ++ half cy ++ [r] ++ half c ++ rest) = .ok (mk cx cy r c, rest) := by
  simp [decodeCircle, half, join16_lo_hi]

theorem decodeCopy_half (sl : BitVec 2) (sx sy w h : Half) (dl : BitVec 2) (dx dy : Half) (tr : Bool) (key : Half)
    (rest : List Byte) :
    decodeCopy ([sl.setWidth 8] ++ half sx ++ half sy ++ half w ++ half h ++ [dl.setWidth 8] ++ half dx ++ half dy
        ++ [if tr then 1 else 0] ++ half key ++ rest)
      = .ok (.btecopy sl sx sy w h dl dx dy tr key, rest) := by
  have hflag : (if tr then 1 else 0 : Byte).toNat < 2 ∧ (if tr then 1 else 0 : Byte).getLsbD 0 = tr := by cases tr <;> decide
  refine (if_pos ⟨setWidth_byte_lt_four sl, setWidth_byte_lt_four dl, hflag.1⟩).trans ?_
  simp only [join16_lo_hi, hflag.2, BitVec.setWidth_setWidth_of_le, BitVec.setWidth_eq, Nat.reduceLeDiff]
  rfl

theorem decode_encode (i : Instr) (rest : List Byte) : decode i.format (encode i ++ rest) = .ok (i, rest) := by
  cases i with
  | cmdw | datw | datr | stsr => rfl
  | tLine | tRect | tFrect | tTri | tFtri | tCirc | tFcirc | bMove | bTmove | bStart | pwrOn => rfl
  | wrcmd | wrdata | rddata | rdstatus | wrreg | rdreg | rd16 => rfl
  | wr16 r0 r1 v => exact congrArg (fun v => Except.ok (Instr.wr16 r0 r1 v, rest)) (join16_lo_hi v)
  | init w h d =>
    exact congrArg₂ (fun w h => Except.ok (Instr.init w h d, rest)) (join16_lo_hi w) (join16_lo_hi h)
  | line | rect | frect => exact decodeTwoPoint_half _ _ _ _ _ _ _
  | tri | ftri => exact decodeThreePoint_half _ _ _ _ _ _ _ _ _
  | circ | fcirc => exact decodeCircle_half _ _ _ _ _ _
  | btecopy => exact decodeCopy_half _ _ _ _ _ _ _ _ _ _ _

/-- Settles O1: a lone code is read off, and each operand list is read back by its own part of the decoder. -/
theorem decodeEncodeRoundTrip : Obligations.DecodeEncodeRoundTrip := decode_encode

/-! ### What bytes that decode are -/

theorem decodeFrame_ok {op p : Byte} {i : Instr} (h : decodeFrame op p = .ok i) : i.format = .frame16 ∧ encode i = [op, p] := by
  unfold decodeFrame at h
  split at h <;> cases h
  all_goals
    rename_i hop
    exact ⟨rfl, congrArg (fun b => [b, p]) (BitVec.eq_of_toNat_eq hop.symm)⟩

theorem decodeTrigger_ok {b : Byte} {i : Instr} (h : decodeTrigger b = .ok i) : i.format = .dcr8 ∧ encode i = [b] := by
  unfold decodeTrigger at h
  split at h <;> cases h
  all_goals
    rename_i hb
    exact ⟨rfl, congrArg (fun b => [b]) (BitVec.eq_of_toNat_eq hb.symm)⟩

theorem decodeOperation_ok {b : Byte} {i : Instr} (h : decodeOperation b = .ok i) : i.format = .bterop8 ∧ encode i = [b] := by
  unfold decodeOperation at h
  split at h <;> cases h
  all_goals
    rename_i hb
    exact ⟨rfl, congrArg (fun b => [b]) (BitVec.eq_of_toNat_eq hb.symm)⟩

theorem decodeStart_ok {b : Byte} {i : Instr} (h : decodeStart b = .ok i) : i.format = .btestart8 ∧ encode i = [b] := by
  unfold decodeStart at h
  split at h <;> cases h
  rename_i hb
  exact ⟨rfl, congrArg (fun b => [b]) (BitVec.eq_of_toNat_eq hb.symm)⟩

theorem decodePower_ok {b : Byte} {i : Instr} (h : decodePower b = .ok i) : i.format = .pwr8 ∧ encode i = [b] := by
  unfold decodePower at h
  split at h <;> cases h
  rename_i hb
  exact ⟨rfl, congrArg (fun b => [b]) (BitVec.eq_of_toNat_eq hb.symm)⟩

theorem decodeTwoPoint_ok {mk : Half → Half → Half → Half → Half → Instr} {ops k : List Byte} {i : Instr}
    (h : decodeTwoPoint mk ops = .ok (i, k)) :
    ∃ x0 y0 x1 y1 c, i = mk x0 y0 x1 y1 c ∧ ops = half x0 ++ half y0 ++ half x1 ++ half y1 ++ half c ++ k := by
  unfold decodeTwoPoint at h
  split at h <;> cases h
  exact ⟨_, _, _, _, _, rfl, by simp only [half_join16, List.cons_append, List.nil_append]⟩

theorem decodeThreePoint_ok {mk : Half → Half → Half → Half → Half → Half → Half → Instr} {ops k : List Byte} {i : Instr}
    (h : decodeThreePoint mk ops = .ok (i, k)) :
    ∃ x0 y0 x1 y1 x2 y2 c, i = mk x0 y0 x1 y1 x2 y2 c
      ∧ ops = half x0 ++ half y0 ++ half x1 ++ half y1 ++ half x2 ++ half y2 ++ half c ++ k := by
  unfold decodeThreePoint at h
  split at h <;> cases h
  exact ⟨_, _, _, _, _, _, _, rfl, by simp only [half_join16, List.cons_append, List.nil_append]⟩

theorem decodeCircle_ok {mk : Half → Half → Byte → Half → Instr} {ops k : List Byte} {i : Instr}
    (h : decodeCircle mk ops = .ok (i, k)) :
    ∃ cx cy r c, i = mk cx cy r c ∧ ops = half cx ++ half cy ++ [r] ++ half c ++ k := by
  unfold decodeCircle at h
  split at h <;> cases h
  exact ⟨_, _, _, _, rfl, by simp only [half_join16, List.cons_append, List.nil_append]⟩

theorem decodeCopy_ok {ops k : List Byte} {i : Instr} (h : decodeCopy ops = .ok (i, k)) :
    i.format = .seqcmd ∧ 0x30 :: ops = encode i ++ k := by
  unfold decodeCopy at h
  split at h
  · split at h <;> cases h
    rename_i hbits
    obtain ⟨hsl, hdl, htr⟩ := hbits
    refine ⟨rfl, ?_⟩
    simp only [encode, half_join16, byte_of_lt_four hsl, byte_of_lt_four hdl, byte_of_lt_two htr, List.cons_append,
      List.nil_append]
  · cases h

theorem decodeCommand_ok {code : Byte} {ops k : List Byte} {i : Instr} (h : decodeCommand code ops = .ok (i, k)) :
    i.format = .seqcmd ∧ code :: ops = encode i ++ k := by
  unfold decodeCommand at h
  split at h
  case h_18 => cases h
  all_goals rename_i hcode
  case h_1 | h_2 | h_5 | h_6 | h_8 =>
    split at h <;> cases h
    exact ⟨rfl, congrArg (· :: _) (BitVec.eq_of_toNat_eq hcode)⟩
  case h_3 | h_4 =>
    cases h
    exact ⟨rfl, congrArg (· :: _) (BitVec.eq_of_toNat_eq hcode)⟩
  case h_7 | h_9 =>
    split at h <;> cases h
    refine ⟨rfl, ?_⟩
    simp only [encode, half_join16]
    exact congrArg (· :: _) (BitVec.eq_of_toNat_eq hcode)
  case h_10 | h_11 | h_12 =>
    obtain ⟨x0, y0, x1, y1, c, rfl, rfl⟩ := decodeTwoPoint_ok h
    exact ⟨rfl, congrArg (· :: _) (BitVec.eq_of_toNat_eq hcode)⟩
  case h_13 | h_14 =>
    obtain ⟨x0, y0, x1, y1, x2, y2, c, rfl, rfl⟩ := decodeThreePoint_ok h
    exact ⟨rfl, congrArg (· :: _) (BitVec.eq_of_toNat_eq hcode)⟩
  case h_15 | h_16 =>
    obtain ⟨cx, cy, r, c, rfl, rfl⟩ := decodeCircle_ok h
    exact ⟨rfl, congrArg (· :: _) (BitVec.eq_of_toNat_eq hcode)⟩
  case h_17 =>
    obtain rfl : code = 0x30 := BitVec.eq_of_toNat_eq hcode
    exact decodeCopy_ok h

/-- What is left of the bytes is carried along a part of the decoder that reads none of it. -/
theorem map_rest_ok {x : Except DecodeError Instr} {k rest : List Byte} {i : Instr} (h : x.map (fun j => (j, k)) = .ok (i, rest)) :
    x = .ok i ∧ k = rest := by
  cases x with
  | error e => cases h
  | ok j => cases h; exact ⟨rfl, rfl⟩

/-- A one-byte format, from what its bytes decode to. -/
theorem decodeByte_ok {g : Format} {f : Byte → Except DecodeError Instr}
    (hf : ∀ {b i}, f b = .ok i → i.format = g ∧ encode i = [b]) {bs rest : List Byte} {i : Instr}
    (h : decodeByte f bs = .ok (i, rest)) : i.format = g ∧ bs = encode i ++ rest := by
  cases bs with
  | nil => cases h
  | cons b k =>
    obtain ⟨hb, rfl⟩ := map_rest_ok h
    obtain ⟨hg, he⟩ := hf hb
    exact ⟨hg, by rw [he]; rfl⟩

theorem decode_frame16_ok {bs rest : List Byte} {i : Instr} (h : decode .frame16 bs = .ok (i, rest)) :
    i.format = .frame16 ∧ bs = encode i ++ rest := by
  match bs, h with
  | op :: p :: k, h =>
    obtain ⟨hop, rfl⟩ := map_rest_ok h
    obtain ⟨hg, he⟩ := decodeFrame_ok hop
    exact ⟨hg, by rw [he]; rfl⟩

/-- Settles O2: format by format, from what each part of the decoder accepts. -/
theorem decodedBytesAreTheEncoding : Obligations.DecodedBytesAreTheEncoding := by
  intro f bs i rest h
  cases f with
  | frame16 => exact decode_frame16_ok h
  | dcr8 => exact decodeByte_ok decodeTrigger_ok h
  | bterop8 => exact decodeByte_ok decodeOperation_ok h
  | btestart8 => exact decodeByte_ok decodeStart_ok h
  | pwr8 => exact decodeByte_ok decodePower_ok h
  | seqcmd =>
    cases bs with
    | nil => cases h
    | cons code ops => exact decodeCommand_ok h

/-! ### Bytes of the tables -/

/-- Settles O3: each packet is a closed term of the decoder. -/
theorem tableBytesDecode : Obligations.TableBytesDecode := by
  unfold Obligations.TableBytesDecode
  decide

theorem decodeFrame_undefined {op : Byte} (h00 : op ≠ 0x00) (h40 : op ≠ 0x40) (h80 : op ≠ 0x80) (hC0 : op ≠ 0xC0) (p : Byte) :
    decodeFrame op p = .error (.undefinedFrameOpcode op) := by
  unfold decodeFrame
  split
  case h_1 hop => exact absurd (BitVec.eq_of_toNat_eq hop) h80
  case h_2 hop => exact absurd (BitVec.eq_of_toNat_eq hop) h00
  case h_3 hop => exact absurd (BitVec.eq_of_toNat_eq hop) h40
  case h_4 hop => exact absurd (BitVec.eq_of_toNat_eq hop) hC0
  case h_5 => rfl

/-- With nothing in progress the step refuses a packet that is no instruction of its format (U1, U9). -/
theorem step_undecodable {s : State} {p : Packet} {ps : List Packet} {e : DecodeError} (hu : s.seq.ucode = [])
    (hb : s.seq.busy = false) (hp : s.port = p :: ps) (hd : decodeWhole p.fmt p.bytes = .error e) :
    step s = .refused .undecodable := by
  simp [step, State.nextWork, hu, hb, hp, hd]

/-- Settles O4: the opcode byte is in none of decodeFrame's four rows, and the step refuses what does not decode. -/
theorem undefinedOpcodeRefused : Obligations.UndefinedOpcodeRefused := by
  intro op p h00 h40 h80 hC0
  have hd : decode .frame16 [op, p] = .error (.undefinedFrameOpcode op) := by
    rw [decode, decodeFrame_undefined h00 h40 h80 hC0]
    rfl
  refine ⟨hd, fun s ps hu hb hp => step_undecodable (e := .undefinedFrameOpcode op) hu hb hp ?_⟩
  rw [decodeWhole, hd]

end Sys2Proof.Machine
end

section
/-! PROOFS. Operand assembly (rules R103 to R106): a pair, a colour at each depth, the layer bit. -/

namespace Sys2Proof.Machine

/-- Settles O49, by the laws of lo, hi and join16. -/
theorem pairSplitsAndJoins : Obligations.PairSplitsAndJoins := fun v l h =>
  ⟨toNat_lo v, toNat_hi v, toNat_join16 l h, join16_lo_hi v, lo_join16 l h, hi_join16 l h⟩

/-! ### A bit field in a byte -/

/-- A field of `n` bits in a byte, shifted left by `k` with no bit lost. -/
theorem toNat_field {n k : Nat} (h : n + k ≤ 8) (x : BitVec n) : (x.setWidth 8 <<< k).toNat = x.toNat * 2 ^ k := by
  have hlt : x.toNat * 2 ^ k < 2 ^ 8 :=
    calc x.toNat * 2 ^ k < 2 ^ n * 2 ^ k := Nat.mul_lt_mul_of_pos_right x.isLt (Nat.two_pow_pos k)
      _ = 2 ^ (n + k) := (Nat.pow_add 2 n k).symm
      _ ≤ 2 ^ 8 := Nat.pow_le_pow_right (by decide) h
  have hx : x.toNat < 2 ^ 8 := x.isLt.trans_le (Nat.pow_le_pow_right (by decide) (by omega))
  rw [BitVec.toNat_shiftLeft, BitVec.toNat_setWidth, Nat.mod_eq_of_lt hx, Nat.shiftLeft_eq, Nat.mod_eq_of_lt hlt]

/-- The field is what a shift back leaves. -/
theorem extract_field {n k : Nat} (h : n + k ≤ 8) (x : BitVec n) :
    ((x.setWidth 8 <<< k) >>> k).extractLsb' 0 n = x := by
  apply BitVec.eq_of_toNat_eq
  rw [BitVec.extractLsb'_toNat, BitVec.toNat_ushiftRight, toNat_field h, Nat.shiftRight_zero, Nat.shiftRight_eq_div_pow,
    Nat.mul_div_cancel _ (Nat.two_pow_pos k), Nat.mod_eq_of_lt x.isLt]

theorem extract_setWidth {n : Nat} (h : n ≤ 8) (x : BitVec n) : (x.setWidth 8).extractLsb' 0 n = x := by
  simpa using extract_field (k := 0) h x

theorem toNat_setWidth_field {n : Nat} (h : n ≤ 8) (x : BitVec n) : (x.setWidth 8).toNat = x.toNat := by
  simpa using toNat_field (k := 0) h x

theorem toNat_bits (c : Half) (k n : Nat) : (c.extractLsb' k n).toNat = c.toNat / 2 ^ k % 2 ^ n := by
  rw [BitVec.extractLsb'_toNat, Nat.shiftRight_eq_div_pow]

/-! ### Colours -/

theorem join_fields16 (c : Half) : (c.extractLsb' 11 5 ++ c.extractLsb' 5 6) ++ c.extractLsb' 0 5 = c :=
  calc (c.extractLsb' 11 5 ++ c.extractLsb' 5 6) ++ c.extractLsb' 0 5
    _ = c.extractLsb' 5 11 ++ c.extractLsb' 0 5 :=
      congrArg (· ++ c.extractLsb' 0 5) (BitVec.extractLsb'_append_extractLsb'_eq_extractLsb' rfl)
    _ = c.extractLsb' 0 16 := BitVec.extractLsb'_append_extractLsb'_eq_extractLsb' rfl
    _ = c := BitVec.extractLsb'_eq_self

theorem join_fields8 (c : Half) : (c.extractLsb' 5 3 ++ c.extractLsb' 2 3) ++ c.extractLsb' 0 2 = c.extractLsb' 0 8 :=
  calc (c.extractLsb' 5 3 ++ c.extractLsb' 2 3) ++ c.extractLsb' 0 2
    _ = c.extractLsb' 2 6 ++ c.extractLsb' 0 2 :=
      congrArg (· ++ c.extractLsb' 0 2) (BitVec.extractLsb'_append_extractLsb'_eq_extractLsb' rfl)
    _ = c.extractLsb' 0 8 := BitVec.extractLsb'_append_extractLsb'_eq_extractLsb' rfl

/-- Settles O50: the three fields are adjacent and cover the colour. -/
theorem colour16Decomposes : Obligations.Colour16Decomposes := by
  intro P c
  have h5 : ∀ x : BitVec 5, (x.setWidth 8).toNat = x.toNat := toNat_setWidth_field (by decide)
  refine ⟨?_, ?_, ?_, ?_⟩
  · rw [colR, h5, toNat_bits]
    exact Nat.mod_eq_of_lt (by omega)
  · rw [colG, toNat_setWidth_field (by decide), toNat_bits]
    rfl
  · rw [colB, h5, toNat_bits, Nat.pow_zero, Nat.div_one]
    rfl
  · rw [colJoin, colR, colG, colB, extract_setWidth (by decide), extract_setWidth (by decide), extract_setWidth (by decide)]
    exact join_fields16 c

/-- The shifts of rule R104 lose no bit. -/
theorem shifts_of_wf {P : Params} (h : P.wf = true) : P.shiftR ≤ 5 ∧ P.shiftG ≤ 5 ∧ P.shiftB ≤ 6 := by
  simp only [Params.wf, Bool.and_eq_true, decide_eq_true_eq] at h
  tauto

/-- Settles O51: the three fields are adjacent and cover the low byte, and no shift loses a bit. -/
theorem colour8Decomposes : Obligations.Colour8Decomposes := by
  intro P c hP
  obtain ⟨hr, hg, hb⟩ := shifts_of_wf hP
  refine ⟨?_, ?_, ?_, ?_⟩
  · rw [colR, toNat_field (by omega), toNat_bits]
    congr 1
    omega
  · rw [colG, toNat_field (by omega), toNat_bits]
    rfl
  · rw [colB, toNat_field (by omega), toNat_bits, Nat.pow_zero, Nat.div_one]
    rfl
  · rw [colJoin, colR, colG, colB, extract_field (by omega), extract_field (by omega), extract_field (by omega)]
    exact congrArg (BitVec.setWidth 16) (join_fields8 c)

/-! ### The layer bit -/

/-- A vertical coordinate up to 0x7FFF leaves bit 7 of its high byte clear (rule R221). -/
theorem hi_bit7_of_bteYOk {y : Half} (h : bteYOk y = true) : (hi y).getLsbD 7 = false := by
  have hy : y.toNat ≤ 0x7FFF := of_decide_eq_true h
  have hmsb : (hi y).msb = false := BitVec.msb_eq_false_iff_two_mul_lt.mpr (by rw [toNat_hi]; omega)
  rwa [BitVec.msb_eq_getLsbD_last] at hmsb

theorem or_bit7_eq_add (b : Byte) (h : b.getLsbD 7 = false) : b ||| 0x80 = b + 0x80 := by
  revert b; decide

/-- Settles O52: layer 1 ORs nothing and layer 2 bit 7. -/
theorem layerBitIsOred : Obligations.LayerBitIsOred := by
  intro y
  have h1 : hiL y 1 = hi y := BitVec.or_zero
  have h2 : hiL y 2 = hi y ||| 0x80 := rfl
  refine ⟨h1, h2, ?_, fun h => ⟨h1 ▸ hi_bit7_of_bteYOk h, h2.trans (or_bit7_eq_add _ (hi_bit7_of_bteYOk h))⟩⟩
  rw [h2, BitVec.getLsbD_or]
  exact Bool.or_true _

end Sys2Proof.Machine
end

section
/-! PROOFS. The trigger, control and power bytes (rules R100 to R102, R107, R204, R205, R231, R303): DEV as the byte's own frame
leaves it. -/

namespace Sys2Proof.Machine

/-! ### A byte written to a named register -/

/-- A window of one register write that SEQ does not take for a reset of DEV leaves the shadow at the register, moved by the
policy. -/
theorem inWindow_wrReg_after {s : State} (h : s.calm = true) {n : RegName} {b : Byte}
    (hn : s.P.addr n = s.P.addr .PWR → b &&& s.P.pwrRst = 0) :
    s.inWindow (wrReg s.P n b)
      = s.afterWindow { s.seq with cur := .known (advByte s.P (s.P.addr n)) }
          (((s.devAtFrame 1).cmdw (s.P.addr n)).datw s.P (s.draws + 1) b) 2 (writePrims [(s.P.addr n, b)]) := by
  rw [wrReg, inWindow_wrAddr_after h, if_neg fun hc => hc.2 (hn hc.1)]

/-- A register that is not PWR. -/
theorem inWindow_wrReg_after_of_ne {s : State} (hP : s.P.wf = true) (h : s.calm = true) {n : RegName} (hn : n ≠ .PWR) (b : Byte) :
    s.inWindow (wrReg s.P n b)
      = s.afterWindow { s.seq with cur := .known (advByte s.P (s.P.addr n)) }
          (((s.devAtFrame 1).cmdw (s.P.addr n)).datw s.P (s.draws + 1) b) 2 (writePrims [(s.P.addr n, b)]) :=
  inWindow_wrReg_after h fun hc => absurd hc (addr_ne hP hn (by cases n <;> rfl))

/-- The completion steps before the byte and the CMDW leave DEV awake. -/
theorem inReset_devAtFrame_cmdw {s : State} (hw : s.dev.awake s.P = true) (k n : Nat) (a : Byte) :
    ((s.devAtFrame k).cmdw a).inReset s.P n = false :=
  (devAtFrame_inReset s k s.P n).trans (inReset_of_awake hw n)

theorem snapshot_devAtFrame_cmdw (s : State) (k : Nat) (a : Byte) (g : List RegName) :
    ((s.devAtFrame k).cmdw a).snapshot s.P g = s.dev.snapshot s.P g := snapshot_congr (devAtFrame_mem s k) s.P g

/-! ### DCR -/

/-- The bytes that start the drawing engine (rule R204) and the circle engine (rule R205). -/
def Starts (e : Engine) (b : Byte) : Prop :=
  e = .draw ∧ b ∈ ([0x80, 0x90, 0xB0, 0x81, 0xA1] : List Byte) ∨ e = .circ ∧ b ∈ ([0x40, 0x60] : List Byte)

/-- A start byte written to DCR of an idle device sets the engine's flag and logs its operation. -/
theorem datw_dcr_starts {P : Params} {d : Dev} {e : Engine} {b : Byte} (hs : Starts e b) (hi : d.allIdle = true) {n : Nat}
    (hw : d.inReset P n = false) (hc : d.cur = .known (P.addr .DCR)) :
    d.datw P n b = { d with
      cur := .known (advByte P (P.addr .DCR))
      drawBusy := .known (e == .draw)
      circBusy := .known (e == .circ)
      bteBusy := .known false
      oplog := d.oplog ++ [⟨e, b, .known (d.snapshot P drawRegs)⟩] } := by
  obtain ⟨hdraw, hcirc, hbte⟩ := allIdle_iff.mp hi
  rw [datw_dcr (target_known hc n) hw]
  rcases hs with ⟨rfl, hb⟩ | ⟨rfl, hb⟩
  · rw [writeDcr_draw hb hi]
    simp [hc, hcirc, hbte]
  · rw [writeDcr_circ hb hi]
    simp [hc, hdraw, hbte]

/-- Settles O21: each byte is a start byte of its engine, and the completion steps before it change the flags alone. -/
theorem drawingTriggersStart : Obligations.DrawingTriggersStart := by
  intro s hP h hw hi e he
  have hrow : exec e.1 s = .next (s.inWindow (wrReg s.P .DCR e.2.1)) ∧ Starts e.2.2 e.2.1 := by
    unfold Starts
    simp only [List.mem_cons, List.not_mem_nil, or_false] at he
    rcases he with rfl | rfl | rfl | rfl | rfl | rfl | rfl <;> exact ⟨rfl, by decide⟩
  obtain ⟨hexec, hstart⟩ := hrow
  refine ⟨_, hexec.trans (congrArg _ (inWindow_wrReg_after_of_ne hP h (by decide) _)), ?_⟩
  rw [datw_dcr_starts (d := (s.devAtFrame 1).cmdw _) hstart hi (inReset_devAtFrame_cmdw hw 1 _ _) rfl, snapshot_devAtFrame_cmdw]
  exact ⟨devAtFrame_cell s 1, rfl, congrArg (· ++ _) (devAtFrame_oplog s 1), rfl, devAtFrame_rstIfUnk s 1⟩

/-! ### BTE_CTRL1 and PWR -/

theorem holds_single {P : Params} {d e : Dev} {n : RegName} {b : Byte}
    (h : ∀ x, e.cell x = if x = P.addr n then .known b else d.cell x) : d.holds P e [(n, b)] := by
  refine ⟨fun r hr => ?_, fun x hx => ?_⟩
  · rw [List.mem_singleton.mp hr, h, if_pos rfl]
  · rw [h, if_neg (hx _ (List.mem_singleton_self _))]

/-- A byte stored in a cell, the completion steps before it and the pointer's movement aside. -/
theorem cell_devAtFrame_setCell (s : State) (k : Nat) (a b x : Byte) :
    ((s.devAtFrame k).setCell a b).cell x = if x = a then .known b else s.dev.cell x := by
  rw [cell_setCell, devAtFrame_cell]

/-- Settles O22: BTE_CTRL1 is plain storage. -/
theorem bteOperationBytesAreStored : Obligations.BteOperationBytesAreStored := by
  intro s hP h hw e he
  have hexec : exec e.1 s = .next (s.inWindow (wrReg s.P .BTE_CTRL1 e.2)) := by
    simp only [List.mem_cons, List.not_mem_nil, or_false] at he
    rcases he with rfl | rfl <;> rfl
  refine ⟨_, hexec.trans (congrArg _ (inWindow_wrReg_after_of_ne hP h (by decide) _)), ?_⟩
  rw [datw_plain (target_known rfl _) (plainReg_addr hP .BTE_CTRL1 (by decide) (by decide) (by decide))
    (inReset_devAtFrame_cmdw hw 1 _ _)]
  refine ⟨holds_single (cell_devAtFrame_setCell s 1 _ _), rfl, ?_, rfl, devAtFrame_rstIfUnk s 1⟩
  exact (taintedLog_heads _ _ _).trans (devAtFrame_logHeads s 1)

/-- PWR_ON has no reset bit (rules R6, R107). -/
theorem pwrOn_and_pwrRst {P : Params} (h : P.wf = true) : (0x80 : Byte) &&& P.pwrRst = 0 := by
  have hmem : P.pwrRst ∈ ([0x01, 0x02, 0x04, 0x08, 0x10, 0x20, 0x40] : List Byte) := by
    simp only [Params.wf, Bool.and_eq_true, List.contains_iff_mem] at h
    tauto
  revert hmem
  generalize P.pwrRst = m
  revert m
  decide

theorem awake_of_pwr {P : Params} {d : Dev} {b : Byte} (hc : d.cell (P.addr .PWR) = .known b) (hb : b &&& P.pwrRst = 0) :
    d.awake P = true := by
  simp [Dev.awake, hc, hb]

/-- Settles O24: PWR takes the byte, which has no reset bit, in software reset too. -/
theorem powerOnStoresByte : Obligations.PowerOnStoresByte := by
  intro s hP h
  have hb := pwrOn_and_pwrRst hP
  refine ⟨_, congrArg Host.Outcome.next (inWindow_wrReg_after h fun _ => hb), ?_⟩
  rw [datw_pwr hP (target_known rfl _), writePwr_store (b := pwrOnByte) hb]
  have hcell := cell_devAtFrame_setCell s 1 (s.P.addr .PWR) 0x80
  exact ⟨holds_single hcell, rfl, devAtFrame_oplog s 1, rfl, devAtFrame_rstIfUnk s 1,
    awake_of_pwr ((hcell _).trans (if_pos rfl)) hb⟩

/-! ### BTE_CTRL0 -/

/-- Settles O23: on an idle device with a listed operation and a size that is not zero, 0x80 starts a block transfer. -/
theorem bteStartStarts : Obligations.BteStartStarts := by
  intro s w0 w1 h0 h1 hP h hw hi hop hw0 hw1 hwz hh0 hh1 hhz
  refine ⟨_, congrArg Host.Outcome.next (inWindow_wrReg_after_of_ne hP h (n := .BTE_CTRL0) (by decide) 0x80), ?_⟩
  have hcell := devAtFrame_cell s 1
  have hsize : ((s.devAtFrame 1).cmdw (s.P.addr .BTE_CTRL0)).bteSizeZero s.P (s.draws + 1) = false := by
    have hz := bteSizeZero_iff (d := (s.devAtFrame 1).cmdw (s.P.addr .BTE_CTRL0)) ((hcell _).trans hw0) ((hcell _).trans hw1)
      ((hcell _).trans hh0) ((hcell _).trans hh1) (s.draws + 1)
    exact Bool.eq_false_iff.mpr fun hzero => (hz.mp hzero).elim hwz hhz
  have hoperation : ((s.devAtFrame 1).cmdw (s.P.addr .BTE_CTRL0)).bteOperationOk s.P = true :=
    bteOperationOk_iff.mpr (hop.imp (hcell _).trans (hcell _).trans)
  obtain ⟨hdraw, hcirc, -⟩ := allIdle_iff.mp hi
  rw [datw_bteStart hP (target_known rfl _) (inReset_devAtFrame_cmdw hw 1 _ _),
    writeBteStart_start (d := (s.devAtFrame 1).cmdw _) hi hsize hoperation,
    snapshot_devAtFrame_cmdw]
  exact ⟨hcell, congrArg₂ (·, ·, _) hdraw hcirc, congrArg (· ++ _) (devAtFrame_oplog s 1), rfl, devAtFrame_rstIfUnk s 1⟩

end Sys2Proof.Machine
end

section
/-! PROOFS. A command that is a window of writes to plain storage (rules R25, R140, R142, R148), whatever the engines do
meanwhile. -/

namespace Sys2Proof.Machine

/-! ### Completion steps and flags -/

theorem flags_complete_congr {d e : Dev} (h : d.flags = e.flags) (t : Tick) : (d.complete t).flags = (e.complete t).flags := by
  simp only [Dev.flags, Prod.mk.injEq] at h
  obtain ⟨hdraw, hcirc, hbte⟩ := h
  simp only [Dev.flags, Dev.complete, hdraw, hcirc, hbte]

/-- The flags completion steps leave depend on the flags they find alone. -/
theorem flags_completeAll_congr {d e : Dev} (h : d.flags = e.flags) (l : List Tick) :
    (d.completeAll l).flags = (e.completeAll l).flags := by
  unfold Dev.completeAll
  induction l generalizing d e with
  | nil => exact h
  | cons t l ih => exact ih (flags_complete_congr h t)

/-! ### Writes to plain storage -/

/-- DEV `e` is `d` after the writes `w` to plain storage, with the completion steps of `l` before, among and after them: the
cells hold the last bytes written, the flags are as the completion steps alone leave them, no operation is logged. -/
def Dev.PlainlyWritten (d e : Dev) (w : List (Byte × Byte)) (l : List Tick) : Prop :=
  (∀ x, e.cell x = lastWrite w x (d.cell x)) ∧ e.flags = (d.completeAll l).flags ∧ e.logHeads = d.logHeads
    ∧ e.rstIfUnk = d.rstIfUnk

/-- A register write to plain storage of an awake device, its engines running or not. -/
theorem wrote_dev_plainReg {s : State} {a : Byte} (hp : plainReg s.P a = true) (hw : s.dev.awake s.P = true) (b : Byte) :
    ∃ log, (s.wrote a b).dev
        = { (s.dev.completeAll (s.env.take 2)).setCell a b with oplog := log, cur := .known (advByte s.P a) }
      ∧ log.map (fun r => (r.engine, r.code)) = s.dev.logHeads := by
  refine ⟨_, ?_, taintedLog_heads s.P (s.dev.completeAll (s.env.take 2)) a |>.trans (completeAll_logHeads _ _)⟩
  rw [wrote_dev, datw_plain (target_known rfl _) hp (inReset_of_awake (by exact hw) _), completeAll_take_two]
  rfl

theorem awake_wrote {s : State} {a : Byte} (hp : plainReg s.P a = true) (hw : s.dev.awake s.P = true) (b : Byte) :
    (s.wrote a b).dev.awake s.P = true := by
  obtain ⟨log, hdev, -⟩ := wrote_dev_plainReg hp hw b
  rw [hdev]
  have hcomp : (s.dev.completeAll (s.env.take 2)).awake s.P = true :=
    (awake_congr (completeAll_mem _ _) (completeAll_rstIfUnk _ _)).trans hw
  exact awake_setCell hp hcomp b

theorem plainlyWritten_wrote {s : State} {a : Byte} (hp : plainReg s.P a = true) (hw : s.dev.awake s.P = true) (b : Byte) :
    s.dev.PlainlyWritten (s.wrote a b).dev [(a, b)] (s.env.take 2) := by
  obtain ⟨log, hdev, hlog⟩ := wrote_dev_plainReg hp hw b
  rw [hdev]
  refine ⟨fun x => ?_, rfl, hlog, completeAll_rstIfUnk _ _⟩
  exact (cell_setCell _ a b x).trans (by rw [completeAll_cell]; rfl)

theorem plainlyWritten_append {d e f : Dev} {v w : List (Byte × Byte)} {l m : List Tick} (h1 : d.PlainlyWritten e v l)
    (h2 : e.PlainlyWritten f w m) : d.PlainlyWritten f (v ++ w) (l ++ m) := by
  obtain ⟨hcell1, hflags1, hlog1, hrst1⟩ := h1
  obtain ⟨hcell2, hflags2, hlog2, hrst2⟩ := h2
  refine ⟨fun x => ?_, ?_, hlog2.trans hlog1, hrst2.trans hrst1⟩
  · rw [hcell2, hcell1, lastWrite, lastWrite, lastWrite, List.foldl_append]
  · rw [hflags2, completeAll_append]
    exact flags_completeAll_congr hflags1 m

theorem plainlyWritten_wroteAll {s : State} (w : List (Byte × Byte)) (hp : ∀ e ∈ w, plainReg s.P e.1 = true)
    (hw : s.dev.awake s.P = true) : s.dev.PlainlyWritten (s.wroteAll w).dev w (s.env.take (2 * w.length)) := by
  induction w generalizing s with
  | nil => exact ⟨fun _ => rfl, rfl, rfl, rfl⟩
  | cons e w ih =>
    have hpe := hp e List.mem_cons_self
    have hhead := plainlyWritten_wrote hpe hw e.2
    have htail := ih (s := s.wrote e.1 e.2) (fun r hr => hp r (List.mem_cons_of_mem _ hr)) (awake_wrote hpe hw e.2)
    rw [wrote_env] at htail
    have := plainlyWritten_append hhead htail
    rwa [← List.take_add, show 2 + 2 * w.length = 2 * (e :: w).length by simp; omega] at this

/-! ### Where the last write leaves the pointer and its shadow -/

theorem wroteAll_concat (s : State) (w : List (Byte × Byte)) (e : Byte × Byte) :
    s.wroteAll (w ++ [e]) = (s.wroteAll w).wrote e.1 e.2 := by
  simp [State.wroteAll]

theorem awake_wroteAll {s : State} (w : List (Byte × Byte)) (hp : ∀ e ∈ w, plainReg s.P e.1 = true)
    (hw : s.dev.awake s.P = true) : (s.wroteAll w).dev.awake s.P = true := by
  induction w generalizing s with
  | nil => exact hw
  | cons e w ih =>
    exact ih (s := s.wrote e.1 e.2) (fun r hr => hp r (List.mem_cons_of_mem _ hr)) (awake_wrote (hp e List.mem_cons_self) hw e.2)

/-- The last of the writes leaves the pointer and its shadow at its register, moved by the policy. -/
theorem wroteAll_concat_cur {s : State} {w : List (Byte × Byte)} {e : Byte × Byte}
    (hp : ∀ r ∈ w ++ [e], plainReg s.P r.1 = true) (hw : s.dev.awake s.P = true) :
    (s.wroteAll (w ++ [e])).seq.cur = .known (advByte s.P e.1) ∧ (s.wroteAll (w ++ [e])).dev.cur = .known (advByte s.P e.1) := by
  have hlast : plainReg s.P e.1 = true := hp e (List.mem_append_right w (List.mem_singleton_self e))
  have hbefore := awake_wroteAll w (fun r hr => hp r (List.mem_append_left _ hr)) hw
  obtain ⟨-, -, hpwr⟩ := plainReg_iff.mp hlast
  obtain ⟨hP, -⟩ := wroteAll_rest s w
  rw [← hP] at hlast hbefore hpwr ⊢
  rw [wroteAll_concat]
  obtain ⟨log, hdev, -⟩ := wrote_dev_plainReg hlast hbefore e.2
  refine ⟨?_, by rw [hdev]⟩
  rw [wrote_seq]
  exact if_neg fun hc => hpwr hc.1

theorem wroteAll_draws (s : State) (w : List (Byte × Byte)) : (s.wroteAll w).draws = s.draws + 2 * w.length := by
  induction w generalizing s with
  | nil => rfl
  | cons e w ih =>
    rw [show s.wroteAll (e :: w) = (s.wrote e.1 e.2).wroteAll w from rfl, ih, wrote_draws, List.length_cons]
    omega

/-! ### The window -/

theorem plainlyWritten_completeAll (d : Dev) (l : List Tick) : d.PlainlyWritten (d.completeAll l) [] l :=
  ⟨completeAll_cell d l, rfl, completeAll_logHeads d l, completeAll_rstIfUnk d l⟩

/-- A command accepted by an idle SEQ that is a window of register writes. -/
theorem exec_writes_calm {s : State} {i : Instr} {op : Op} {w : List (Byte × Byte)} (h : s.calm = true) (hb : s.seq.busy = false)
    (hi : exec i s = s.command op (window (wrTable w) .none)) : exec i s = .next (((s.opened op).wroteAll w).ended .none) := by
  have hopen : (s.opened op).calm = true := calm_of_env (s := s.accept op) h rfl
  rw [hi, State.command, if_neg (by simp [hb]), window, List.append_assoc, List.singleton_append,
    run_hold_calm (s := s.accept op) h]
  change Host.Outcome.next (run (wrTable w ++ [.release, .finish .none]) (s.opened op)) = _
  rw [run_wrTable_calm hopen, run_release_calm (calm_wroteAll hopen w), run_finish]
  rfl

/-- Such a window said whole but for the device. -/
theorem ended_wroteAll (s : State) (op : Op) (w : List (Byte × Byte)) :
    ((s.opened op).wroteAll w).ended .none
      = s.after (s.seq.answered op (2 * w.length + 2) ((s.opened op).wroteAll w).seq.cur)
          (((s.opened op).wroteAll w).dev.completeAll ((s.env.drop (2 * w.length + 1)).take 1)) (2 * w.length + 2) (2 * w.length)
          (events s.seq.phase ([.hold] ++ writePrims w ++ [.release])) := by
  obtain ⟨hP, henv, hport, ⟨c, hseq⟩, hbus⟩ := wroteAll_rest (s.opened op) w
  have hdraws := wroteAll_draws (s.opened op) w
  generalize (s.opened op).wroteAll w = u at *
  obtain ⟨uP, useq, udev, uport, uenv, udraws, ubus⟩ := u
  simp only at hP henv hport hseq hbus hdraws
  subst hP henv hport hseq hbus hdraws
  simp [State.ended, State.finish, State.release, State.perform, State.gap, State.now, State.opened, State.accept, State.after,
    Seq.answered, Seq.returned, events, writePrims, completeAll_take_one, List.map_flatMap, Nat.add_comm 1]

theorem plainlyWritten_window {s : State} (op : Op) (w : List (Byte × Byte)) (hp : ∀ e ∈ w, plainReg s.P e.1 = true)
    (hw : s.dev.awake s.P = true) :
    s.dev.PlainlyWritten (((s.opened op).wroteAll w).dev.completeAll ((s.env.drop (2 * w.length + 1)).take 1)) w
      (s.env.take (2 * w.length + 2)) := by
  have hopen : s.dev.PlainlyWritten (s.opened op).dev [] (s.env.take 1) := by
    have := plainlyWritten_completeAll s.dev (s.env.take 1)
    rwa [completeAll_take_one] at this
  have hwrites := plainlyWritten_wroteAll (s := s.opened op) w hp hw
  have hclose := plainlyWritten_completeAll ((s.opened op).wroteAll w).dev ((s.env.drop (2 * w.length + 1)).take 1)
  have hall := plainlyWritten_append (plainlyWritten_append hopen hwrites) hclose
  have hticks : s.env.take 1 ++ (s.opened op).env.take (2 * w.length) ++ (s.env.drop (2 * w.length + 1)).take 1
      = s.env.take (2 * w.length + 2) := by
    rw [show (s.opened op).env = s.env.drop 1 from List.drop_one.symm, ← List.take_add, Nat.add_comm 1, ← List.take_add]
  rwa [hticks, List.nil_append, List.append_nil] at hall

/-- A command that is a window of writes to plain storage, the last one to `e.1`: it ends OK, the registers hold the last bytes
written, and nothing else of DEV changes but by its own completion steps. -/
theorem exec_plainWrites {s : State} {i : Instr} {op : Op} {w : List (Byte × Byte)} {e : Byte × Byte} (h : s.calm = true)
    (hb : s.seq.busy = false) (hp : ∀ r ∈ w ++ [e], plainReg s.P r.1 = true) (hw : s.dev.awake s.P = true)
    (hi : exec i s = s.command op (window (wrTable (w ++ [e])) .none)) :
    ∃ d, exec i s
        = .next (s.after (s.seq.answered op (2 * (w ++ [e]).length + 2) (.known (advByte s.P e.1))) d
            (2 * (w ++ [e]).length + 2) (2 * (w ++ [e]).length)
            (events s.seq.phase ([.hold] ++ writePrims (w ++ [e]) ++ [.release])))
      ∧ s.dev.PlainlyWritten d (w ++ [e]) (s.env.take (2 * (w ++ [e]).length + 2)) ∧ d.cur = .known (advByte s.P e.1) := by
  obtain ⟨hshadow, hcur⟩ := wroteAll_concat_cur (s := s.opened op) hp hw
  refine ⟨_, ?_, plainlyWritten_window op (w ++ [e]) hp hw, (completeAll_cur _ _).trans hcur⟩
  rw [exec_writes_calm h hb hi, ended_wroteAll, hshadow]
  rfl

/-- Settles O32: WR16 is a window of two writes, and its second one is to the second register. -/
theorem wr16StoresPair : Obligations.Wr16StoresPair := by
  intro reg0 reg1 v s h hb hp0 hp1 hw
  have hp : ∀ r ∈ [(reg0, lo v)] ++ [(reg1, hi v)], plainReg s.P r.1 = true := by simp [hp0, hp1]
  obtain ⟨d, hexec, ⟨hcell, hflags, hlog, hrst⟩, hcur⟩ := exec_plainWrites h hb hp hw (i := .wr16 reg0 reg1 v) rfl
  exact ⟨d, hexec, hcell, hflags, hcur, hlog, hrst⟩

end Sys2Proof.Machine
end

section
/-! PROOFS. CMDW, DATW to plain storage and DATR as frames of their own (rules R130 to R132, R134, R148, R149), and where they leave
the pointer. -/

namespace Sys2Proof.Machine

/-- A frame as an instruction, in a calm world: DEV acts on it as the completion steps before it leave DEV. -/
theorem exec_frameInstr_after {s : State} (h : s.calm = true) (op : FrameOp) (p : Byte) :
    let r := (s.devAtFrame 0).reply s.P s.draws op
    exec (op.instr p) s
      = .next (s.afterWindow
          { s.seq with
            cur := s.seq.curAfter s.P op p
            rx := r.getD s.seq.rx
            rxPrev := if r.isSome then s.seq.rx else s.seq.rxPrev }
          ((s.devAtFrame 0).after s.P s.draws op p) 1 [.xfer op p r]) :=
  (exec_frameInstr op p s).trans (congrArg Host.Outcome.next (inWindow_frame_after h op p))

/-- Settles O10: DEV takes the address as the completion steps before it leave DEV. -/
theorem cmdwLoadsPointer : Obligations.CmdwLoadsPointer := fun a s h =>
  ⟨_, exec_frameInstr_after h .cmdw a, rfl, devAtFrame_cell s 0, rfl⟩

/-! ### Plain storage -/

/-- A data write to plain storage of a device that is not in software reset, field by field. -/
theorem datw_plain_fields {P : Params} {d : Dev} {a : Byte} {n : Nat} (ht : d.target n = a) (hp : plainReg P a = true)
    (hr : d.inReset P n = false) (b : Byte) :
    (∀ x, (d.datw P n b).cell x = if x = a then .known b else d.cell x) ∧ (d.datw P n b).flags = d.flags
      ∧ (d.datw P n b).cur = adv P d.cur ∧ (d.datw P n b).oplog = d.taintedLog P a ∧ (d.datw P n b).logHeads = d.logHeads
      ∧ (d.datw P n b).rstIfUnk = d.rstIfUnk := by
  rw [datw_plain ht hp hr]
  exact ⟨cell_setCell d a b, rfl, rfl, rfl, taintedLog_heads P d a, rfl⟩

/-- Settles O11: the completion steps before the byte leave the cells, the pointer and the log heads alone. -/
theorem datwStoresInPlainRegister : Obligations.DatwStoresInPlainRegister := by
  intro b a s h ha hp hr
  obtain ⟨hcell, hflags, hcur, hlog, hheads, hrst⟩ := datw_plain_fields ((devAtFrame_target s 0 s.draws).trans ha.symm) hp
    ((devAtFrame_inReset s 0 _ _).trans hr) b
  refine ⟨_, exec_datw_after h b, fun x => ?_, hflags, ?_, hlog, ?_, ?_⟩
  · rw [hcell, devAtFrame_cell]
  · rw [hcur, devAtFrame_cur]
  · rw [hheads, devAtFrame_logHeads]
  · rw [hrst, devAtFrame_rstIfUnk]

/-! ### What a data read returns -/

/-- Bit 7 of DCR is the drawing engine's flag, bit 6 the circle engine's (rule R44). -/
theorem dcrByte_bits (d : Dev) (any : Byte) :
    (∀ f, d.drawBusy = .known f → (d.dcrByte any).getLsbD 7 = f)
      ∧ ∀ f, d.circBusy = .known f → (d.dcrByte any).getLsbD 6 = f := by
  have hbit : ∀ (u : Unk Bool) (m : Byte) (i : Nat), (flagBit u m any).getLsbD i = true → m.getLsbD i = true := by
    intro u m i
    rcases u with _ | _ | _ <;> simp [flagBit]
  have h6 : (flagBit d.drawBusy 0x80 any).getLsbD 6 = false := Bool.eq_false_iff.mpr fun h => by simpa using hbit _ _ _ h
  have h7 : (flagBit d.circBusy 0x40 any).getLsbD 7 = false := Bool.eq_false_iff.mpr fun h => by simpa using hbit _ _ _ h
  refine ⟨fun f hf => ?_, fun f hf => ?_⟩
  · rw [Dev.dcrByte, BitVec.getLsbD_or, h7, hf]
    cases f <;> simp [flagBit]
  · rw [Dev.dcrByte, BitVec.getLsbD_or, BitVec.getLsbD_or, h6, hf]
    cases f <;> simp [flagBit]

/-- The byte DATR returns is what the register it reaches reads as. -/
theorem datrByte_readsAs {P : Params} {d : Dev} {n : Nat} {a : Byte} (ht : d.target n = a) : d.readsAs P a (d.datrByte P n) := by
  refine ⟨fun h1 h2 hw v hv => ?_, fun ha hw => ?_⟩
  · exact datrByte_known ht h1 h2 (hw.imp (inReset_of_awake · n) id) hv
  · rw [datrByte_dcr (ht.trans ha) (inReset_of_awake hw n)]
    exact dcrByte_bits d _

/-- Settles O16: the reply is what DEV, as the frame finds it, returns for the register at its pointer. -/
theorem datrReturnsRegister : Obligations.DatrReturnsRegister := fun p s h =>
  ⟨_, _, exec_frameInstr_after h .datr p, datrByte_readsAs (devAtFrame_target s 0 s.draws),
    devAtFrame_cell s 0, by rw [after_datr, devAtFrame_cur]⟩

/-! ### The pointer -/

theorem adv_reuse {P : Params} (h : P.ptrPolicy = .reuse) (p : Byte) : adv P (.known p) = .known p := by
  simp [advByte, h]

theorem adv_increment {P : Params} (h : P.ptrPolicy = .increment) (p : Byte) :
    adv P (.known p) = .known (BitVec.ofNat 8 ((p.toNat + 1) % 256)) := by
  rw [adv_known, advByte, h]
  exact congrArg Unk.known (BitVec.eq_of_toNat_eq (by simp))

/-- The pointer after a data write: `?` where it resets DEV or leaves DEV unknown, else moved by the policy (rule R134). -/
theorem datw_cur {P : Params} (hP : P.wf = true) (d : Dev) (n : Nat) (b : Byte) :
    (d.datw P n b).cur
      = if d.target n = P.addr .PWR ∧ b &&& P.pwrRst ≠ 0 ∨ (d.datw P n b).logHeads = d.logHeads ++ [(.unknown, b)] then .unknown
        else adv P d.cur := by
  have hcur : (d.datw P n b).cur = adv P (d.datwCell P n b).cur := rfl
  have hlog : (d.datw P n b).logHeads = (d.datwCell P n b).logHeads := rfl
  by_cases hreset : d.target n = P.addr .PWR ∧ b &&& P.pwrRst ≠ 0
  · rw [if_pos (.inl hreset), datw_pwr hP hreset.1, writePwr_reset hreset.2]
    rfl
  · rw [hcur, hlog]
    rcases datwCell_cur P n d b with ⟨hkept, hne⟩ | ⟨-, ht, hb, -⟩ | ⟨hlost, heq⟩
    · rw [if_neg (not_or.mpr ⟨hreset, hne⟩), hkept]
    · exact absurd ⟨ht, hb⟩ hreset
    · rw [if_pos (.inr heq), hlost, adv_unknown]

theorem afterWindow_dev_cur (s : State) (q : Seq) (d : Dev) (n : Nat) (l : List Prim) : (s.afterWindow q d n l).dev.cur = d.cur :=
  completeAll_cur d _

/-- Settles O18: each frame as it leaves DEV and SEQ (exec_frameInstr_after). -/
theorem pointerMovesByPolicy : Obligations.PointerMovesByPolicy := by
  refine ⟨fun P p => ⟨rfl, fun h => adv_reuse h p, fun h => adv_increment h p⟩, fun b s hP h => ?_⟩
  refine ⟨_, _, _, _, exec_datw_after h b, rfl, ?_, exec_frameInstr_after h .datr b, rfl, ?_,
    exec_frameInstr_after h .cmdw b, rfl, ?_, exec_frameInstr_after h .stsr b, rfl, ?_⟩
  · have hheads : (s.afterWindow { s.seq with cur := s.curAfterWrite b } ((s.devAtFrame 0).datw s.P s.draws b) 1
        [.xfer .datw b none]).dev.logHeads = ((s.devAtFrame 0).datw s.P s.draws b).logHeads := completeAll_logHeads _ _
    rw [afterWindow_dev_cur, hheads, datw_cur hP, devAtFrame_target, devAtFrame_logHeads, devAtFrame_cur]
  · rw [afterWindow_dev_cur, after_datr, devAtFrame_cur]
  · rw [afterWindow_dev_cur]
    rfl
  · rw [afterWindow_dev_cur, after_stsr, devAtFrame_cur]

end Sys2Proof.Machine
end

section
/-! PROOFS. The register-access commands (rules R135 to R143, R147), each said whole: the state it leaves as an update of the state
it found, composed of the updates of its frames. -/

namespace Sys2Proof.Machine

/-! ### Updates one after the other -/

section After

variable (s : State) (q : Seq) (d : Dev) (n m : Nat) (ev : List Event)

@[simp] theorem after_P : (s.after q d n m ev).P = s.P := rfl
@[simp] theorem after_seq : (s.after q d n m ev).seq = q := rfl
@[simp] theorem after_dev : (s.after q d n m ev).dev = d := rfl
@[simp] theorem after_env : (s.after q d n m ev).env = s.env.drop n := rfl
@[simp] theorem after_draws : (s.after q d n m ev).draws = s.draws + m := rfl

theorem after_after (q' : Seq) (d' : Dev) (n' m' : Nat) (ev' : List Event) :
    (s.after q d n m ev).after q' d' n' m' ev' = s.after q' d' (n + n') (m + m') (ev ++ ev') := by
  simp [State.after, Nat.add_assoc]

end After

theorem calm_after {s : State} (h : s.calm = true) (q : Seq) (d : Dev) (n m : Nat) (ev : List Event) :
    (s.after q d n m ev).calm = true :=
  List.all_eq_true.mpr fun t ht => List.all_eq_true.mp h t (List.mem_of_mem_drop ht)

theorem gap_eq_after (s : State) : s.gap = s.after s.seq (s.dev.completeAll (s.env.take 1)) 1 0 [] := by
  simp [State.gap, State.after, completeAll_take_one, State.now]

/-- Completion steps do not depend on the pointer. -/
theorem completeAll_withCur (d : Dev) (c : Unk Byte) (l : List Tick) :
    ({ d with cur := c } : Dev).completeAll l = { d.completeAll l with cur := c } := by
  unfold Dev.completeAll
  induction l generalizing d with
  | nil => rfl
  | cons t l ih => exact ih (d.complete t)

/-- Completion steps in two stretches of the same ticks. -/
theorem completeAll_take_drop (d : Dev) (l : List Tick) (n m : Nat) :
    (d.completeAll (l.take n)).completeAll ((l.drop n).take m) = d.completeAll (l.take (n + m)) := by
  rw [← completeAll_append, ← List.take_add]

/-! ### The parts of a command -/

/-- Acceptance and `Hold`, said whole. -/
theorem opened_eq (s : State) (op : Op) :
    s.opened op
      = s.after { s.seq with op := op, busy := true, step := 1, pollcnt := 0, hold := true } (s.dev.completeAll (s.env.take 1)) 1 0
          (events s.seq.phase [.hold]) := by
  simp [State.opened, State.accept, State.gap, State.perform, State.after, completeAll_take_one, State.now, events]

/-- `Release` and the end of a command, said whole. -/
theorem ended_eq (s : State) (r : Ret) :
    s.ended r
      = s.after
          { s.seq with
            busy := false, phase := .idle, step := s.seq.step + 1, hold := false, result := .ok, rdata := s.seq.returned r
            ucode := [] }
          (s.dev.completeAll (s.env.take 1)) 1 0 (events s.seq.phase [.release]) := by
  cases r <;>
    simp [State.ended, State.finish, State.release, State.gap, State.perform, State.after, completeAll_take_one, State.now, events,
      Seq.returned]

/-- A frame that goes through, said whole. -/
theorem sent_eq (s : State) (op : FrameOp) (p : Byte) :
    let d := s.dev.completeAll (s.env.take 1)
    let r := d.reply s.P s.draws op
    s.gap.sent op p
      = s.after
          { s.seq with
            step := s.seq.step + 1
            cur := s.seq.curAfter s.P op p
            rx := r.getD s.seq.rx
            rxPrev := if r.isSome then s.seq.rx else s.seq.rxPrev }
          (d.after s.P s.draws op p) 1 1 (events s.seq.phase [.xfer op p r]) := by
  simp [gap_eq_after, State.sent, State.perform, State.after, events]

/-- The byte `RdReg(a)` gets: DEV has completed in the two gaps before its frames. -/
def State.readByte (s : State) (a : Byte) : Byte :=
  ((s.dev.completeAll (s.env.take 2)).cmdw a).datrByte s.P (s.draws + 1)

/-- `RdReg(a)`, said whole (rule R141). -/
theorem didRead_eq (s : State) (a : Byte) :
    s.didRead a
      = s.after
          { s.seq with
            step := s.seq.step + 2, cur := .known (advByte s.P a), rx := s.readByte a, rxPrev := s.seq.rx }
          { s.dev.completeAll (s.env.take 2) with cur := .known (advByte s.P a) } 2 2
          (events s.seq.phase [.xfer .cmdw a none, .xfer .datr 0x00 (some (s.readByte a))]) := by
  have hd : ((s.dev.completeAll (s.env.take 1)).cmdw a).completeAll ((s.env.drop 1).take 1)
      = (s.dev.completeAll (s.env.take 2)).cmdw a := by
    rw [Dev.cmdw, completeAll_withCur, completeAll_take_drop]
    rfl
  rw [State.didRead, sent_eq, sent_eq, after_after]
  simp only [after_P, after_seq, after_dev, after_env, after_draws, after_cmdw, hd]
  rfl

theorem readByte_readsAs (s : State) (a : Byte) : (s.dev.completeAll (s.env.take 2)).readsAs s.P a (s.readByte a) :=
  datrByte_readsAs (d := (s.dev.completeAll (s.env.take 2)).cmdw a) rfl

/-! ### The commands -/

/-- A command accepted by an idle SEQ that is a window of frames. -/
theorem exec_frames_calm {s : State} {i : Instr} {op : Op} {r : Ret} (h : s.calm = true) (hb : s.seq.busy = false)
    (f : FrameOp × Byte) (fs : List (FrameOp × Byte)) (hi : exec i s = s.command op (window (frameMicros (f :: fs)) r)) :
    exec i s = .next (((s.opened op).sentAll (f :: fs)).ended r) := by
  obtain ⟨u, hu, he⟩ := command_windowed h hb f fs hi
  have hopen : (s.opened op).calm = true := calm_of_env (s := s.accept op) h rfl
  obtain rfl := Host.Outcome.next.inj (hu.symm.trans (execAll_frames hopen rfl f fs))
  exact he

/-- A command of one frame, said whole (rules R135 to R138). -/
theorem exec_oneFrame {s : State} {i : Instr} {o : Op} {op : FrameOp} {p : Byte} {r : Ret} (h : s.calm = true)
    (hb : s.seq.busy = false) (hi : exec i s = s.command o (window [.frame op p] r)) :
    let d := s.dev.completeAll (s.env.take 2)
    let b := d.reply s.P s.draws op
    let q := { s.seq with rx := b.getD s.seq.rx, rxPrev := if b.isSome then s.seq.rx else s.seq.rxPrev }
    exec i s
      = .next (s.after { q.answered o 3 (s.seq.curAfter s.P op p) with rdata := q.returned r }
          ((d.after s.P s.draws op p).completeAll ((s.env.drop 2).take 1)) 3 1
          (events s.seq.phase [.hold, .xfer op p b, .release])) := by
  have hsent : (s.opened o).sentAll [(op, p)] = (s.opened o).gap.sent op p := rfl
  rw [exec_frames_calm h hb (op, p) [] hi, hsent, opened_eq, sent_eq, after_after, ended_eq, after_after]
  simp only [after_P, after_seq, after_dev, after_env, after_draws, completeAll_take_drop]
  cases r <;> rfl

/-- Settles O26: its one frame is CMDW. -/
theorem wrcmdSelectsRegister : Obligations.WrcmdSelectsRegister := by
  intro reg s h hb
  refine ⟨_, exec_oneFrame h hb (i := .wrcmd reg) rfl, ?_, fun x => (completeAll_cell _ _ x).trans (completeAll_cell _ _ x)⟩
  rw [after_cmdw, Dev.cmdw, completeAll_withCur, completeAll_take_drop]

/-- Settles O27: its one frame is DATW, and it reaches plain storage. -/
theorem wrdataStoresAtPointer : Obligations.WrdataStoresAtPointer := by
  intro b a s h hb ha hp hr
  have hexec := exec_oneFrame h hb (i := .wrdata b) (op := .datw) rfl
  rw [curAfter_curAfterWrite] at hexec
  have ht : (s.dev.completeAll (s.env.take 2)).target s.draws = a := by rw [ha, Dev.target, completeAll_cur]
  have hr' : (s.dev.completeAll (s.env.take 2)).inReset s.P s.draws = false := by simpa [Dev.inReset] using hr
  obtain ⟨hcell, hflags, hcur, -, hheads, hrst⟩ := datw_plain_fields ht hp hr' b
  refine ⟨_, hexec, fun x => ?_, ?_, ?_, ?_, ?_⟩
  · rw [completeAll_cell, after_datw, hcell, completeAll_cell]
  · rw [after_datw, flags_completeAll_congr hflags, completeAll_take_drop]
  · rw [completeAll_cur, after_datw, hcur, completeAll_cur]
  · rw [completeAll_logHeads, after_datw, hheads, completeAll_logHeads]
  · rw [completeAll_rstIfUnk, after_datw, hrst, completeAll_rstIfUnk]

/-- Settles O28: its one frame is DATR. -/
theorem rddataReturnsAtPointer : Obligations.RddataReturnsAtPointer := by
  intro s h hb
  refine ⟨_, _, exec_oneFrame h hb (i := .rddata) (op := .datr) rfl, datrByte_readsAs ?_, ?_,
    fun x => (completeAll_cell _ _ x).trans (completeAll_cell _ _ x)⟩
  · rw [Dev.target, completeAll_cur]
  · rw [after_datr, completeAll_withCur, completeAll_cur, completeAll_take_drop]

/-- Settles O29: its one frame is STSR, which leaves DEV as it is. -/
theorem rdstatusReturnsStatus : Obligations.RdstatusReturnsStatus := by
  intro s h hb
  rw [← completeAll_take_drop s.dev s.env 2 1]
  exact ⟨_, exec_oneFrame h hb (i := .rdstatus) (op := .stsr) rfl, fun _ hf => statusByte_bit6 hf _⟩

/-- Settles O30: a window of one write to plain storage. -/
theorem wrregStoresByte : Obligations.WrregStoresByte := by
  intro reg b s h hb hp hw
  obtain ⟨d, hexec, ⟨hcell, hflags, hlog, hrst⟩, hcur⟩ := exec_plainWrites (w := []) (e := (reg, b)) h hb (by simpa using hp) hw
    (i := .wrreg reg b) rfl
  exact ⟨d, hexec, hcell, hflags, hcur, hlog, hrst⟩

/-- Settles O31: a window of one register read. -/
theorem rdregReturnsByte : Obligations.RdregReturnsByte := by
  intro reg s h hb
  have hexec := exec_frames_calm h hb (.cmdw, reg) [(.datr, 0x00)] (i := .rdreg reg) rfl
  change _ = Host.Outcome.next (((s.opened _).didRead reg).ended _) at hexec
  rw [opened_eq, didRead_eq, after_after, ended_eq, after_after] at hexec
  simp only [after_P, after_seq, after_dev, after_env, completeAll_take_drop, completeAll_withCur] at hexec
  have hreads := readByte_readsAs (s.opened { s.seq.op with code := 0x06, reg := reg }) reg
  rw [opened_eq, after_P, after_dev, after_env, completeAll_take_drop] at hreads
  exact ⟨_, _, hexec, hreads, rfl, completeAll_cell _ _⟩

/-- A pair of bytes read, as rule R143 writes it. -/
theorem join16_eq_or (l h : Byte) : join16 l h = ((h.setWidth 16 : Half) <<< 8) ||| (l.setWidth 16 : Half) := by
  refine BitVec.eq_of_getLsbD_eq fun i hi => ?_
  rw [getLsbD_join16, BitVec.getLsbD_or, BitVec.getLsbD_shiftLeft, BitVec.getLsbD_setWidth, BitVec.getLsbD_setWidth]
  by_cases hlow : i < 8
  · simp [hlow, hi]
  · have hzero : l.getLsbD i = false := BitVec.getLsbD_of_ge l i (by omega)
    have hsub : i - 8 < 16 := by omega
    simp [hlow, hi, hzero, hsub]

/-- Settles O33: a window of two register reads; the first byte is the one before the last read. -/
theorem rd16ReturnsPair : Obligations.Rd16ReturnsPair := by
  intro reg0 reg1 s h hb
  have hexec := exec_frames_calm h hb (.cmdw, reg0) [(.datr, 0x00), (.cmdw, reg1), (.datr, 0x00)] (i := .rd16 reg0 reg1) rfl
  change _ = Host.Outcome.next ((((s.opened _).didRead reg0).didRead reg1).ended _) at hexec
  have hlow := readByte_readsAs (s.opened { s.seq.op with code := 0x08, reg0 := reg0, reg1 := reg1 }) reg0
  have hhigh := readByte_readsAs ((s.opened { s.seq.op with code := 0x08, reg0 := reg0, reg1 := reg1 }).didRead reg0) reg1
  rw [opened_eq, didRead_eq _ reg0, after_after, didRead_eq, after_after, ended_eq, after_after] at hexec
  rw [opened_eq, didRead_eq, after_after] at hhigh
  rw [opened_eq] at hlow
  simp only [State.readByte, after_P, after_seq, after_dev, after_env, after_draws, completeAll_take_drop, completeAll_withCur,
    Seq.returned, join16_eq_or] at hexec hlow hhigh
  exact ⟨_, _, _, hexec, hlow, hhigh, rfl, completeAll_cell _ _⟩

/-! ### What is written is read back -/

/-- A cell none of the writes is to keeps what it held. -/
theorem lastWrite_of_ne {w : List (Byte × Byte)} {x : Byte} (h : ∀ e ∈ w, x ≠ e.1) (u : Unk Byte) : lastWrite w x u = u := by
  unfold lastWrite
  induction w generalizing u with
  | nil => rfl
  | cons e w ih =>
    rw [List.foldl_cons, if_neg (h e List.mem_cons_self)]
    exact ih (fun r hr => h r (List.mem_cons_of_mem _ hr)) u

/-- A command that is a window of writes to plain storage leaves SEQ ready for the next one, and DEV awake with the bytes
stored. -/
theorem exec_plainWrites_ready {s : State} {i : Instr} {op : Op} {w : List (Byte × Byte)} {e : Byte × Byte} (h : s.calm = true)
    (hb : s.seq.busy = false) (hp : ∀ r ∈ w ++ [e], plainReg s.P r.1 = true) (hw : s.dev.awake s.P = true)
    (hi : exec i s = s.command op (window (wrTable (w ++ [e])) .none)) :
    ∃ t, exec i s = .next t ∧ t.calm = true ∧ t.seq.busy = false ∧ t.P = s.P ∧ t.dev.awake s.P = true
      ∧ ∀ x, t.dev.cell x = lastWrite (w ++ [e]) x (s.dev.cell x) := by
  obtain ⟨d, hexec, ⟨hcell, -, -, hrst⟩, -⟩ := exec_plainWrites h hb hp hw hi
  have hpwr : d.cell (s.P.addr .PWR) = s.dev.cell (s.P.addr .PWR) :=
    (hcell _).trans (lastWrite_of_ne (fun r hr => (plainReg_iff.mp (hp r hr)).2.2.symm) _)
  have hawake : d.awake s.P = s.dev.awake s.P := by simp [Dev.awake, hpwr, hrst]
  exact ⟨_, hexec, calm_after h _ _ _ _ _, rfl, rfl, hawake.trans hw, hcell⟩

/-- A plain register of an awake device that holds a byte reads as it, whatever completes meanwhile. -/
theorem readsAs_stored {P : Params} {d : Dev} {l : List Tick} {a v r : Byte} (hp : plainReg P a = true) (hw : d.awake P = true)
    (hc : d.cell a = .known v) (hr : (d.completeAll l).readsAs P a r) : r = v := by
  obtain ⟨h1, h2, -⟩ := plainReg_iff.mp hp
  have hw' : (d.completeAll l).awake P = true := (awake_congr (completeAll_mem d l) (completeAll_rstIfUnk d l)).trans hw
  exact hr.1 h1 h2 (.inl hw') v ((completeAll_cell d l a).trans hc)

/-- Settles O34: what the writes leave in DEV is what RD16 (O33) and RDREG (O31) then read. -/
theorem writeReadRoundTrip : Obligations.WriteReadRoundTrip := by
  intro s h hb hw
  refine ⟨fun reg0 reg1 v hp0 hp1 hne => ?_, fun reg b hp => ?_⟩
  · obtain ⟨t, hwrite, htcalm, htbusy, htP, htawake, hcell⟩ := exec_plainWrites_ready (w := [(reg0, lo v)]) (e := (reg1, hi v)) h
      hb (by simp [hp0, hp1]) hw (i := .wr16 reg0 reg1 v) rfl
    obtain ⟨d, l, h, hread, hlow, hhigh, -⟩ := rd16ReturnsPair reg0 reg1 t htcalm htbusy
    rw [htP] at hlow hhigh
    obtain rfl : l = lo v := readsAs_stored hp0 htawake (by simp [hcell, lastWrite, hne]) hlow
    obtain rfl : h = hi v := readsAs_stored hp1 htawake (by simp [hcell, lastWrite]) hhigh
    exact ⟨t, _, hwrite, hread, rfl, (join16_eq_or _ _).symm.trans (join16_lo_hi v)⟩
  · obtain ⟨t, hwrite, htcalm, htbusy, htP, htawake, hcell⟩ := exec_plainWrites_ready (w := []) (e := (reg, b)) h hb
      (by simpa using hp) hw (i := .wrreg reg b) rfl
    obtain ⟨d, r, hread, hreads, -⟩ := rdregReturnsByte reg t htcalm htbusy
    rw [htP] at hreads
    obtain rfl : r = b := readsAs_stored hp htawake (by simp [hcell, lastWrite]) hreads
    exact ⟨t, _, hwrite, hread, rfl, rfl⟩

end Sys2Proof.Machine
end

section
/-! PROOFS. The poll of an engine command (rules R144, R145, R203, R227, R262): one read, said whole, and where it leads; and a
command whose engine does not complete. -/

namespace Sys2Proof.Machine

/-! ### One poll read -/

/-- The frames of one poll read in a calm world. -/
def State.pollRead (s : State) : PollKind → State
  | .reg a _ => s.didRead a
  | .status _ => s.gap.sent .stsr 0x00

/-- The byte one poll read gets. -/
def State.pollByte (s : State) : PollKind → Byte
  | .reg a _ => s.readByte a
  | .status _ => (s.dev.completeAll (s.env.take 1)).statusByte (anyRead s.draws)

theorem calm_pollRead {s : State} (h : s.calm = true) (k : PollKind) : (s.pollRead k).calm = true := by
  cases k with
  | reg a m => exact calm_didRead h a
  | status m => exact calm_of_env h rfl

theorem run_pollFrames_calm {s : State} (h : s.calm = true) (k : PollKind) (l : List Micro) :
    run (pollFrames k ++ l) s = run l (s.pollRead k) := by
  cases k with
  | reg a m => exact run_rdAddr_calm h a l
  | status m => exact run_frame_calm h .stsr 0x00 l

/-- One poll read, said whole. -/
theorem pollRead_eq (s : State) (k : PollKind) :
    let n := (pollFrames k).length
    s.pollRead k
      = s.after
          { s.seq with
            step := s.seq.step + n, cur := k.curAfter s.P s.seq.cur, rx := s.pollByte k, rxPrev := s.seq.rx }
          { s.dev.completeAll (s.env.take n) with cur := k.curAfter s.P s.dev.cur } n n
          (events s.seq.phase (k.prims (s.pollByte k))) := by
  cases k with
  | reg a m => exact didRead_eq s a
  | status m =>
    have hcur : (s.dev.completeAll (s.env.take 1)).cur = s.dev.cur := completeAll_cur _ _
    refine (sent_eq s .stsr 0x00).trans ?_
    simp only [after_stsr, curAfter_stsr, PollKind.curAfter, ← hcur]
    rfl

/-- The bit a poll tests is the flag it waits for. -/
theorem pollByte_and_mask {s : State} {k : PollKind} {f : Bool} (hk : k ∈ enginePolls s.P) (hw : s.dev.awake s.P = true)
    (hf : k.flag (s.dev.completeAll (s.env.take (pollFrames k).length)) = .known f) :
    s.pollByte k &&& k.mask = if f then k.mask else 0 := by
  have hbit : ∀ (m any : Byte), flagBit (.known f) m any = if f then m else 0 := by cases f <;> exact fun _ _ => rfl
  have hdcr : s.readByte (s.P.addr .DCR) = (s.dev.completeAll (s.env.take 2)).dcrByte (anyRead (s.draws + 1)) := by
    have hw' : (s.dev.completeAll (s.env.take 2)).awake s.P = true :=
      (awake_congr (completeAll_mem _ _) (completeAll_rstIfUnk _ _)).trans hw
    exact datrByte_dcr (d := (s.dev.completeAll (s.env.take 2)).cmdw _) rfl (inReset_of_awake (by exact hw') _)
  simp only [enginePolls, List.mem_cons, List.not_mem_nil, or_false] at hk
  rcases hk with rfl | rfl | rfl
  · have hd : (s.dev.completeAll (s.env.take 2)).drawBusy = .known f := hf
    rw [State.pollByte, hdcr, PollKind.mask, dcrByte_and_start, hd, hbit]
  · have hc : (s.dev.completeAll (s.env.take 2)).circBusy = .known f := hf
    rw [State.pollByte, hdcr, PollKind.mask, dcrByte_and_cstart, hc, hbit]
  · have hb : (s.dev.completeAll (s.env.take 1)).bteBusy = .known f := hf
    rw [State.pollByte, PollKind.mask, statusByte_and_busy, hb, hbit]

theorem mask_ne_zero {P : Params} {k : PollKind} (hk : k ∈ enginePolls P) : k.mask ≠ 0 := by
  have h80 : (0x80 : Byte) ≠ 0 := by decide
  have h40 : (0x40 : Byte) ≠ 0 := by decide
  simp only [enginePolls, List.mem_cons, List.not_mem_nil, or_false] at hk
  rcases hk with rfl | rfl | rfl
  exacts [h80, h40, h40]

theorem pollByte_busy {s : State} {k : PollKind} (hk : k ∈ enginePolls s.P) (hw : s.dev.awake s.P = true)
    (hf : k.flag (s.dev.completeAll (s.env.take (pollFrames k).length)) = .known true) : s.pollByte k &&& k.mask ≠ 0 := by
  rw [pollByte_and_mask hk hw hf]
  exact mask_ne_zero hk

/-! ### The test after it -/

theorem run_pollTest_clear {s : State} {k : PollKind} (hr : s.seq.rx &&& k.mask = 0) (l : List Micro) :
    run (.pollTest k :: l) s = run l s := by
  simp [run, State.micro, State.pollTest, hr]

/-- A busy read counted. -/
def State.counted (s : State) : State := { s with seq := { s.seq with pollcnt := s.seq.pollcnt + 1 } }

theorem micro_pollTest_busy {s : State} {k : PollKind} (hr : s.seq.rx &&& k.mask ≠ 0) :
    s.micro (.pollTest k)
      = if s.P.pollMax = some (s.seq.pollcnt + 1) then .halt (s.counted.abort .deviceTimeout)
        else s.counted.inGap fun t => .again k (t.perform (.delay .tPoll)) :=
  if_neg hr

/-- A busy read that is not the POLL_MAX-th one: the delay, and another iteration to make. -/
theorem run_pollTest_waits {s : State} (h : s.calm = true) {k : PollKind} (hr : s.seq.rx &&& k.mask ≠ 0)
    (hm : s.P.pollMax ≠ some (s.seq.pollcnt + 1)) (l : List Micro) :
    run (.pollTest k :: l) s
      = s.after
          { s.seq with
            step := s.seq.step + 1, pollcnt := s.seq.pollcnt + 1, ucode := pollFrames k ++ .pollTest k :: l }
          (s.dev.completeAll (s.env.take 1)) 1 0 (events s.seq.phase [.delay .tPoll]) := by
  have hreset : s.counted.now.seqReset = false := (calm_tick (calm_now h)).2.2
  have hflow : s.micro (.pollTest k) = .again k (s.counted.gap.perform (.delay .tPoll)) := by
    rw [micro_pollTest_busy hr, if_neg hm, State.inGap, hreset]
    rfl
  simp only [run, hflow]
  simp [State.counted, State.keep, State.perform, State.gap, State.after, completeAll_take_one, State.now, events]

theorem calm_not_reset {s : State} (h : s.calm = true) : ∀ t ∈ s.env, t.seqReset = false := fun t ht =>
  (calm_tick (List.all_eq_true.mp h t ht)).2.2

/-- The POLL_MAX-th busy read: DeviceTimeout. -/
theorem run_pollTest_timesOut {s : State} (h : s.calm = true) {k : PollKind} (hr : s.seq.rx &&& k.mask ≠ 0)
    (hm : s.P.pollMax = some (s.seq.pollcnt + 1)) (hh : s.seq.hold = true) (hl : s.seq.resetn = true) (l : List Micro) :
    run (.pollTest k :: l) s
      = s.after
          { s.seq with
            step := s.seq.step + 1, pollcnt := s.seq.pollcnt + 1, hold := false, result := .deviceTimeout, phase := .idle
            busy := false, ucode := [] }
          (s.dev.completeAll (s.env.take 1)) 1 0 (events s.seq.phase [.release]) := by
  have hflow : s.micro (.pollTest k) = .halt (s.counted.abort .deviceTimeout) := by rw [micro_pollTest_busy hr, if_pos hm]
  simp only [run, hflow]
  rw [abort_after (s := s.counted) (calm_not_reset h)]
  simp [State.counted, State.abortTicks, State.after, Seq.cfgAfterAbort, hh, hl]

/-! ### What is left of a command that polls -/

section PollingRest

variable {s : State} {k : PollKind} (h : s.calm = true) (hk : k ∈ enginePolls s.P) (hw : s.dev.awake s.P = true)

theorem pollingRest_eq (k : PollKind) : pollingRest k = pollFrames k ++ .pollTest k :: [.phase .idle, .release, .finish .none] := rfl

include h hk hw

/-- The flag is clear: the command ends OK (rules R203, R227). -/
theorem run_pollingRest_clear (hf : k.flag (s.dev.completeAll (s.env.take (pollFrames k).length)) = .known false) :
    let n := (pollFrames k).length
    run (pollingRest k) s
      = s.after
          { s.seq with
            step := s.seq.step + n + 1, cur := k.curAfter s.P s.seq.cur, rx := s.pollByte k, rxPrev := s.seq.rx, hold := false
            result := .ok, phase := .idle, busy := false, ucode := [] }
          { s.dev.completeAll (s.env.take (n + 1)) with cur := k.curAfter s.P s.dev.cur } (n + 1) n
          (events s.seq.phase (k.prims (s.pollByte k)) ++ events .idle [.release]) := by
  intro n
  have hrx : (s.pollRead k).seq.rx &&& k.mask = 0 := by
    rw [pollRead_eq]
    exact pollByte_and_mask hk hw hf
  rw [pollingRest_eq, run_pollFrames_calm h, run_pollTest_clear hrx, run_phase,
    run_release_calm (s := { s.pollRead k with seq := { (s.pollRead k).seq with phase := .idle } }) (calm_pollRead h k), run_finish,
    pollRead_eq]
  change State.ended (s.after { s.seq with step := _, cur := _, rx := _, rxPrev := _, phase := .idle } _ _ _ _) .none = _
  rw [ended_eq, after_after]
  simp only [after_seq, after_dev, after_env, completeAll_withCur, completeAll_take_drop]
  rfl

/-- The flag is set, and this is not the POLL_MAX-th read that finds it so (rules R144, R145). -/
theorem run_pollingRest_waits (hf : k.flag (s.dev.completeAll (s.env.take (pollFrames k).length)) = .known true)
    (hm : s.P.pollMax ≠ some (s.seq.pollcnt + 1)) :
    let n := (pollFrames k).length
    run (pollingRest k) s
      = s.after
          { s.seq with
            step := s.seq.step + n + 1, pollcnt := s.seq.pollcnt + 1, cur := k.curAfter s.P s.seq.cur, rx := s.pollByte k
            rxPrev := s.seq.rx, ucode := pollingRest k }
          { s.dev.completeAll (s.env.take (n + 1)) with cur := k.curAfter s.P s.dev.cur } (n + 1) n
          (events s.seq.phase (k.prims (s.pollByte k) ++ [.delay .tPoll])) := by
  intro n
  have hbyte := pollByte_busy hk hw hf
  have hrx : (s.pollRead k).seq.rx &&& k.mask ≠ 0 := by
    rw [pollRead_eq]
    exact hbyte
  have hm' : (s.pollRead k).P.pollMax ≠ some ((s.pollRead k).seq.pollcnt + 1) := by
    rw [pollRead_eq]
    exact hm
  rw [pollingRest_eq, run_pollFrames_calm h, run_pollTest_waits (calm_pollRead h k) hrx hm', pollRead_eq, after_after]
  simp only [after_seq, after_dev, after_env, completeAll_withCur, completeAll_take_drop, events, List.map_append]
  rfl

/-- The flag is set, and this is the POLL_MAX-th read that finds it so (rule R262). -/
theorem run_pollingRest_timesOut (hf : k.flag (s.dev.completeAll (s.env.take (pollFrames k).length)) = .known true)
    (hm : s.P.pollMax = some (s.seq.pollcnt + 1)) (hh : s.seq.hold = true) (hl : s.seq.resetn = true) :
    let n := (pollFrames k).length
    run (pollingRest k) s
      = s.after
          { s.seq with
            step := s.seq.step + n + 1, pollcnt := s.seq.pollcnt + 1, cur := k.curAfter s.P s.seq.cur, rx := s.pollByte k
            rxPrev := s.seq.rx, hold := false, result := .deviceTimeout, phase := .idle, busy := false, ucode := [] }
          { s.dev.completeAll (s.env.take (n + 1)) with cur := k.curAfter s.P s.dev.cur } (n + 1) n
          (events s.seq.phase (k.prims (s.pollByte k) ++ [.release])) := by
  intro n
  have hbyte := pollByte_busy hk hw hf
  have hread := pollRead_eq s k
  have hrx : (s.pollRead k).seq.rx &&& k.mask ≠ 0 := by rw [hread]; exact hbyte
  have hm' : (s.pollRead k).P.pollMax = some ((s.pollRead k).seq.pollcnt + 1) := by rw [hread]; exact hm
  have hh' : (s.pollRead k).seq.hold = true := by rw [hread]; exact hh
  have hl' : (s.pollRead k).seq.resetn = true := by rw [hread]; exact hl
  rw [pollingRest_eq, run_pollFrames_calm h, run_pollTest_timesOut (calm_pollRead h k) hrx hm' hh' hl', hread, after_after]
  simp only [after_seq, after_dev, after_env, completeAll_withCur, completeAll_take_drop, events, List.map_append]
  rfl

end PollingRest

/-- The step of a command that polls goes on with its next read. -/
theorem step_pollingRest {s : State} {k : PollKind} (hu : s.seq.ucode = pollingRest k) :
    step s = .next (run (pollingRest k) (s.keep [])) := by
  cases k <;> exact step_resumes hu

/-- Settles O48: the read finds the flag clear. -/
theorem clearPollFinishes : Obligations.ClearPollFinishes := by
  rintro s - h hw k hk n rfl hu hf
  refine ⟨_, pollByte_and_mask (s := s.keep []) hk hw hf, ?_⟩
  rw [step_pollingRest hu, run_pollingRest_clear (s := s.keep []) h hk hw hf]
  rfl

/-- Settles O47: the read finds the flag set, and POLL_MAX decides. -/
theorem busyPollWaitsOrTimesOut : Obligations.BusyPollWaitsOrTimesOut := by
  rintro s - h hw hh hl k hk n rfl hu hf
  refine ⟨_, pollByte_busy (s := s.keep []) hk hw hf, ?_⟩
  rw [step_pollingRest hu]
  by_cases hm : s.P.pollMax = some (s.seq.pollcnt + 1)
  · rw [if_pos hm, run_pollingRest_timesOut (s := s.keep []) h hk hw hf hm hh hl]
    rfl
  · rw [if_neg hm, run_pollingRest_waits (s := s.keep []) h hk hw hf hm, ← hu]
    rfl

end Sys2Proof.Machine
end

section
/-! PROOFS. An engine command whose engine does not complete (rules R144, R145, R207, R234): it stages and triggers, polls once and
is left polling. -/

namespace Sys2Proof.Machine

/-! ### From acceptance to the poll -/

/-- The staging writes of an engine command have gone through (rules R197 to R199, R220). -/
def State.staged (s : State) (w : List (Byte × Byte)) : State :=
  { s.wroteAll w with seq := { (s.wroteAll w).seq with phase := .paramsStaged } }

/-- Its trigger writes have too, and its poll loop begins. -/
def State.triggered (s : State) (w w' : List (Byte × Byte)) : State :=
  { (s.staged w).wroteAll w' with seq := { ((s.staged w).wroteAll w').seq with phase := .triggered, pollcnt := 0 } }

theorem calm_staged {s : State} (h : s.calm = true) (w : List (Byte × Byte)) : (s.staged w).calm = true := calm_wroteAll h w

theorem calm_triggered {s : State} (h : s.calm = true) (w w' : List (Byte × Byte)) : (s.triggered w w').calm = true :=
  calm_wroteAll (calm_staged h w) w'

theorem run_engineProgram_calm {s : State} (h : s.calm = true) (o : Op) (w w' : List (Byte × Byte)) (k : PollKind) :
    run (engineProgram w w' k) (s.accept o) = run (pollingRest k) ((s.opened o).triggered w w') := by
  have hopen : (s.opened o).calm = true := calm_of_env (s := s.accept o) h rfl
  simp only [engineProgram, List.append_assoc, List.cons_append, List.nil_append]
  calc run (.hold :: (wrTable w ++ .phase .paramsStaged :: (wrTable w' ++ .phase .triggered :: .pollStart :: pollingRest k)))
        (s.accept o)
    _ = run (wrTable w ++ .phase .paramsStaged :: (wrTable w' ++ .phase .triggered :: .pollStart :: pollingRest k))
        (s.opened o) := run_hold_calm (s := s.accept o) h _
    _ = run (wrTable w' ++ .phase .triggered :: .pollStart :: pollingRest k) ((s.opened o).staged w) :=
      run_wrTable_calm hopen w _
    _ = run (pollingRest k) ((s.opened o).triggered w w') := run_wrTable_calm (calm_staged hopen w) w' _

theorem wroteAll_bus (s : State) (w : List (Byte × Byte)) :
    ∃ l, (s.wroteAll w).bus = s.bus ++ l ∧ l.length = 2 * w.length := by
  obtain ⟨-, -, -, -, hbus⟩ := wroteAll_rest s w
  exact ⟨_, hbus, by simp [Nat.mul_comm]⟩

/-- What the writes leave of SEQ, the outside world and the wire. -/
theorem triggered_rest (s : State) (w w' : List (Byte × Byte)) :
    (s.triggered w w').P = s.P ∧ (s.triggered w w').env = s.env.drop (2 * w.length + 2 * w'.length)
      ∧ (∃ c, (s.triggered w w').seq
          = { s.seq with step := s.seq.step + 2 * w.length + 2 * w'.length, cur := c, phase := .triggered, pollcnt := 0 })
      ∧ ∃ l, (s.triggered w w').bus = s.bus ++ l ∧ l.length = 2 * w.length + 2 * w'.length := by
  obtain ⟨hP, henv, -, ⟨c, hseq⟩, -⟩ := wroteAll_rest s w
  obtain ⟨hP', henv', -, ⟨c', hseq'⟩, -⟩ := wroteAll_rest (s.staged w) w'
  obtain ⟨l, hbus, hlen⟩ := wroteAll_bus s w
  obtain ⟨l', hbus', hlen'⟩ := wroteAll_bus (s.staged w) w'
  refine ⟨hP'.trans hP, ?_, ⟨c', ?_⟩, l ++ l', ?_, ?_⟩
  · rw [← List.drop_drop, ← henv]
    exact henv'
  · simp only [State.triggered, hseq']
    simp only [State.staged, hseq]
  · rw [← List.append_assoc, ← hbus]
    exact hbus'
  · rw [List.length_append, hlen, hlen']

/-- DEV after a trigger, from DEV before it: awake, the flag the poll waits for set, one operation logged. -/
def Dev.TriggeredBy (P : Params) (d e : Dev) (k : PollKind) : Prop :=
  k.flag e = .known true ∧ e.awake P = true ∧ ∃ r, e.oplog = d.oplog ++ [r]

/-- An instruction is an engine command that an idle SEQ runs on DEV idle and awake: it stages in plain registers, and its trigger
writes set the flag it polls. -/
def State.Engages (s : State) (i : Instr) (k : PollKind) : Prop :=
  ∃ o w w', exec i s = .next (run (engineProgram w w' k) (s.accept o)) ∧ (∀ e ∈ w, plainReg s.P e.1 = true)
    ∧ ∀ v : State, v.P = s.P → v.dev.awake s.P = true → v.dev.allIdle = true →
      (∀ x, v.dev.cell x = lastWrite w x (s.dev.cell x)) → v.dev.TriggeredBy s.P (v.wroteAll w').dev k

/-- Such a command, with nothing happening outside and POLL_MAX not 1. -/
theorem exec_engages {s : State} {i : Instr} {k : PollKind} (hk : k ∈ enginePolls s.P) (henv : s.env = [])
    (hw : s.dev.awake s.P = true) (hi : s.dev.allIdle = true) (hm : s.P.pollMax ≠ some 1) (h : s.Engages i k) :
    ∃ t l b, exec i s = .next t ∧ t.seq.busy = true ∧ t.seq.phase = .triggered ∧ t.seq.hold = true ∧ t.seq.pollcnt = 1
      ∧ b &&& k.mask ≠ 0 ∧ t.bus = s.bus ++ l ++ events .triggered (k.prims b ++ [.delay .tPoll])
      ∧ t.seq.step = l.length + (k.prims b).length + 1
      ∧ k.flag t.dev = .known true ∧ t.seq.ucode = pollingRest k ∧ t.seq.result = s.seq.result
      ∧ t.seq.rdata = s.seq.rdata ∧ t.seq.cfg = s.seq.cfg ∧ ∃ r, t.dev.oplog = s.dev.oplog ++ [r] := by
  obtain ⟨o, w, w', hexec, hplain, htrigger⟩ := h
  have hcalm : s.calm = true := by simp [State.calm, henv]
  have hopenCalm : (s.opened o).calm = true := calm_of_env (s := s.accept o) hcalm rfl
  have hopenDev : (s.opened o).dev = s.dev := complete_of_allIdle hi _
  obtain ⟨hawake, hidle, hcell, hlog, -⟩ := wroteAll_dev_plain (s := s.opened o) w hplain (hopenDev ▸ hw) (hopenDev ▸ hi)
  obtain ⟨hP, henv', ⟨c, hseq⟩, l, hbus, hlen⟩ := triggered_rest (s.opened o) w w'
  have htrig : s.dev.TriggeredBy s.P ((s.opened o).triggered w w').dev k := by
    obtain ⟨hstagedP, -⟩ := wroteAll_rest (s.opened o) w
    obtain ⟨hflag, hawake', r, hoplog⟩ := htrigger ((s.opened o).staged w) hstagedP hawake hidle (hopenDev ▸ hcell)
    exact ⟨hflag, hawake', r, hoplog.trans (congrArg (· ++ [r]) (hlog.trans (congrArg Dev.oplog hopenDev)))⟩
  rw [run_engineProgram_calm hcalm] at hexec
  have hcalm' := calm_triggered hopenCalm w w'
  generalize (s.opened o).triggered w w' = u at *
  have henv'' : u.env = [] := by rw [henv']; simp [State.opened, henv]
  obtain ⟨hflag, hawake', r, hoplog⟩ := htrig
  have hnone : ∀ n, u.dev.completeAll (u.env.take n) = u.dev := fun n => by rw [henv'', List.take_nil]; rfl
  have hpoll : k.flag (u.dev.completeAll (u.env.take (pollFrames k).length)) = .known true := by rwa [hnone]
  have hmax : u.P.pollMax ≠ some (u.seq.pollcnt + 1) := by rwa [hP, hseq]
  have hbyte := pollByte_busy (hP ▸ hk) (hP ▸ hawake') hpoll
  rw [run_pollingRest_waits hcalm' (hP ▸ hk) (hP ▸ hawake') hpoll hmax, hseq] at hexec
  refine ⟨_, [⟨s.seq.phase, .hold⟩] ++ l, u.pollByte k, hexec, rfl, rfl, rfl, rfl, hbyte, ?_, ?_, ?_, rfl, rfl, rfl, rfl, r, ?_⟩
  · simp [State.after, hbus, opened_eq, events]
  · have hprims : (k.prims (u.pollByte k)).length = (pollFrames k).length := by cases k <;> rfl
    simp [hlen, hprims, opened_eq]
    omega
  · rw [after_dev, hnone]
    cases k <;> exact hflag
  · rw [after_dev, hnone]
    exact hoplog

/-! ### The triggers -/

/-- The start byte of an engine of DCR, written to DCR of an idle and awake device. -/
theorem triggeredBy_dcr {v : State} {e : Engine} {b m : Byte} (hs : Starts e b) (hm : e = .draw ∧ m = 0x80 ∨ e = .circ ∧ m = 0x40)
    (hw : v.dev.awake v.P = true) (hi : v.dev.allIdle = true) :
    v.dev.TriggeredBy v.P (v.wroteAll [(v.P.addr .DCR, b)]).dev (.reg (v.P.addr .DCR) m) := by
  have hidle : (v.dev.cmdw (v.P.addr .DCR)).allIdle = true := hi
  have hdev : (v.wroteAll [(v.P.addr .DCR, b)]).dev = _ := wrote_dev v (v.P.addr .DCR) b
  rw [complete_of_allIdle hi, complete_of_allIdle hidle,
    datw_dcr_starts hs hidle (inReset_of_awake (by exact hw) _) rfl] at hdev
  rw [hdev]
  refine ⟨?_, hw, _, rfl⟩
  rcases hm with ⟨rfl, rfl⟩ | ⟨rfl, rfl⟩ <;> rfl

/-- The operation byte and then the start byte of the BTE, on an idle and awake device that holds a size that is not zero. -/
theorem triggeredBy_bte {v : State} {rop : Byte} {w h : Half} (hP : v.P.wf = true) (hrop : rop = 0xC2 ∨ rop = 0xC5)
    (hw : v.dev.awake v.P = true) (hready : v.dev.allIdle = true) (hw0 : v.dev.cell (v.P.addr .BW_L) = .known (lo w))
    (hw1 : v.dev.cell (v.P.addr .BW_H) = .known (hi w)) (hh0 : v.dev.cell (v.P.addr .BH_L) = .known (lo h))
    (hh1 : v.dev.cell (v.P.addr .BH_H) = .known (hi h)) (hwz : w ≠ 0) (hhz : h ≠ 0) :
    v.dev.TriggeredBy v.P (v.wroteAll [(v.P.addr .BTE_CTRL1, rop), (v.P.addr .BTE_CTRL0, 0x80)]).dev (.status 0x40) := by
  have hctrl : plainReg v.P (v.P.addr .BTE_CTRL1) = true := plainReg_addr hP .BTE_CTRL1 (by decide) (by decide) (by decide)
  obtain ⟨hawake, hidle, hcell, hlog, -⟩ := wroteAll_dev_plain (s := v) [(v.P.addr .BTE_CTRL1, rop)] (by simp [hctrl]) hw hready
  generalize hu : v.wroteAll [(v.P.addr .BTE_CTRL1, rop)] = u at hawake hidle hcell hlog
  have huP : u.P = v.P := by rw [← hu]; rfl
  have hlast : v.wroteAll [(v.P.addr .BTE_CTRL1, rop), (v.P.addr .BTE_CTRL0, 0x80)] = u.wrote (v.P.addr .BTE_CTRL0) 0x80 := by
    rw [← hu]; rfl
  have hne : ∀ n : RegName, n ≠ .BTE_CTRL1 → n.mayAlias .BTE_CTRL1 = false → u.dev.cell (v.P.addr n) = v.dev.cell (v.P.addr n) :=
    fun n hn ha => (hcell _).trans (lastWrite_of_ne (by simpa using addr_ne hP hn ha) _)
  let d := u.dev.cmdw (v.P.addr .BTE_CTRL0)
  have hsize : d.bteSizeZero v.P (u.draws + 1) = false := by
    have hz := bteSizeZero_iff (d := d) ((hne .BW_L (by decide) rfl).trans hw0) ((hne .BW_H (by decide) rfl).trans hw1)
      ((hne .BH_L (by decide) rfl).trans hh0) ((hne .BH_H (by decide) rfl).trans hh1) (u.draws + 1)
    rw [join16_lo_hi, join16_lo_hi] at hz
    exact Bool.eq_false_iff.mpr fun hzero => (hz.mp hzero).elim hwz hhz
  have hoperation : d.bteOperationOk v.P = true := by
    have hc : d.cell (v.P.addr .BTE_CTRL1) = .known rop := (hcell _).trans (by simp [lastWrite])
    exact bteOperationOk_iff.mpr (hrop.imp (fun e => hc.trans (congrArg _ e)) (fun e => hc.trans (congrArg _ e)))
  have hdev := wrote_dev u (v.P.addr .BTE_CTRL0) 0x80
  rw [complete_of_allIdle hidle, complete_of_allIdle (d := d) hidle, huP,
    datw_bteStart hP (target_known rfl _) (inReset_of_awake (by exact hawake) _),
    writeBteStart_start (d := d) hidle hsize hoperation] at hdev
  rw [hlast, hdev]
  exact ⟨rfl, hawake, _, congrArg (· ++ _) hlog⟩

/-! ### The staging -/

theorem plainReg_atAddr {P : Params} (hP : P.wf = true) {w : List (RegName × Byte)}
    (h : ∀ r ∈ w, r.1 ≠ .DCR ∧ r.1 ≠ .BTE_CTRL0 ∧ r.1 ≠ .PWR) : ∀ e ∈ atAddr P w, plainReg P e.1 = true := by
  intro e he
  obtain ⟨r, hr, rfl⟩ := List.mem_map.mp he
  obtain ⟨h1, h2, h3⟩ := h r hr
  exact plainReg_addr hP r.1 h1 h2 h3

/-- A register named once among writes to registers it shares no address with holds the byte written to it. -/
theorem lastWrite_atAddr {P : Params} (hP : P.wf = true) {w : List (RegName × Byte)} {n : RegName} {b : Byte}
    (hw : (w.map Prod.fst).Nodup) (ha : ∀ m, n.mayAlias m = false) (hn : (n, b) ∈ w) (u : Unk Byte) :
    lastWrite (atAddr P w) (P.addr n) u = .known b := by
  induction w generalizing u with
  | nil => cases hn
  | cons r w ih =>
    obtain ⟨hr, hw⟩ := List.nodup_cons.mp hw
    rcases List.mem_cons.mp hn with rfl | hn
    · have hrest : ∀ e ∈ atAddr P w, P.addr n ≠ e.1 := by
        intro e he
        obtain ⟨r, hmem, rfl⟩ := List.mem_map.mp he
        exact addr_ne hP (fun e => hr (List.mem_map.mpr ⟨r, hmem, e.symm⟩)) (ha _)
      exact (lastWrite_of_ne hrest _).trans (if_pos rfl)
    · exact ih hw hn _

theorem copyWrites_names_nodup (P : Params) (d : Depth) (sl : BitVec 2) (sx sy w h : Half) (dl : BitVec 2) (dx dy : Half)
    (tr : Bool) (key : Half) : ((copyWrites P d sl sx sy w h dl dx dy tr key).map Prod.fst).Nodup := by
  cases tr <;> simp [copyWrites, pairWrites]

/-- The size is among the writes of a block copy. -/
theorem size_mem_copyWrites (P : Params) (d : Depth) (sl : BitVec 2) (sx sy w h : Half) (dl : BitVec 2) (dx dy : Half)
    (tr : Bool) (key : Half) :
    ∀ r ∈ pairWrites .BW_L .BW_H w ++ pairWrites .BH_L .BH_H h, r ∈ copyWrites P d sl sx sy w h dl dx dy tr key := by
  intro r hr
  simp only [copyWrites, List.mem_append] at hr ⊢
  tauto

theorem bteOperation_cases (tr : Bool) : bteOperation tr = 0xC2 ∨ bteOperation tr = 0xC5 := by
  cases tr <;> simp [bteOperation]

/-! ### The eight commands -/

/-- An admitted block copy whose size is not zero runs its program (rules R220 to R222). -/
theorem exec_btecopy_runs {s : State} {g : DeviceConfig} {sl dl : BitVec 2} {sx sy w h dx dy key : Half} {tr : Bool}
    (hb : s.seq.busy = false) (hg : s.seq.cfg = some g) (hops : bteOperandsOk sl dl sy dy = true) (hw : w ≠ 0) (hh : h ≠ 0) :
    let o := s.seq.op.copy sl sx sy w h dl dx dy tr key
    exec (.btecopy sl sx sy w h dl dx dy tr key) s = .next (run (bteCopy s.P g.colorDepth o) (s.accept o)) := by
  have hsize : ¬(w = 0 ∨ h = 0) := not_or.mpr ⟨hw, hh⟩
  simp only [exec, execBtecopy, Op.copy, hb, hg, hops, hsize, if_true, if_false, Bool.false_eq_true]

section Engages

variable {s : State} {g : DeviceConfig} (hP : s.P.wf = true) (hb : s.seq.busy = false) (hg : s.seq.cfg = some g)
include hP hb hg

/-- A drawing command. -/
theorem draw_engages {i : Instr} {o : Op} {prog : Depth → List Micro} {e : Engine} {b m : Byte} {w : List (RegName × Byte)}
    (hi : exec i s = s.draw o prog)
    (hprog : prog g.colorDepth = engineProgram (atAddr s.P w) [(s.P.addr .DCR, b)] (.reg (s.P.addr .DCR) m))
    (hw : ∀ r ∈ w, r.1 ≠ .DCR ∧ r.1 ≠ .BTE_CTRL0 ∧ r.1 ≠ .PWR) (hs : Starts e b)
    (hm : e = .draw ∧ m = 0x80 ∨ e = .circ ∧ m = 0x40) : s.Engages i (.reg (s.P.addr .DCR) m) := by
  refine ⟨o, atAddr s.P w, [(s.P.addr .DCR, b)], ?_, plainReg_atAddr hP hw, fun v hv hawake hidle _ => ?_⟩
  · rw [hi, ← hprog]
    simp [State.draw, hb, hg]
  · rw [← hv] at hawake ⊢
    exact triggeredBy_dcr hs hm hawake hidle

theorem draw2_engages {i : Instr} {o : Op} {t : Byte} (hi : exec i s = s.draw o fun d => draw2 s.P d o t)
    (ht : t ∈ ([0x80, 0x90, 0xB0, 0x81, 0xA1] : List Byte)) : s.Engages i (.reg (s.P.addr .DCR) 0x80) :=
  draw_engages hP hb hg hi (draw2_eq s.P g.colorDepth o t) (by simp [twoPointWrites, pairWrites, colourWrites]) (.inl ⟨rfl, ht⟩)
    (.inl ⟨rfl, rfl⟩)

theorem draw3_engages {i : Instr} {o : Op} {t : Byte} (hi : exec i s = s.draw o fun d => draw3 s.P d o t)
    (ht : t ∈ ([0x80, 0x90, 0xB0, 0x81, 0xA1] : List Byte)) : s.Engages i (.reg (s.P.addr .DCR) 0x80) :=
  draw_engages hP hb hg hi (draw3_eq s.P g.colorDepth o t) (by simp [threePointWrites, pairWrites, colourWrites]) (.inl ⟨rfl, ht⟩)
    (.inl ⟨rfl, rfl⟩)

theorem drawC_engages {i : Instr} {o : Op} {t : Byte} (hi : exec i s = s.draw o fun d => drawC s.P d o t)
    (ht : t ∈ ([0x40, 0x60] : List Byte)) : s.Engages i (.reg (s.P.addr .DCR) 0x40) :=
  draw_engages hP hb hg hi (drawC_eq s.P g.colorDepth o t) (by simp [circleWrites, pairWrites, colourWrites]) (.inr ⟨rfl, ht⟩)
    (.inr ⟨rfl, rfl⟩)

theorem btecopy_engages {sl dl : BitVec 2} {sx sy w h dx dy key : Half} {tr : Bool} (hops : bteOperandsOk sl dl sy dy = true)
    (hw : w ≠ 0) (hh : h ≠ 0) : s.Engages (.btecopy sl sx sy w h dl dx dy tr key) (.status 0x40) := by
  let o := s.seq.op.copy sl sx sy w h dl dx dy tr key
  let ws := copyWrites s.P g.colorDepth sl sx sy w h dl dx dy tr key
  let trigger := [(s.P.addr .BTE_CTRL1, bteOperation tr), (s.P.addr .BTE_CTRL0, 0x80)]
  have hcopy : bteCopy s.P g.colorDepth o
      = engineProgram (atAddr s.P ws) trigger (.status 0x40) :=
    bteCopy_eq s.P g.colorDepth o
  refine ⟨o, atAddr s.P ws, trigger, ?_, plainReg_atAddr hP ?_, fun v hv hawake hidle hcell => ?_⟩
  · rw [← hcopy]
    exact exec_btecopy_runs hb hg hops hw hh
  · cases tr <;> simp [ws, copyWrites, pairWrites]
  · have hheld : ∀ n b, (n, b) ∈ pairWrites .BW_L .BW_H w ++ pairWrites .BH_L .BH_H h → (∀ m, n.mayAlias m = false) →
        v.dev.cell (v.P.addr n) = .known b := by
      intro n b hn ha
      rw [hcell, hv]
      exact lastWrite_atAddr hP (copyWrites_names_nodup _ _ _ _ _ _ _ _ _ _ _ _) ha
        (size_mem_copyWrites _ _ _ _ _ _ _ _ _ _ _ _ _ hn) _
    have htrigger := triggeredBy_bte (v := v) (hv ▸ hP) (bteOperation_cases tr) (hv ▸ hawake) hidle
      (hheld .BW_L (lo w) (by simp [pairWrites]) fun _ => rfl) (hheld .BW_H (hi w) (by simp [pairWrites]) fun _ => rfl)
      (hheld .BH_L (lo h) (by simp [pairWrites]) fun _ => rfl) (hheld .BH_H (hi h) (by simp [pairWrites]) fun _ => rfl) hw hh
    rwa [hv] at htrigger

end Engages

/-- Settles O46: each of the commands engages its engine, and its poll then finds the flag set. -/
theorem busyEngineLeavesCommandPolling : Obligations.BusyEngineLeavesCommandPolling := by
  intro x0 y0 x1 y1 x2 y2 c w h rad sl dl tr g s hP henv hb hg hw hi hm e he hadmit
  have hgo : e.2 ∈ enginePolls s.P ∧ s.Engages e.1 e.2 := by
    simp only [List.mem_cons, List.not_mem_nil, or_false] at he
    rcases he with rfl | rfl | rfl | rfl | rfl | rfl | rfl | rfl
    · exact ⟨by simp [enginePolls], draw2_engages hP hb hg rfl (by decide)⟩
    · exact ⟨by simp [enginePolls], draw2_engages hP hb hg rfl (by decide)⟩
    · exact ⟨by simp [enginePolls], draw2_engages hP hb hg rfl (by decide)⟩
    · exact ⟨by simp [enginePolls], draw3_engages hP hb hg rfl (by decide)⟩
    · exact ⟨by simp [enginePolls], draw3_engages hP hb hg rfl (by decide)⟩
    · exact ⟨by simp [enginePolls], drawC_engages hP hb hg rfl (by decide)⟩
    · exact ⟨by simp [enginePolls], drawC_engages hP hb hg rfl (by decide)⟩
    · obtain ⟨hops, hwz, hhz⟩ := hadmit rfl
      exact ⟨by simp [enginePolls], btecopy_engages hP hb hg hops hwz hhz⟩
  obtain ⟨hk, hengages⟩ := hgo
  exact exec_engages hk henv hw hi hm hengages

end Sys2Proof.Machine
end

section
/-! PROOFS. The pointer policy (rule R146): two states alike but for the policy, the pointer and its shadow stay so, where every
DATA frame comes right after a CMDW. -/

namespace Sys2Proof.Machine

/-! ### Alike but for the pointer -/

/-- `s` with another policy, shadow and pointer. -/
def State.repoint (s : State) (pol : PtrPolicy) (c e : Unk Byte) : State :=
  { s with
    P := { s.P with ptrPolicy := pol }
    seq := { s.seq with cur := c }
    dev := { s.dev with cur := e } }

theorem sameButPointer_iff {s t : State} : s.sameButPointer t ↔ ∃ pol c e, t = s.repoint pol c e := by
  constructor
  · exact fun h => ⟨_, _, _, h⟩
  · rintro ⟨pol, c, e, rfl⟩
    rfl

/-- SEQ's shadow and DEV's pointer are the same in both. -/
def State.samePointer (s t : State) : Prop := s.seq.cur = t.seq.cur ∧ s.dev.cur = t.dev.cur

/-- Alike flows: the same way on, from states alike. -/
inductive Flow.Alike : Flow → Flow → Prop where
  | go {s t : State} : s.sameButPointer t → Alike (.go s) (.go t)
  | pause {s t : State} : s.sameButPointer t → Alike (.pause s) (.pause t)
  | halt {s t : State} : s.sameButPointer t → Alike (.halt s) (.halt t)
  | again {s t : State} (k : PollKind) : s.sameButPointer t → Alike (.again k s) (.again k t)

section Alike

variable {s t : State} (h : s.sameButPointer t)
include h

/-- SEQ is the same in both but for its shadow. -/
theorem seq_alike : t.seq = { s.seq with cur := t.seq.cur } := congrArg State.seq h

/-- The parameters are the same in both but for the policy. -/
theorem params_alike : t.P = { s.P with ptrPolicy := t.P.ptrPolicy } := congrArg State.P h

theorem gap_alike : s.gap.sameButPointer t.gap := by
  obtain ⟨pol, c, e, rfl⟩ := sameButPointer_iff.mp h
  rfl

theorem now_alike : t.now = s.now := by
  obtain ⟨pol, c, e, rfl⟩ := sameButPointer_iff.mp h
  rfl

theorem resetSeq_alike : s.resetSeq.sameButPointer t.resetSeq := by
  obtain ⟨pol, c, e, rfl⟩ := sameButPointer_iff.mp h
  rfl

theorem perform_alike (p : Prim) : (s.perform p).sameButPointer (t.perform p) := by
  obtain ⟨pol, c, e, rfl⟩ := sameButPointer_iff.mp h
  rfl

theorem release_alike : s.release.sameButPointer t.release := by
  obtain ⟨pol, c, e, rfl⟩ := sameButPointer_iff.mp h
  rfl

theorem driveReset_alike (l : Bool) : (s.driveReset l).sameButPointer (t.driveReset l) := by
  obtain ⟨pol, c, e, rfl⟩ := sameButPointer_iff.mp h
  cases l <;> rfl

theorem post_alike (x : Result) : (s.post x).sameButPointer (t.post x) := by
  obtain ⟨pol, c, e, rfl⟩ := sameButPointer_iff.mp h
  rfl

theorem finish_alike (x : Result) (r : Ret) : (s.finish x r).sameButPointer (t.finish x r) := by
  obtain ⟨pol, c, e, rfl⟩ := sameButPointer_iff.mp h
  cases r <;> rfl

theorem accept_alike (o : Op) : (s.accept o).sameButPointer (t.accept o) := by
  obtain ⟨pol, c, e, rfl⟩ := sameButPointer_iff.mp h
  rfl

theorem keep_alike (k : List Micro) : (s.keep k).sameButPointer (t.keep k) := by
  obtain ⟨pol, c, e, rfl⟩ := sameButPointer_iff.mp h
  rfl

/-- A frame that does not use the pointer, or finds it the same in both. -/
theorem sent_alike {op : FrameOp} (hp : op = .datw ∨ op = .datr → s.samePointer t) (p : Byte) :
    (s.sent op p).sameButPointer (t.sent op p) := by
  obtain ⟨pol, c, e, rfl⟩ := sameButPointer_iff.mp h
  cases op with
  | cmdw => rfl
  | stsr => rfl
  | datw =>
    obtain ⟨hc, he⟩ := hp (.inl rfl)
    obtain rfl : s.seq.cur = c := hc
    obtain rfl : s.dev.cur = e := he
    rfl
  | datr =>
    obtain ⟨hc, he⟩ := hp (.inr rfl)
    obtain rfl : s.seq.cur = c := hc
    obtain rfl : s.dev.cur = e := he
    rfl

theorem unsent_alike {op : FrameOp} (hp : op = .datw ∨ op = .datr → s.samePointer t) (p : Byte) (acted : Bool) :
    (s.unsent op p acted).sameButPointer (t.unsent op p acted) := by
  cases acted with
  | true =>
    have hsent := sent_alike h hp p
    obtain ⟨pol, c, e, rfl⟩ := sameButPointer_iff.mp h
    have hdev : (s.repoint pol c e).dev.after (s.repoint pol c e).P s.draws op p = _ := congrArg State.dev hsent
    exact congrArg (fun d => { (s.repoint pol c e).unsent op p true with dev := d }) hdev
  | false =>
    obtain ⟨pol, c, e, rfl⟩ := sameButPointer_iff.mp h
    rfl

theorem closing_alike {f k : State → State} (hf : ∀ {u v : State}, u.sameButPointer v → (f u).sameButPointer (f v))
    (hk : ∀ {u v : State}, u.sameButPointer v → (k u).sameButPointer (k v)) :
    (s.closing f k).sameButPointer (t.closing f k) := by
  unfold State.closing
  rw [now_alike h]
  split
  · exact resetSeq_alike (gap_alike h)
  · exact hk (hf (gap_alike h))

theorem lineHigh_alike (x : Result) :
    (s.lineHigh fun u => u.post x).sameButPointer (t.lineHigh fun u => u.post x) := by
  have hl : t.seq.resetn = s.seq.resetn := by rw [seq_alike h]
  unfold State.lineHigh
  rw [hl]
  split
  · exact post_alike h x
  · exact closing_alike h (fun h => driveReset_alike h true) fun h => post_alike h x

theorem abort_alike (x : Result) : (s.abort x).sameButPointer (t.abort x) := by
  have hh : t.seq.hold = s.seq.hold := by rw [seq_alike h]
  unfold State.abort State.letGo
  rw [hh]
  split
  · exact closing_alike h release_alike fun h => lineHigh_alike h x
  · exact lineHigh_alike h x

theorem inGap_alike {f g : State → Flow} (hf : (f s.gap).Alike (g t.gap)) : (s.inGap f).Alike (t.inGap g) := by
  unfold State.inGap
  rw [now_alike h]
  split
  · exact .halt (resetSeq_alike (gap_alike h))
  · exact hf

theorem onward_alike (k : Tick) : (k.onward s).Alike (k.onward t) := by
  unfold Tick.onward
  split
  · exact .pause h
  · exact .go h

theorem primitive_alike {f : State → State} (hf : ∀ {u v : State}, u.sameButPointer v → (f u).sameButPointer (f v)) :
    (s.primitive f).Alike (t.primitive f) := by
  unfold State.primitive
  rw [now_alike h]
  exact inGap_alike h (onward_alike (hf (gap_alike h)) _)

theorem frame_alike {op : FrameOp} (hp : op = .datw ∨ op = .datr → s.samePointer t) (p : Byte) :
    (s.frame op p).Alike (t.frame op p) := by
  unfold State.frame
  rw [now_alike h]
  refine inGap_alike h ?_
  cases s.now.fate with
  | ok => exact onward_alike (sent_alike (gap_alike h) hp p) _
  | failActed => exact .halt (abort_alike (unsent_alike (gap_alike h) hp p true) _)
  | failLost => exact .halt (abort_alike (unsent_alike (gap_alike h) hp p false) _)

theorem pollTest_alike (k : PollKind) : (s.pollTest k).Alike (t.pollTest k) := by
  have hcount : s.counted.sameButPointer t.counted := by
    obtain ⟨pol, c, e, rfl⟩ := sameButPointer_iff.mp h
    rfl
  have hrx : t.seq.rx = s.seq.rx := by rw [seq_alike h]
  have hcnt : t.seq.pollcnt = s.seq.pollcnt := by rw [seq_alike h]
  have hmax : t.P.pollMax = s.P.pollMax := by rw [params_alike h]
  by_cases hr : s.seq.rx &&& k.mask = 0
  · unfold State.pollTest
    rw [hrx, if_pos hr, if_pos hr]
    exact .go h
  · change (s.micro (.pollTest k)).Alike (t.micro (.pollTest k))
    rw [micro_pollTest_busy hr, micro_pollTest_busy (hrx.symm ▸ hr), hmax, hcnt]
    split
    · exact .halt (abort_alike hcount _)
    · exact inGap_alike hcount (.again k (perform_alike (gap_alike hcount) _))

end Alike

/-! ### Runs -/

/-- A micro-operation that sends a DATA frame, which goes where the pointer is. -/
def Micro.usesPointer : Micro → Bool
  | .frame .datw _ | .frame .datr _ | .writeSet | .writeClr => true
  | _ => false

/-- A micro-operation that loads the pointer. -/
def Micro.loadsPointer : Micro → Bool
  | .frame .cmdw _ => true
  | _ => false

/-- Every DATA frame comes right after a CMDW; `b` says that the first one may come at once. -/
def addressed : Bool → List Micro → Bool
  | _, [] => true
  | b, m :: k => (b || !m.usesPointer) && addressed m.loadsPointer k

theorem micro_alike {s t : State} (h : s.sameButPointer t) {m : Micro} (hp : m.usesPointer = true → s.samePointer t) :
    (s.micro m).Alike (t.micro m) := by
  cases m with
  | hold =>
    exact primitive_alike h (f := fun t => { t.perform .hold with seq := { (t.perform .hold).seq with hold := true } }) fun hu => by
      obtain ⟨pol, c, e, rfl⟩ := sameButPointer_iff.mp hu
      rfl
  | release => exact primitive_alike h release_alike
  | delay d => exact primitive_alike h fun hu => perform_alike hu _
  | resetLine l => exact primitive_alike h fun hu => driveReset_alike hu l
  | frame op p =>
    refine frame_alike h (fun ho => hp ?_) p
    rcases ho with rfl | rfl <;> rfl
  | writeSet =>
    obtain ⟨pol, c, e, rfl⟩ := sameButPointer_iff.mp h
    exact frame_alike h (op := .datw) (fun _ => hp rfl) _
  | writeClr =>
    obtain ⟨pol, c, e, rfl⟩ := sameButPointer_iff.mp h
    exact frame_alike h (op := .datw) (fun _ => hp rfl) _
  | phase | pllDone | forget | pollStart | setCfg =>
    obtain ⟨pol, c, e, rfl⟩ := sameButPointer_iff.mp h
    exact .go rfl
  | pollTest k => exact pollTest_alike h k
  | finish r => exact .halt (finish_alike h .ok r)

/-- After a CMDW that went through, the shadow and the pointer are where it put them. -/
theorem loaded_of_go {s u : State} {m : Micro} (hm : m.loadsPointer = true) (h : s.micro m = .go u) :
    ∃ a, m = .frame .cmdw a ∧ u.seq.cur = .known a ∧ u.dev.cur = .known a := by
  obtain ⟨a, rfl⟩ : ∃ a, m = .frame .cmdw a := by
    unfold Micro.loadsPointer at hm
    split at hm
    · exact ⟨_, rfl⟩
    · cases hm
  refine ⟨a, rfl, ?_⟩
  simp only [State.micro, State.frame, State.inGap, Tick.onward] at h
  split at h
  · cases h
  · split at h
    · split at h
      · cases h
      · obtain rfl := Flow.go.inj h
        exact ⟨rfl, rfl⟩
    · cases h
    · cases h

/-- A run of addressed micro-operations keeps two states alike. -/
theorem run_alike {k : List Micro} {b : Bool} (hk : addressed b k = true) {s t : State} (h : s.sameButPointer t)
    (hb : b = true → s.samePointer t) : (run k s).sameButPointer (run k t) := by
  induction k generalizing b s t with
  | nil => exact keep_alike h []
  | cons m k ih =>
    simp only [addressed, Bool.and_eq_true, Bool.or_eq_true, Bool.not_eq_true'] at hk
    obtain ⟨hm, hk⟩ := hk
    have hflow := micro_alike h (m := m) fun hu => hb (hm.resolve_right (by simp [hu]))
    have hload : ∀ {u v}, s.micro m = .go u → t.micro m = .go v → m.loadsPointer = true → u.samePointer v := by
      intro u v hu hv hl
      obtain ⟨a, rfl, hcu, hdu⟩ := loaded_of_go hl hu
      obtain ⟨a', ha, hcv, hdv⟩ := loaded_of_go hl hv
      obtain rfl : a = a' := by injection ha
      exact ⟨hcu.trans hcv.symm, hdu.trans hdv.symm⟩
    simp only [run]
    generalize hfs : s.micro m = fs at *
    generalize hft : t.micro m = ft at *
    cases hflow with
    | go huv => exact ih hk huv (hload rfl rfl)
    | pause huv => exact keep_alike huv k
    | halt huv => exact huv
    | again p huv => exact keep_alike huv _

/-! ### The programs -/

theorem addressed_of_false {k : List Micro} (h : addressed false k = true) (b : Bool) : addressed b k = true := by
  cases k with
  | nil => rfl
  | cons m k =>
    simp only [addressed, Bool.false_or, Bool.and_eq_true] at h
    simp [addressed, h.1, h.2]

theorem addressed_append {b : Bool} {k l : List Micro} (hk : addressed b k = true) (hl : addressed false l = true) :
    addressed b (k ++ l) = true := by
  induction k generalizing b with
  | nil => exact addressed_of_false hl b
  | cons m k ih =>
    simp only [addressed, List.cons_append, Bool.and_eq_true] at hk ⊢
    exact ⟨hk.1, ih hk.2⟩

theorem addressed_wrTable (w : List (Byte × Byte)) : addressed false (wrTable w) = true := by
  induction w with
  | nil => rfl
  | cons e w ih => exact addressed_append (k := wrAddr e.1 e.2) rfl ih

theorem addressed_pollingRest (k : PollKind) : addressed false (pollingRest k) = true := by
  cases k <;> rfl

theorem addressed_engineProgram (w w' : List (Byte × Byte)) (k : PollKind) : addressed false (engineProgram w w' k) = true :=
  addressed_append (addressed_append rfl (addressed_wrTable w))
    (addressed_append (addressed_append (addressed_append rfl (addressed_wrTable w')) rfl) (addressed_pollingRest k))

theorem addressed_initProgram (P : Params) (o : Op) (p : Panel) : addressed false (initProgram P o p) = true := by
  have hreset : addressed false (resetSteps P) = true := by
    unfold resetSteps
    split <;> rfl
  have htable := addressed_wrTable
  rw [initProgram_eq]
  refine addressed_append (addressed_append rfl hreset) ?_
  refine addressed_append (addressed_append (addressed_append ?_ rfl) (htable _)) rfl
  refine addressed_append (addressed_append (addressed_append ?_ (htable _)) rfl) (htable _)
  exact addressed_append (addressed_append (addressed_append (addressed_append rfl (htable _)) rfl) (htable _)) rfl

/-! ### The commands -/

/-- Alike outcomes: next states alike, or the same refusal. -/
def OutcomesAlike (x y : Host.Outcome State Fault Refusal) : Prop :=
  (∃ s t, x = .next s ∧ y = .next t ∧ s.sameButPointer t) ∨ ∃ r, x = .refused r ∧ y = .refused r

theorem next_alike {s t : State} (h : s.sameButPointer t) : OutcomesAlike (.next s) (.next t) := .inl ⟨s, t, rfl, rfl, h⟩

theorem runs_alike {s t : State} (h : s.sameButPointer t) (o : Op) {k : List Micro} (hk : addressed false k = true) :
    OutcomesAlike (.next (run k (s.accept o))) (.next (run k (t.accept o))) :=
  next_alike (run_alike hk (accept_alike h o) nofun)

theorem command_alike {s t : State} (h : s.sameButPointer t) (hb : s.seq.busy = false) (o : Op) {k : List Micro}
    (hk : addressed false k = true) : OutcomesAlike (s.command o k) (t.command o k) := by
  have hb' : t.seq.busy = false := by rw [seq_alike h, hb]
  unfold State.command
  rw [hb, hb']
  exact runs_alike h o hk

theorem draw_alike {s t : State} (h : s.sameButPointer t) (hb : s.seq.busy = false) (o : Op) {prog : Depth → List Micro}
    (hk : ∀ d, ∃ w w' p, prog d = engineProgram w w' p) : OutcomesAlike (s.draw o prog) (t.draw o prog) := by
  have hb' : t.seq.busy = false := by rw [seq_alike h, hb]
  have hg' : t.seq.cfg = s.seq.cfg := by rw [seq_alike h]
  unfold State.draw
  rw [hb, hb', hg']
  cases s.seq.cfg with
  | none => exact .inr ⟨_, rfl, rfl⟩
  | some g =>
    obtain ⟨w, w', p, hp⟩ := hk g.colorDepth
    simp only [hp]
    exact runs_alike h o (addressed_engineProgram w w' p)

theorem init_alike {s t : State} (h : s.sameButPointer t) (hb : s.seq.busy = false) (width height : Half) (depth : Byte) :
    OutcomesAlike (exec (.init width height depth) s) (exec (.init width height depth) t) := by
  obtain ⟨pol, c, e, rfl⟩ := sameButPointer_iff.mp h
  cases hp : s.P.panel? width height depth with
  | none =>
    rw [exec_init_unsupported hb hp, exec_init_unsupported (s := s.repoint pol c e) hb hp]
    exact next_alike (finish_alike (accept_alike h _) _ _)
  | some p =>
    rw [exec_init_supported hb hp, exec_init_supported (s := s.repoint pol c e) hb hp]
    exact runs_alike h _ (addressed_initProgram _ _ _)

section Btecopy

variable {sl dl : BitVec 2} {sx sy w hh dx dy key : Half} {tr : Bool}

theorem exec_btecopy_notAdmitted {s : State} (hb : s.seq.busy = false) (hg : s.seq.cfg = none) :
    exec (.btecopy sl sx sy w hh dl dx dy tr key) s = .refused .notAdmitted := by
  simp only [exec, execBtecopy, hb, hg, if_false, Bool.false_eq_true]

theorem exec_btecopy_badOperands {s : State} {g : DeviceConfig} (hb : s.seq.busy = false) (hg : s.seq.cfg = some g)
    (hops : bteOperandsOk sl dl sy dy = false) :
    exec (.btecopy sl sx sy w hh dl dx dy tr key) s = .refused .bteOperands := by
  simp only [exec, execBtecopy, Op.copy, hb, hg, hops, if_false, Bool.false_eq_true]

theorem exec_btecopy_zeroSize {s : State} {g : DeviceConfig} (hb : s.seq.busy = false) (hg : s.seq.cfg = some g)
    (hops : bteOperandsOk sl dl sy dy = true) (hz : w = 0 ∨ hh = 0) :
    exec (.btecopy sl sx sy w hh dl dx dy tr key) s
      = .next ((s.accept (s.seq.op.copy sl sx sy w hh dl dx dy tr key)).finish .ok .none) := by
  simp only [exec, execBtecopy, Op.copy, hb, hg, hops, hz, if_true, if_false, Bool.false_eq_true]

theorem btecopy_alike {s t : State} (h : s.sameButPointer t) (hb : s.seq.busy = false) :
    OutcomesAlike (exec (.btecopy sl sx sy w hh dl dx dy tr key) s) (exec (.btecopy sl sx sy w hh dl dx dy tr key) t) := by
  obtain ⟨pol, c, e, rfl⟩ := sameButPointer_iff.mp h
  cases hg : s.seq.cfg with
  | none => exact .inr ⟨_, exec_btecopy_notAdmitted hb hg, exec_btecopy_notAdmitted (s := s.repoint pol c e) hb hg⟩
  | some g =>
    cases hops : bteOperandsOk sl dl sy dy with
    | false => exact .inr ⟨_, exec_btecopy_badOperands hb hg hops, exec_btecopy_badOperands (s := s.repoint pol c e) hb hg hops⟩
    | true =>
      by_cases hz : w = 0 ∨ hh = 0
      · rw [exec_btecopy_zeroSize hb hg hops hz, exec_btecopy_zeroSize (s := s.repoint pol c e) hb hg hops hz]
        exact next_alike (finish_alike (accept_alike h _) _ _)
      · obtain ⟨hwz, hhz⟩ := not_or.mp hz
        rw [exec_btecopy_runs hb hg hops hwz hhz, exec_btecopy_runs (s := s.repoint pol c e) hb hg hops hwz hhz, bteCopy_eq,
          bteCopy_eq]
        exact runs_alike h _ (addressed_engineProgram _ _ _)

end Btecopy

/-- Settles O35: a busy SEQ takes no command, and every program but those of WRDATA and RDDATA is addressed. -/
theorem pointerPolicyIndependence : Obligations.PointerPolicyIndependence := by
  intro i s t hf hwr hrd h
  change OutcomesAlike (exec i s) (exec i t)
  obtain ⟨pol, c, e, rfl⟩ := sameButPointer_iff.mp h
  cases hb : s.seq.busy with
  | true =>
    rw [exec_command_busy hf hb, exec_command_busy (s := s.repoint pol c e) hf hb]
    exact next_alike h
  | false =>
    cases i with
    | cmdw | datw | datr | stsr | tLine | tRect | tFrect | tTri | tFtri | tCirc | tFcirc | bMove | bTmove | bStart | pwrOn =>
      cases hf
    | wrdata b => exact absurd rfl (hwr b)
    | rddata => exact absurd rfl hrd
    | wrcmd | rdstatus | wrreg | rdreg | wr16 | rd16 => exact command_alike h hb _ rfl
    | line | rect | frect => exact draw_alike h hb _ fun d => ⟨_, _, _, draw2_eq _ d _ _⟩
    | tri | ftri => exact draw_alike h hb _ fun d => ⟨_, _, _, draw3_eq _ d _ _⟩
    | circ | fcirc => exact draw_alike h hb _ fun d => ⟨_, _, _, drawC_eq _ d _ _⟩
    | init width height depth => exact init_alike h hb width height depth
    | btecopy => exact btecopy_alike h hb

end Sys2Proof.Machine
end

section
/-! PROOFS. A step in which the transport fails a frame (rules R139, R263, R266, R270, R271): what a step puts on the bus, and where
a failed frame leaves SEQ. -/

namespace Sys2Proof.Machine

/-! ### What a micro-operation puts on the bus -/

/-- A primitive that is a frame the transport failed. -/
def Prim.failed (x : Prim) : Prop := ∃ op p, x = .xferFailed op p

/-- `t` has performed more than `s`, and no frame of it has failed. -/
def State.Unfailed (s t : State) : Prop := ∃ l, t.bus = s.bus ++ l ∧ ∀ e ∈ l, ¬e.prim.failed

theorem unfailed_refl {s t : State} (h : t.bus = s.bus) : s.Unfailed t := ⟨[], by simp [h], nofun⟩

theorem unfailed_one {s t : State} {e : Event} (h : t.bus = s.bus ++ [e]) (he : ¬e.prim.failed) : s.Unfailed t :=
  ⟨[e], h, by simpa using he⟩

theorem unfailed_trans {s t u : State} (h : s.Unfailed t) (h' : t.Unfailed u) : s.Unfailed u := by
  obtain ⟨l, hb, hl⟩ := h
  obtain ⟨l', hb', hl'⟩ := h'
  refine ⟨l ++ l', by rw [hb', hb, List.append_assoc], fun e he => ?_⟩
  exact (List.mem_append.mp he).elim (hl e) (hl' e)

/-- The primitives of an abort (rule R270). -/
def Prim.closing (x : Prim) : Prop := x = .release ∨ x = .resetLine true

theorem closing_not_failed {x : Prim} (h : x.closing) : ¬x.failed := by
  rintro ⟨op, p, rfl⟩
  rcases h with h | h <;> cases h

/-- An abort performs nothing but the release and the rise of the line. -/
theorem abort_bus (s : State) (x : Result) : ∃ l, (s.abort x).bus = s.bus ++ l ∧ ∀ e ∈ l, e.prim.closing := by
  have hclosing : ∀ (u : State) (f k : State → State) (p : Prim), p.closing → (f u.gap).bus = u.bus ++ [⟨u.seq.phase, p⟩] →
      (∃ l, (k (f u.gap)).bus = (f u.gap).bus ++ l ∧ ∀ e ∈ l, e.prim.closing) →
      ∃ l, (u.closing f k).bus = u.bus ++ l ∧ ∀ e ∈ l, e.prim.closing := by
    rintro u f k p hp hf ⟨l, hk, hl⟩
    unfold State.closing
    split
    · exact ⟨[], by simp, nofun⟩
    · refine ⟨⟨u.seq.phase, p⟩ :: l, by rw [hk, hf, List.append_assoc]; rfl, fun e he => ?_⟩
      rcases List.mem_cons.mp he with rfl | he
      · exact hp
      · exact hl e he
  have hline : ∀ u : State, ∃ l, (u.lineHigh fun v => v.post x).bus = u.bus ++ l ∧ ∀ e ∈ l, e.prim.closing := by
    intro u
    unfold State.lineHigh
    split
    · exact ⟨[], by simp, nofun⟩
    · exact hclosing u _ _ _ (.inr rfl) rfl ⟨[], by simp, nofun⟩
  unfold State.abort State.letGo
  split
  · exact hclosing s _ _ _ (.inl rfl) rfl (hline _)
  · exact hline s

/-- What a micro-operation puts on the bus: no failed frame, unless it is one and its abort ends the run. -/
def Flow.Performs (s : State) : Flow → Prop
  | .go t | .pause t | .again _ t => s.Unfailed t
  | .halt t => s.Unfailed t ∨ ∃ op p acted, t = (s.gap.unsent op p acted).abort .busTransportFailure

theorem primitive_performs {s : State} {f : State → State} (h : s.Unfailed (f s.gap)) : (s.primitive f).Performs s := by
  unfold State.primitive State.inGap Tick.onward
  split
  · exact .inl (unfailed_refl rfl)
  · split <;> exact h

theorem frame_performs (s : State) (op : FrameOp) (p : Byte) : (s.frame op p).Performs s := by
  have hsent : s.Unfailed (s.gap.sent op p) := unfailed_one rfl fun ⟨_, _, h⟩ => nomatch h
  unfold State.frame State.inGap
  split
  · exact .inl (unfailed_refl rfl)
  · cases s.now.fate with
    | ok => unfold Tick.onward; dsimp only; split <;> exact hsent
    | failActed => exact .inr ⟨op, p, true, rfl⟩
    | failLost => exact .inr ⟨op, p, false, rfl⟩

theorem pollTest_performs (s : State) (k : PollKind) : (s.micro (.pollTest k)).Performs s := by
  by_cases hr : s.seq.rx &&& k.mask = 0
  · have hclear : s.micro (.pollTest k) = .go s := if_pos hr
    rw [hclear]
    exact unfailed_refl rfl
  · rw [micro_pollTest_busy hr]
    split
    · obtain ⟨l, hb, hl⟩ := abort_bus s.counted .deviceTimeout
      exact .inl ⟨l, hb, fun e he => closing_not_failed (hl e he)⟩
    · unfold State.inGap
      split
      · exact .inl (unfailed_refl rfl)
      · exact unfailed_one rfl fun ⟨_, _, h⟩ => nomatch h

theorem micro_performs (s : State) (m : Micro) : (s.micro m).Performs s := by
  have hone : ∀ {t : State} {x : Prim}, t.bus = s.bus ++ [⟨s.seq.phase, x⟩] → ¬x.failed → s.Unfailed t :=
    fun h hx => unfailed_one h hx
  cases m with
  | hold =>
    exact primitive_performs (f := fun t => { t.perform .hold with seq := { (t.perform .hold).seq with hold := true } })
      (hone rfl fun ⟨_, _, h⟩ => nomatch h)
  | release => exact primitive_performs (f := State.release) (hone rfl fun ⟨_, _, h⟩ => nomatch h)
  | delay d => exact primitive_performs (f := fun t => t.perform (.delay d)) (hone rfl fun ⟨_, _, h⟩ => nomatch h)
  | resetLine l => exact primitive_performs (f := fun t => t.driveReset l) (hone rfl fun ⟨_, _, h⟩ => nomatch h)
  | frame | writeSet | writeClr => exact frame_performs s _ _
  | phase | pllDone | forget | pollStart | setCfg => exact unfailed_refl rfl
  | pollTest k => exact pollTest_performs s k
  | finish r => exact .inl (unfailed_refl rfl)

/-! ### A run -/

/-- `t` is where a failed frame has left SEQ, in a run from `s`. -/
def State.FailedAt (s t : State) : Prop :=
  ∃ u op p acted, s.Unfailed u ∧ u.seq.rdata = s.seq.rdata ∧ u.env <:+ s.env
    ∧ t = (u.gap.unsent op p acted).abort .busTransportFailure

theorem failedAt_of_goesOn {s u t : State} {m : Micro} (hb : s.Unfailed u) (hu : s.GoesOn u m) (h : u.FailedAt t) :
    s.FailedAt t := by
  obtain ⟨v, op, p, acted, hv, hr, he, ht⟩ := h
  exact ⟨v, op, p, acted, unfailed_trans hb hv, hr.trans hu.rdata, he.trans hu.env, ht⟩

/-- A run in which no frame fails, or that a failed frame ends. -/
theorem run_performs (k : List Micro) (s : State) : s.Unfailed (run k s) ∨ s.FailedAt (run k s) := by
  induction k generalizing s with
  | nil => exact .inl (unfailed_refl rfl)
  | cons m k ih =>
    have hbus := micro_performs s m
    have hfrom := micro_from s m
    simp only [run]
    cases hf : s.micro m with
    | go t =>
      rw [hf] at hbus hfrom
      exact (ih t).imp (unfailed_trans hbus) (failedAt_of_goesOn hbus hfrom)
    | pause t => rw [hf] at hbus; exact .inl hbus
    | again p t => rw [hf] at hbus; exact .inl hbus
    | halt t =>
      rw [hf] at hbus
      refine hbus.imp id ?_
      rintro ⟨op, p, acted, ht⟩
      exact ⟨s, op, p, acted, unfailed_refl rfl, rfl, List.suffix_rfl, ht⟩

/-- A step in which no frame fails, or that a failed frame ends. -/
theorem step_performs {s t : State} (h : step s = .next t) : s.Unfailed t ∨ s.FailedAt t := by
  rcases step_cases h with ⟨-, rfl⟩ | ⟨-, rfl⟩ | ⟨p, ps, i, -, -, -, -, he⟩
  · exact run_performs s.seq.ucode (s.keep [])
  · unfold State.wait
    split <;> exact .inl (unfailed_refl rfl)
  · rcases exec_cases he with rfl | ⟨o, x, rfl⟩ | ⟨o, k, rfl⟩ | ⟨k, rfl⟩
    · exact .inl (unfailed_refl rfl)
    · exact .inl (unfailed_refl rfl)
    · exact run_performs k (State.accept { s with port := ps } o)
    · exact run_performs k { s with port := ps }

/-- Settles O53: what comes before the failed frame holds none that failed, and after it comes an abort alone. -/
theorem transportFailureEndsCommand : Obligations.TransportFailureEndsCommand := by
  intro s t l h hbus hfail
  rcases step_performs h with ⟨l', hb, hl'⟩ | ⟨u, op, p, acted, ⟨pre, hpre, hclean⟩, hrdata, henv, rfl⟩
  · obtain rfl : l = l' := List.append_cancel_left (hbus.symm.trans hb)
    obtain ⟨e, he, hfailed⟩ := hfail
    exact absurd hfailed (hl' e he)
  · have ha := abort_cases (u.gap.unsent op p acted) .busTransportFailure
    have hidle := ha.idle
    simp only [State.idle, Bool.and_eq_true, Bool.not_eq_true', beq_iff_eq, List.isEmpty_iff] at hidle
    obtain ⟨⟨⟨⟨hhold, hresetn⟩, hbusy⟩, hphase⟩, hucode⟩ := hidle
    obtain ⟨post, hpost, hclosing⟩ := abort_bus (u.gap.unsent op p acted) .busTransportFailure
    have hlog : l = pre ++ ⟨u.seq.phase, .xferFailed op p⟩ :: post := by
      refine List.append_cancel_left (hbus.symm.trans ?_)
      rw [hpost, unsent_bus, gap_bus, gap_seq_phase, hpre]
      simp
    refine ⟨hbusy, hhold, hphase, hresetn, ?_, hucode, ?_, pre, _, post, hlog, ⟨op, p, rfl⟩, fun x hx op' p' hx' => ?_, hclosing⟩
    · rcases ha.how with ⟨hcur, -⟩ | ⟨-, hseq⟩
      · exact hcur
      · rw [hseq]; rfl
    · rcases ha.how with ⟨-, hres, hrd, -⟩ | ⟨⟨k, hk, hreset⟩, hseq⟩
      · exact .inl ⟨hres, hrd.trans hrdata⟩
      · refine .inr ⟨⟨k, henv.subset (List.mem_of_mem_tail hk), hreset⟩, ?_⟩
        rw [hseq]
        exact ⟨rfl, rfl, rfl⟩
    · exact hclean x hx ⟨op', p', hx'⟩

end Sys2Proof.Machine
end

section
/-! PROOFS. INIT (rules R160 to R173): what a supported one does on the bus, phase by phase, the DEV it leaves, and its frames. -/

namespace Sys2Proof.Machine

/-! ### Validation -/

/-- What rule R6 asks of SUPPORTED and of the tables of INIT. -/
theorem initTables_of_wf {P : Params} (hP : P.wf = true) :
    (∀ p ∈ P.panels, P.regmap.tableOk p.timing = true ∧ P.regmap.tableOk p.layer = true ∧ ¬(p.width = 320 ∧ p.height = 200))
      ∧ P.panel? 480 272 16 ≠ none ∧ P.regmap.tableOk P.font = true := by
  simp only [Params.wf, Bool.and_eq_true, List.all_eq_true] at hP
  obtain ⟨⟨⟨⟨⟨⟨⟨⟨-, hpanels⟩, hsome⟩, hfont⟩, -⟩, -⟩, -⟩, -⟩, -⟩ := hP
  refine ⟨fun p hp => ?_, Option.isSome_iff_ne_none.mp hsome, hfont⟩
  obtain ⟨⟨⟨⟨⟨⟨htiming, hlayer⟩, -⟩, -⟩, hsize⟩, -⟩, -⟩ := hpanels p hp
  exact ⟨htiming, hlayer, by simpa [imp_iff_not_or] using hsize⟩

/-- The only depths are 8 and 16 (rule R24). -/
theorem panel?_of_depth_ne {P : Params} {depth : Byte} (h8 : depth ≠ 8) (h16 : depth ≠ 16) (width height : Half) :
    P.panel? width height depth = none := by
  cases hp : P.panel? width height depth with
  | none => rfl
  | some p =>
    have hdepth := panel?_depth hp
    cases hd : p.depth with
    | d8 => exact absurd (hdepth.symm.trans (congrArg Depth.toByte hd)) h8
    | d16 => exact absurd (hdepth.symm.trans (congrArg Depth.toByte hd)) h16

theorem panel?_320_200 {P : Params} (hP : P.wf = true) (depth : Byte) : P.panel? 320 200 depth = none := by
  obtain ⟨hpanels, -⟩ := initTables_of_wf hP
  refine List.find?_eq_none.mpr fun p hp hfound => ?_
  obtain ⟨-, -, hsize⟩ := hpanels p hp
  simp only [Bool.and_eq_true, beq_iff_eq] at hfound
  obtain ⟨hwh, -⟩ := hfound
  exact hsize hwh

/-- Settles O36: validation ends INIT before its first primitive, and no panel has another depth or the size 320 x 200. -/
theorem unsupportedInitTouchesNothing : Obligations.UnsupportedInitTouchesNothing := by
  intro width height depth s hb
  refine ⟨fun hnone => ?_, fun h8 h16 => panel?_of_depth_ne h8 h16 width height, fun hP => ?_⟩
  · rw [exec_init_unsupported hb hnone]
    simp [State.finish, State.accept, State.after, Seq.returned, Op.forInit]
  · obtain ⟨-, hsome, -⟩ := initTables_of_wf hP
    exact ⟨panel?_320_200 hP depth, hsome⟩

/-! ### Events on the bus -/

/-- `s` after the events `ev`, one tick each: SEQ (but for its step, which counts them) and DEV are as given. -/
def State.performed (s : State) (q : Seq) (d : Dev) (ev : List Event) : State :=
  s.after { q with step := s.seq.step + ev.length } d ev.length (frames ev).length ev

theorem frames_append (l m : List Event) : frames (l ++ m) = frames l ++ frames m := List.filterMap_append

section Performed

variable (s : State) (q : Seq) (d : Dev) (ev : List Event)

theorem performed_performed (q' : Seq) (d' : Dev) (ev' : List Event) :
    (s.performed q d ev).performed q' d' ev' = s.performed q' d' (ev ++ ev') := by
  simp only [State.performed, after_after, after_seq, List.length_append, frames_append, Nat.add_assoc]

end Performed

theorem calm_performed {s : State} (h : s.calm = true) (q : Seq) (d : Dev) (ev : List Event) : (s.performed q d ev).calm = true :=
  calm_after h _ _ _ _ _

theorem events_append (p : Phase) (l m : List Prim) : events p (l ++ m) = events p l ++ events p m := List.map_append

/-- The frames of register writes that went through (rule R61). -/
theorem frames_writePrims (p : Phase) (w : List (Byte × Byte)) : frames (events p (writePrims w)) = wire w := by
  induction w with
  | nil => rfl
  | cons e w ih => exact congrArg ([(0x80, e.1), (0x00, e.2)] ++ ·) ih

theorem length_wire (w : List (Byte × Byte)) : (wire w).length = 2 * w.length := by
  simp [wire, Nat.mul_comm]

theorem length_events_writePrims (p : Phase) (w : List (Byte × Byte)) : (events p (writePrims w)).length = 2 * w.length := by
  simp [events, writePrims, Nat.mul_comm]

theorem wroteAll_eq (s : State) (w : List (Byte × Byte)) :
    s.wroteAll w
      = s.performed { s.seq with cur := (s.wroteAll w).seq.cur } (s.wroteAll w).dev (events s.seq.phase (writePrims w)) := by
  obtain ⟨hP, henv, hport, ⟨c, hseq⟩, hbus⟩ := wroteAll_rest s w
  have hdraws := wroteAll_draws s w
  have hevents : (s.wroteAll w).bus = s.bus ++ events s.seq.phase (writePrims w) := by
    simp [hbus, events, writePrims, List.map_flatMap]
  generalize s.wroteAll w = u at *
  obtain ⟨uP, useq, udev, uport, uenv, udraws, ubus⟩ := u
  simp only at hP henv hport hseq hevents hdraws
  subst hP henv hport hseq hevents hdraws
  simp [State.performed, State.after, frames_writePrims, length_wire, length_events_writePrims]

theorem wrote_eq (s : State) (a b : Byte) :
    s.wrote a b
      = s.performed
          { s.seq with cur := if a = s.P.addr .PWR ∧ b &&& s.P.pwrRst ≠ 0 then .unknown else .known (advByte s.P a) }
          (s.wrote a b).dev (events s.seq.phase (writePrims [(a, b)])) := by
  have h := wroteAll_eq s [(a, b)]
  rwa [show (s.wroteAll [(a, b)]).seq.cur = _ from congrArg Seq.cur (wrote_seq s a b)] at h

theorem didRead_eq_performed (s : State) (a : Byte) :
    s.didRead a
      = s.performed { s.seq with cur := .known (advByte s.P a), rx := s.readByte a, rxPrev := s.seq.rx }
          { s.dev.completeAll (s.env.take 2) with cur := .known (advByte s.P a) }
          (events s.seq.phase [.xfer .cmdw a none, .xfer .datr 0x00 (some (s.readByte a))]) := didRead_eq s a

/-- A delay while DEV is idle. -/
theorem run_delay_idle {s : State} (h : s.calm = true) (hi : s.dev.allIdle = true) (t : Dur) (k : List Micro) :
    run (.delay t :: k) s = run k (s.performed s.seq s.dev (events s.seq.phase [.delay t])) := by
  rw [run_delay_calm h]
  simp [State.gap, State.perform, State.performed, State.after, events, frames, complete_of_allIdle hi]

/-! ### DEV while INIT sets it up -/

/-- DEV `e` is `d` after the writes `w`, idle and awake: the cells hold the last bytes written and the log is as it was. -/
def Dev.SetUp (P : Params) (d e : Dev) (w : List (Byte × Byte)) : Prop :=
  e.awake P = true ∧ e.allIdle = true ∧ (∀ x, e.cell x = lastWrite w x (d.cell x)) ∧ e.oplog = d.oplog

theorem lastWrite_append (v w : List (Byte × Byte)) (x : Byte) (u : Unk Byte) :
    lastWrite (v ++ w) x u = lastWrite w x (lastWrite v x u) := List.foldl_append

theorem setUp_append {P : Params} {d e f : Dev} {v w : List (Byte × Byte)} (h : d.SetUp P e v) (h' : e.SetUp P f w) :
    d.SetUp P f (v ++ w) := by
  obtain ⟨-, -, hcell, hlog⟩ := h
  obtain ⟨hawake, hidle, hcell', hlog'⟩ := h'
  exact ⟨hawake, hidle, fun x => by rw [hcell', hcell, lastWrite_append], hlog'.trans hlog⟩

theorem setUp_wroteAll {s : State} {w : List (Byte × Byte)} (hp : ∀ e ∈ w, plainReg s.P e.1 = true)
    (hw : s.dev.awake s.P = true) (hi : s.dev.allIdle = true) : s.dev.SetUp s.P (s.wroteAll w).dev w := by
  obtain ⟨hawake, hidle, hcell, hlog, -⟩ := wroteAll_dev_plain w hp hw hi
  exact ⟨hawake, hidle, hcell, hlog⟩

/-! ### The reset step -/

/-- DEV `e` is `d` reset by INIT: idle, awake, every cell `?` but perhaps PWR, the log as it was (rules R302, R303, R311). -/
def Dev.ResetBy (P : Params) (d e : Dev) : Prop :=
  e.awake P = true ∧ e.allIdle = true ∧ (∀ x, x ≠ P.addr .PWR → e.cell x = .unknown) ∧ e.oplog = d.oplog

/-- PWR_RST is one bit (rule R6). -/
theorem pwrRst_ne_zero {P : Params} (h : P.wf = true) : P.pwrRst ≠ 0 := by
  intro hzero
  simp [Params.wf, hzero] at h

theorem setRst_and_pwrRst {P : Params} (h : P.wf = true) (v : Byte) : setRst P v &&& P.pwrRst ≠ 0 := by
  have : setRst P v &&& P.pwrRst = P.pwrRst := by
    unfold setRst
    ext i hi
    simp only [BitVec.getElem_and, BitVec.getElem_or]
    cases v[i] <;> simp
  rw [this]
  exact pwrRst_ne_zero h

theorem clrRst_and_pwrRst (P : Params) (v : Byte) : clrRst P v &&& P.pwrRst = 0 := by
  unfold clrRst
  ext i hi
  simp

/-- The line goes low: DEV is reset, whatever completes before (rule R302). -/
theorem run_lineLow {s : State} (h : s.calm = true) (k : List Micro) :
    run (.resetLine false :: k) s
      = run k (s.performed { s.seq with resetn := false, cur := .unknown } s.dev.hardReset
          (events s.seq.phase [.resetLine false])) := by
  rw [run_resetLine_calm h]
  simp [State.gap, State.perform, State.driveReset, State.performed, State.after, events, frames, Dev.hardReset]

/-- The line goes high while DEV is idle. -/
theorem run_lineHigh_idle {s : State} (h : s.calm = true) (hi : s.dev.allIdle = true) (k : List Micro) :
    run (.resetLine true :: k) s
      = run k (s.performed { s.seq with resetn := true } s.dev (events s.seq.phase [.resetLine true])) := by
  rw [run_resetLine_calm h]
  simp [State.gap, State.perform, State.driveReset, State.performed, State.after, events, frames, complete_of_allIdle hi]

/-- `HardReset()`, said whole (rule R163). -/
theorem run_hardReset {s : State} (h : s.calm = true) (k : List Micro) :
    run (hardResetSteps ++ k) s
      = run k (s.performed { s.seq with cur := .unknown, resetn := true } s.dev.hardReset
          (events s.seq.phase [.resetLine false, .delay .tRst, .resetLine true, .delay .tRstPost])) := by
  have hcalm := calm_performed h
  simp only [hardResetSteps, List.cons_append, List.nil_append]
  rw [run_lineLow h, run_delay_idle (hcalm _ _ _) rfl, performed_performed,
    run_lineHigh_idle (hcalm _ _ _) rfl, performed_performed, run_delay_idle (hcalm _ _ _) rfl, performed_performed]
  rfl

theorem resetBy_hardReset (P : Params) (d : Dev) : d.ResetBy P d.hardReset :=
  ⟨rfl, rfl, fun x _ => cell_of_mem_nil rfl x, rfl⟩

/-- A write to PWR with the reset bit (rule R303). -/
theorem wrote_pwr_reset {s : State} (hP : s.P.wf = true) {b : Byte} (hb : b &&& s.P.pwrRst ≠ 0) :
    ∃ e, s.wrote (s.P.addr .PWR) b
        = s.performed { s.seq with cur := .unknown } e (events s.seq.phase (writePrims [(s.P.addr .PWR, b)]))
      ∧ e.allIdle = true ∧ (∀ x, x ≠ s.P.addr .PWR → e.cell x = .unknown) ∧ e.oplog = s.dev.oplog := by
  have heq := wrote_eq s (s.P.addr .PWR) b
  rw [if_pos ⟨rfl, hb⟩] at heq
  refine ⟨_, heq, ?_⟩
  rw [wrote_dev, datw_pwr hP (target_known rfl _), writePwr_reset hb]
  exact ⟨rfl, fun x hx => (cell_of_mem_single rfl x).trans (if_neg hx), rfl⟩

/-- A write to PWR without the reset bit, on an idle device, in software reset or not. -/
theorem wrote_pwr_store {s : State} (hP : s.P.wf = true) (hi : s.dev.allIdle = true) {b : Byte} (hb : b &&& s.P.pwrRst = 0) :
    ∃ e, s.wrote (s.P.addr .PWR) b
        = s.performed { s.seq with cur := .known (advByte s.P (s.P.addr .PWR)) } e
            (events s.seq.phase (writePrims [(s.P.addr .PWR, b)]))
      ∧ s.dev.SetUp s.P e [(s.P.addr .PWR, b)] ∧ e.cur = .known (advByte s.P (s.P.addr .PWR)) := by
  have heq := wrote_eq s (s.P.addr .PWR) b
  rw [if_neg fun h => h.2 hb] at heq
  have hidle : (s.dev.cmdw (s.P.addr .PWR)).allIdle = true := hi
  have hcell := cell_setCell s.dev (s.P.addr .PWR) b
  refine ⟨_, heq, ?_⟩
  rw [wrote_dev, complete_of_allIdle hi, complete_of_allIdle hidle, datw_pwr hP (target_known rfl _), writePwr_store hb]
  exact ⟨⟨awake_of_pwr ((hcell _).trans (if_pos rfl)) hb, hi, hcell, rfl⟩, rfl⟩

/-- `DATW (v | PWR_RST)` to a register, `v` the byte last read (rule R164). -/
theorem run_writeSet_calm {s : State} (h : s.calm = true) (a : Byte) (k : List Micro) :
    run (.frame .cmdw a :: .writeSet :: k) s = run k (s.wrote a (setRst s.P s.seq.rx)) := by
  have hset : (s.gap.sent .cmdw a).micro .writeSet = _ := frame_calm (s := s.gap.sent .cmdw a) (calm_of_env h rfl) _ _
  rw [run_frame_calm h, run, hset]
  rfl

/-- `DATW (v & ~PWR_RST)` to a register (rule R164). -/
theorem run_writeClr_calm {s : State} (h : s.calm = true) (a : Byte) (k : List Micro) :
    run (.frame .cmdw a :: .writeClr :: k) s = run k (s.wrote a (clrRst s.P s.seq.rx)) := by
  have hclr : (s.gap.sent .cmdw a).micro .writeClr = _ := frame_calm (s := s.gap.sent .cmdw a) (calm_of_env h rfl) _ _
  rw [run_frame_calm h, run, hclr]
  rfl

/-- The write of the soft reset that resets DEV, and its delay (rules R164, R303). -/
theorem run_softSet {s : State} (hP : s.P.wf = true) (h : s.calm = true) :
    ∃ d, (∀ k, run (.frame .cmdw (s.P.addr .PWR) :: .writeSet :: .delay .tSoft1 :: k) s
        = run k (s.performed { s.seq with cur := .unknown } d
            (events s.seq.phase (writePrims [(s.P.addr .PWR, setRst s.P s.seq.rx)] ++ [.delay .tSoft1]))))
      ∧ d.allIdle = true ∧ (∀ x, x ≠ s.P.addr .PWR → d.cell x = .unknown) ∧ d.oplog = s.dev.oplog := by
  obtain ⟨d, hset, hidle, hrest⟩ := wrote_pwr_reset hP (setRst_and_pwrRst hP s.seq.rx)
  refine ⟨d, fun k => ?_, hidle, hrest⟩
  rw [run_writeSet_calm h, hset, run_delay_idle (calm_performed h _ _ _) hidle, performed_performed]
  rfl

/-- The write of the soft reset that ends it, and its delay (rules R164, R303). -/
theorem run_softClr {s : State} (hP : s.P.wf = true) (h : s.calm = true) (hi : s.dev.allIdle = true) :
    ∃ d, (∀ k, run (.frame .cmdw (s.P.addr .PWR) :: .writeClr :: .delay .tSoft2 :: k) s
        = run k (s.performed { s.seq with cur := .known (advByte s.P (s.P.addr .PWR)) } d
            (events s.seq.phase (writePrims [(s.P.addr .PWR, clrRst s.P s.seq.rx)] ++ [.delay .tSoft2]))))
      ∧ s.dev.SetUp s.P d [(s.P.addr .PWR, clrRst s.P s.seq.rx)] := by
  obtain ⟨d, hclr, hup, -⟩ := wrote_pwr_store hP hi (clrRst_and_pwrRst s.P s.seq.rx)
  have ⟨_, hidle, _, _⟩ := hup
  refine ⟨d, fun k => ?_, hup⟩
  rw [run_writeClr_calm h, hclr, run_delay_idle (calm_performed h _ _ _) hidle, performed_performed]
  rfl

/-- `SoftReset()`, said whole (rule R164). -/
theorem run_softReset {s : State} (hP : s.P.wf = true) (h : s.calm = true) :
    let a := s.P.addr .PWR
    let v := s.readByte a
    ∃ d, (∀ k, run (softResetSteps s.P ++ k) s
        = run k (s.performed { s.seq with cur := .unknown, rx := v, rxPrev := s.seq.rx } d
            (events s.seq.phase
              [.xfer .cmdw a none, .xfer .datr 0x00 (some v), .xfer .cmdw a none, .xfer .datw (setRst s.P v) none,
                .delay .tSoft1, .xfer .cmdw a none, .xfer .datw (clrRst s.P v) none, .delay .tSoft2])))
      ∧ s.dev.ResetBy s.P d := by
  intro a v
  let u := s.performed { s.seq with cur := .known (advByte s.P a), rx := v, rxPrev := s.seq.rx }
    { s.dev.completeAll (s.env.take 2) with cur := .known (advByte s.P a) }
    (events s.seq.phase [.xfer .cmdw a none, .xfer .datr 0x00 (some v)])
  have hu : u.calm = true := calm_performed h _ _ _
  obtain ⟨d, hset, hidle, hcell, hlog⟩ := run_softSet (s := u) hP hu
  let w := u.performed { u.seq with cur := .unknown } d
    (events s.seq.phase (writePrims [(a, setRst s.P v)] ++ [.delay .tSoft1]))
  obtain ⟨e, hclr, hawake, hidle', hcell', hlog'⟩ := run_softClr (s := w) hP (calm_performed hu _ _ _) hidle
  refine ⟨e, fun k => ?_, hawake, hidle', fun x hx => ?_, hlog'.trans (hlog.trans (completeAll_oplog _ _))⟩
  · calc run (softResetSteps s.P ++ k) s
      _ = run (.frame .cmdw a :: .writeSet :: .delay .tSoft1 :: .frame .cmdw a :: .writeClr :: .delay .tSoft2 :: .forget :: k) u :=
        (run_rdAddr_calm h a _).trans (congrArg _ (didRead_eq_performed s a))
      _ = run (.frame .cmdw a :: .writeClr :: .delay .tSoft2 :: .forget :: k) w := hset _
      _ = run (.forget :: k) _ := hclr _
      _ = _ := by
        simp only [u, w, performed_performed, run_forget]
        rfl
  · exact (hcell' x).trans ((if_neg hx).trans (hcell x hx))

/-- The reset step of INIT, by either path (rule R162). -/
theorem run_resetSteps {s : State} (hP : s.P.wf = true) (h : s.calm = true) :
    ∃ d r r', (∀ k, run (resetSteps s.P ++ k) s
        = run k (s.performed
            { s.seq with cur := .unknown, resetn := s.P.hasResetLine || s.seq.resetn, rx := r, rxPrev := r' } d
            (events s.seq.phase (resetPrims s.P (s.readByte (s.P.addr .PWR))))))
      ∧ s.dev.ResetBy s.P d := by
  unfold resetSteps resetPrims
  cases s.P.hasResetLine with
  | true => exact ⟨_, _, _, run_hardReset h, resetBy_hardReset _ _⟩
  | false =>
    obtain ⟨d, hrun, hreset⟩ := run_softReset hP h
    exact ⟨d, _, _, hrun, hreset⟩

/-- INIT from its acceptance to the end of its reset step; SoftReset reads the byte PWR holds when `Hold` is done (rules R160,
R162). -/
theorem run_initStart {s : State} (hP : s.P.wf = true) (h : s.calm = true) (o : Op) :
    ∃ d r r', (∀ k, run (.hold :: .phase .reset :: .pllDone false :: (resetSteps s.P ++ k)) (s.accept o)
        = run k ((s.accept o).performed
            { (s.accept o).seq with
              phase := .reset, pllDone := false, hold := true, cur := .unknown
              resetn := s.P.hasResetLine || s.seq.resetn, rx := r, rxPrev := r' } d
            (events s.seq.phase [.hold] ++ events .reset (resetPrims s.P ((s.opened o).readByte (s.P.addr .PWR))))))
      ∧ s.dev.ResetBy s.P d := by
  have hopened : s.opened o = (s.accept o).performed { (s.accept o).seq with hold := true }
      (s.dev.completeAll (s.env.take 1)) (events s.seq.phase [.hold]) := opened_eq s o
  let u : State := { s.opened o with seq := { (s.opened o).seq with phase := .reset, pllDone := false } }
  obtain ⟨d, r, r', hrun, hreset⟩ := run_resetSteps (s := u) hP (calm_of_env (s := s.accept o) h rfl)
  refine ⟨d, r, r', fun k => ?_, hreset⟩
  rw [run_hold_calm (s := s.accept o) h, run_phase, run_pllDone]
  refine (hrun k).trans ?_
  have hbyte : u.readByte (u.P.addr .PWR) = (s.opened o).readByte (s.P.addr .PWR) := rfl
  have hu : u = (s.accept o).performed { (s.accept o).seq with phase := .reset, pllDone := false, hold := true }
      (s.dev.completeAll (s.env.take 1)) (events s.seq.phase [.hold]) := by
    simp only [u, hopened]
    rfl
  rw [hbyte, hu, performed_performed]
  rfl

/-! ### The register writes -/

/-- A phase of INIT that is a table of register writes. -/
theorem run_phaseWrites {s : State} (h : s.calm = true) (hw : s.dev.awake s.P = true) (hi : s.dev.allIdle = true) (p : Phase)
    {w : List (Byte × Byte)} (hp : ∀ e ∈ w, plainReg s.P e.1 = true) :
    ∃ d c, (∀ k, run (.phase p :: (wrTable w ++ k)) s
        = run k (s.performed { s.seq with phase := p, cur := c } d (events p (writePrims w))))
      ∧ s.dev.SetUp s.P d w := by
  let u : State := { s with seq := { s.seq with phase := p } }
  have hwrote := wroteAll_eq u w
  refine ⟨(u.wroteAll w).dev, (u.wroteAll w).seq.cur, fun k => ?_, setUp_wroteAll (s := u) hp hw hi⟩
  exact (run_wrTable_calm (s := u) h w k).trans (congrArg _ hwrote)

/-- A register write and the delay after it, while DEV is idle and awake. -/
theorem run_writeDelay {s : State} (h : s.calm = true) (hw : s.dev.awake s.P = true) (hi : s.dev.allIdle = true)
    {a : Byte × Byte} (ha : plainReg s.P a.1 = true) (t : Dur) :
    ∃ d c, (∀ k, run (wrTable [a] ++ .delay t :: k) s
        = run k (s.performed { s.seq with cur := c } d (events s.seq.phase (writePrims [a] ++ [.delay t]))))
      ∧ s.dev.SetUp s.P d [a] := by
  have hup : s.dev.SetUp s.P (s.wroteAll [a]).dev [a] := setUp_wroteAll (by simpa using ha) hw hi
  have ⟨_, hidle, _, _⟩ := hup
  refine ⟨(s.wroteAll [a]).dev, (s.wroteAll [a]).seq.cur, fun k => ?_, hup⟩
  rw [run_wrTable_calm h, run_delay_idle (calm_wroteAll h _) hidle, wroteAll_eq, performed_performed]
  rfl

/-- The PLL phase: two writes, each with its delay (rule R165). -/
theorem run_pllPhase {s : State} (h : s.calm = true) (hw : s.dev.awake s.P = true) (hi : s.dev.allIdle = true)
    {a b : Byte × Byte} (ha : plainReg s.P a.1 = true) (hb : plainReg s.P b.1 = true) :
    ∃ d c, (∀ k, run (.phase .pll :: (wrTable [a] ++ .delay .tPll :: (wrTable [b] ++ .delay .tPll :: k))) s
        = run k (s.performed { s.seq with phase := .pll, cur := c } d
            (events .pll (writePrims [a] ++ [.delay .tPll] ++ writePrims [b] ++ [.delay .tPll]))))
      ∧ s.dev.SetUp s.P d [a, b] := by
  let u : State := { s with seq := { s.seq with phase := .pll } }
  obtain ⟨d, c, hrun, hup⟩ := run_writeDelay (s := u) h hw hi ha .tPll
  have ⟨hawake, hidle, _, _⟩ := hup
  let v := u.performed { u.seq with cur := c } d (events .pll (writePrims [a] ++ [.delay .tPll]))
  obtain ⟨d', c', hrun', hup'⟩ := run_writeDelay (s := v) (calm_performed h _ _ _) hawake hidle hb .tPll
  refine ⟨d', c', fun k => ?_, setUp_append hup hup'⟩
  rw [run_phase, hrun]
  refine (hrun' k).trans ?_
  simp only [v, performed_performed]
  rfl

theorem plainReg_of_tableOk {P : Params} {w : List (Byte × Byte)} (h : P.regmap.tableOk w = true) :
    ∀ e ∈ w, plainReg P e.1 = true := by
  intro e he
  have hrow := List.all_eq_true.mp h e he
  simp only [List.all_cons, List.all_nil, Bool.and_true, Bool.and_eq_true, bne_iff_ne] at hrow
  obtain ⟨hdcr, hbte, hpwr, -⟩ := hrow
  exact plainReg_iff.mpr ⟨hdcr.symm, hbte.symm, hpwr.symm⟩

/-- The tables of INIT write plain registers alone (rules R6, R33). -/
theorem plainReg_initTables {P : Params} (hP : P.wf = true) {w h : Half} {d : Byte} {p : Panel} (hp : P.panel? w h d = some p) :
    (∀ e ∈ p.timing, plainReg P e.1 = true)
      ∧ ∀ e ∈ p.layer ++ atAddr P (windowWrites w h) ++ P.font, plainReg P e.1 = true := by
  have hmem : p ∈ P.panels := List.mem_of_find?_eq_some hp
  have hwindow := plainReg_atAddr hP (w := windowWrites w h) (by simp [windowWrites, pairWrites])
  obtain ⟨hpanels, -, hfont⟩ := initTables_of_wf hP
  obtain ⟨htiming, hlayer, -⟩ := hpanels p hmem
  refine ⟨plainReg_of_tableOk htiming, fun e he => ?_⟩
  rcases List.mem_append.mp he with he | he
  · rcases List.mem_append.mp he with he | he
    · exact plainReg_of_tableOk hlayer e he
    · exact hwindow e he
  · exact plainReg_of_tableOk hfont e he

/-- The events of INIT between its reset step and its power-on. -/
def setUpEvents (a b : Byte × Byte) (t w : List (Byte × Byte)) : List Event :=
  events .pll (writePrims [a] ++ [.delay .tPll] ++ writePrims [b] ++ [.delay .tPll]) ++ events .timing (writePrims t)
    ++ events .window (writePrims w)

/-- INIT from its reset step to its power-on: the phases PLL, TIMING and WINDOW (rules R165 to R168). -/
theorem run_setUpPhases {s : State} (h : s.calm = true) (hw : s.dev.awake s.P = true) (hi : s.dev.allIdle = true)
    {a b : Byte × Byte} {t w : List (Byte × Byte)} (ha : plainReg s.P a.1 = true) (hb : plainReg s.P b.1 = true)
    (ht : ∀ e ∈ t, plainReg s.P e.1 = true) (hwin : ∀ e ∈ w, plainReg s.P e.1 = true) :
    ∃ d c, (∀ k, run (.phase .pll :: (wrTable [a] ++ .delay .tPll :: (wrTable [b] ++ .delay .tPll
          :: .pllDone true :: .phase .timing :: (wrTable t ++ .phase .window :: (wrTable w ++ k))))) s
        = run k (s.performed { s.seq with phase := .window, cur := c, pllDone := true } d (setUpEvents a b t w)))
      ∧ s.dev.SetUp s.P d ([a, b] ++ t ++ w) := by
  obtain ⟨d1, c1, hrun1, hup1⟩ := run_pllPhase h hw hi ha hb
  have ⟨hawake1, hidle1, _, _⟩ := hup1
  let s1 := s.performed { s.seq with phase := .pll, cur := c1, pllDone := true } d1
    (events .pll (writePrims [a] ++ [.delay .tPll] ++ writePrims [b] ++ [.delay .tPll]))
  have hcalm1 : s1.calm = true := calm_performed h _ _ _
  obtain ⟨d2, c2, hrun2, hup2⟩ := run_phaseWrites hcalm1 hawake1 hidle1 .timing ht
  have ⟨hawake2, hidle2, _, _⟩ := hup2
  let s2 := s1.performed { s1.seq with phase := .timing, cur := c2 } d2 (events .timing (writePrims t))
  obtain ⟨d3, c3, hrun3, hup3⟩ := run_phaseWrites (s := s2) (calm_performed hcalm1 _ _ _) hawake2 hidle2 .window hwin
  refine ⟨d3, c3, fun k => ?_, setUp_append (setUp_append hup1 hup2) hup3⟩
  rw [hrun1, run_pllDone]
  refine (hrun2 _).trans ((hrun3 _).trans ?_)
  simp only [s2, s1, performed_performed]
  rfl

/-- The power-on phase and the end of INIT (rules R169, R170). -/
theorem run_powerOnPhase {s : State} (hP : s.P.wf = true) (h : s.calm = true) (hi : s.dev.allIdle = true) (g : Depth) :
    ∃ d, run (.phase .powerOn :: (wrTable [(s.P.addr .PWR, 0x80)] ++ [.release, .setCfg g, .finish .none])) s
        = (s.performed
            { s.seq with
              phase := .powerOn
              cur := .known (advByte s.P (s.P.addr .PWR))
              hold := false
              cfg := some ⟨s.seq.op.width, s.seq.op.height, g, s.P.chipSelect, s.P.hasResetLine, s.P.hasIntLine⟩ } d
            (events .powerOn (writePrims [(s.P.addr .PWR, 0x80)] ++ [.release]))).finish .ok .none
      ∧ s.dev.SetUp s.P d [(s.P.addr .PWR, 0x80)] ∧ d.cur = .known (advByte s.P (s.P.addr .PWR)) := by
  let u : State := { s with seq := { s.seq with phase := .powerOn } }
  have hu : u.calm = true := h
  obtain ⟨d, hwrote, hup, hcur⟩ := wrote_pwr_store (s := u) hP hi (pwrOn_and_pwrRst hP)
  have ⟨_, hidle, _, _⟩ := hup
  refine ⟨d, ?_, hup, hcur⟩
  have hrelease : ∀ v : State, v.dev.allIdle = true →
      v.gap.release = v.performed { v.seq with hold := false } v.dev (events v.seq.phase [.release]) := fun v hv => by
    simp [State.gap, State.release, State.perform, State.performed, State.after, events, frames, complete_of_allIdle hv]
  have hwrote' : u.wroteAll [(s.P.addr .PWR, 0x80)] = u.performed _ d _ := hwrote
  rw [run_phase, run_wrTable_calm hu, run_release_calm (calm_wroteAll hu _), run_setCfg, run_finish, hwrote', hrelease _ hidle,
    performed_performed]
  rfl

/-! ### The whole sequence -/

/-- DEV `e` is `d` after INIT's reset step and the writes `w`: the cells hold the last bytes written and nothing else, the flags
are 0, the log is as it was (rule R311). -/
def Dev.BroughtUp (d e : Dev) (w : List (Byte × Byte)) : Prop :=
  (∀ x, e.cell x = lastWrite w x .unknown) ∧ e.flags = (.known false, .known false, .known false) ∧ e.oplog = d.oplog

theorem lastWrite_concat (w : List (Byte × Byte)) (e : Byte × Byte) (x : Byte) (u : Unk Byte) :
    lastWrite (w ++ [e]) x u = if x = e.1 then .known e.2 else lastWrite w x u := by
  simp [lastWrite]

/-- What PWR held before does not matter to writes that end with one to PWR. -/
theorem broughtUp_of_reset {P : Params} {d e f : Dev} {w : List (Byte × Byte)} {b : Byte} (hreset : d.ResetBy P e)
    (hup : e.SetUp P f (w ++ [(P.addr .PWR, b)])) : d.BroughtUp f (w ++ [(P.addr .PWR, b)]) := by
  obtain ⟨-, -, hunknown, hlog⟩ := hreset
  obtain ⟨-, hidle, hcell, hlog'⟩ := hup
  obtain ⟨hdraw, hcirc, hbte⟩ := allIdle_iff.mp hidle
  refine ⟨fun x => ?_, by rw [Dev.flags, hdraw, hcirc, hbte], hlog'.trans hlog⟩
  rw [hcell, lastWrite_concat, lastWrite_concat]
  split
  · rfl
  · rw [hunknown x ‹_›]

theorem finish_performed (s : State) (o : Op) (q : Seq) (d : Dev) (ev : List Event) :
    ((s.accept o).performed q d ev).finish .ok .none
      = s.after { q with busy := false, phase := .idle, step := ev.length, result := .ok, ucode := [] } d ev.length
          (frames ev).length ev := by
  simp [State.performed, State.finish, State.accept, State.after, Seq.returned]

/-- The program of INIT by its parts: start, set-up phases, power-on. -/
theorem initProgram_parts (P : Params) (o : Op) (p : Panel) :
    initProgram P o p
      = .hold :: .phase .reset :: .pllDone false :: (resetSteps P
        ++ .phase .pll :: (wrTable [(P.addr .PLL1, p.pll1)] ++ .delay .tPll :: (wrTable [(P.addr .PLL2, p.pll2)] ++ .delay .tPll
          :: .pllDone true :: .phase .timing :: (wrTable p.timing
            ++ .phase .window :: (wrTable (p.layer ++ atAddr P (windowWrites o.width o.height) ++ P.font)
              ++ .phase .powerOn :: (wrTable [(P.addr .PWR, 0x80)] ++ [.release, .setCfg p.depth, .finish .none])))))) := by
  rw [initProgram_eq]
  simp only [List.append_assoc, List.cons_append, List.nil_append]

theorem initEvents_parts (P : Params) (p : Panel) (width height : Half) (ph : Phase) (v : Byte) :
    initEvents P p width height ph v
      = events ph [.hold] ++ events .reset (resetPrims P v)
        ++ setUpEvents (P.addr .PLL1, p.pll1) (P.addr .PLL2, p.pll2) p.timing
          (p.layer ++ atAddr P (windowWrites width height) ++ P.font)
        ++ events .powerOn (writePrims [(P.addr .PWR, 0x80)] ++ [.release]) := by
  simp only [initEvents, setUpEvents, List.append_assoc]

/-- The program of INIT in a calm world, said whole. -/
theorem run_initProgram {s : State} (hP : s.P.wf = true) (h : s.calm = true) (o : Op) {p : Panel}
    (htiming : ∀ e ∈ p.timing, plainReg s.P e.1 = true)
    (hwindow : ∀ e ∈ p.layer ++ atAddr s.P (windowWrites o.width o.height) ++ s.P.font, plainReg s.P e.1 = true) :
    let ev := initEvents s.P p o.width o.height s.seq.phase ((s.opened o).readByte (s.P.addr .PWR))
    ∃ d r r', run (initProgram s.P o p) (s.accept o)
        = s.after
            { s.seq.answered o ev.length (.known (advByte s.P (s.P.addr .PWR))) with
              cfg := some ⟨o.width, o.height, p.depth, s.P.chipSelect, s.P.hasResetLine, s.P.hasIntLine⟩
              pllDone := true
              resetn := s.P.hasResetLine || s.seq.resetn
              rx := r
              rxPrev := r' } d ev.length (frames ev).length ev
      ∧ s.dev.BroughtUp d (initWrites s.P p o.width o.height) ∧ d.cur = .known (advByte s.P (s.P.addr .PWR)) := by
  intro ev
  have hacc : (s.accept o).calm = true := h
  have hpll1 : plainReg s.P (s.P.addr .PLL1) = true := plainReg_addr hP _ (by decide) (by decide) (by decide)
  have hpll2 : plainReg s.P (s.P.addr .PLL2) = true := plainReg_addr hP _ (by decide) (by decide) (by decide)
  obtain ⟨d1, r, r', hrun1, hreset⟩ := run_initStart hP h o
  have ⟨hawake1, hidle1, _, _⟩ := hreset
  let s1 := (s.accept o).performed
    { (s.accept o).seq with
      phase := .reset, pllDone := false, hold := true, cur := .unknown
      resetn := s.P.hasResetLine || s.seq.resetn, rx := r, rxPrev := r' } d1
    (events s.seq.phase [.hold] ++ events .reset (resetPrims s.P ((s.opened o).readByte (s.P.addr .PWR))))
  have hcalm1 : s1.calm = true := calm_performed hacc _ _ _
  obtain ⟨d2, c, hrun2, hup2⟩ := run_setUpPhases (s := s1) (a := (s.P.addr .PLL1, p.pll1)) (b := (s.P.addr .PLL2, p.pll2))
    hcalm1 hawake1 hidle1 hpll1 hpll2 htiming hwindow
  have ⟨_, hidle2, _, _⟩ := hup2
  let s2 := s1.performed { s1.seq with phase := .window, cur := c, pllDone := true } d2
    (setUpEvents (s.P.addr .PLL1, p.pll1) (s.P.addr .PLL2, p.pll2) p.timing
      (p.layer ++ atAddr s.P (windowWrites o.width o.height) ++ s.P.font))
  obtain ⟨d3, hrun3, hup3, hcur⟩ := run_powerOnPhase (s := s2) hP (calm_performed hcalm1 _ _ _) hidle2 p.depth
  refine ⟨d3, r, r', ?_, ?_, hcur⟩
  · rw [initProgram_parts]
    refine (hrun1 _).trans ((hrun2 _).trans (hrun3.trans ?_))
    have hparts : ∀ q d e, s2.performed q d e = (s.accept o).performed q d _ := fun q d e => by
      simp only [s2, s1, performed_performed]
      rfl
    rw [hparts, finish_performed]
    simp only [ev, initEvents_parts]
    rfl
  · have hwrites := broughtUp_of_reset hreset (setUp_append hup2 hup3)
    simpa only [initWrites, List.append_assoc] using hwrites

/-- The byte the soft reset reads is what PWR holds (rules R132, R164). -/
theorem readByte_pwr {s : State} (hP : s.P.wf = true) {b : Byte} (hb : s.dev.cell (s.P.addr .PWR) = .known b) :
    s.readByte (s.P.addr .PWR) = b := by
  have hcell : ((s.dev.completeAll (s.env.take 2)).cmdw (s.P.addr .PWR)).cell (s.P.addr .PWR) = .known b :=
    (completeAll_cell _ _ _).trans hb
  have hdcr : s.P.addr .PWR ≠ s.P.addr .DCR := addr_ne hP (by decide) rfl
  have hbte : s.P.addr .PWR ≠ s.P.addr .BTE_CTRL0 := addr_ne hP (by decide) rfl
  exact datrByte_known rfl hdcr hbte (.inr rfl) hcell

/-- Settles O37: a supported INIT runs its program, and its events and writes are those of its phases. -/
theorem initBringsDeviceUp : Obligations.InitBringsDeviceUp := by
  intro width height depth p s hP h hb hp
  obtain ⟨htiming, hwindow⟩ := plainReg_initTables hP hp
  let o := s.seq.op.forInit width height depth
  obtain ⟨d, r, r', hrun, ⟨hcell, hflags, hlog⟩, hcur⟩ := run_initProgram hP h o htiming hwindow
  refine ⟨d, _, (s.opened o).readByte (s.P.addr .PWR), fun b hpwr => readByte_pwr (s := s.opened o) hP hpwr,
    (exec_init_supported hb hp).trans (congrArg Host.Outcome.next hrun), rfl, panel?_depth hp, hcell, hflags, hlog, hcur⟩

/-! ### The frames of INIT -/

/-- The frames of INIT's reset step (rules R163, R164). -/
def resetFrames (P : Params) (v : Byte) : List (Byte × Byte) :=
  if P.hasResetLine then []
  else
    [(0x80, P.addr .PWR), (0x40, 0x00), (0x80, P.addr .PWR), (0x00, setRst P v), (0x80, P.addr .PWR), (0x00, clrRst P v)]

theorem frames_resetPrims (P : Params) (p : Phase) (v : Byte) : frames (events p (resetPrims P v)) = resetFrames P v := by
  unfold resetPrims resetFrames
  cases P.hasResetLine <;> rfl

theorem wire_append (v w : List (Byte × Byte)) : wire (v ++ w) = wire v ++ wire w := List.flatMap_append

/-- The frames of INIT: those of its reset step, then two for each register write (rules R61, R173). -/
theorem frames_initEvents (P : Params) (p : Panel) (width height : Half) (ph : Phase) (v : Byte) :
    frames (initEvents P p width height ph v) = resetFrames P v ++ wire (initWrites P p width height) := by
  have hhold : frames (events ph [.hold]) = [] := rfl
  have hdelay : frames (events .pll [.delay .tPll]) = [] := rfl
  have hrelease : frames (events .powerOn [.release]) = [] := rfl
  have hpll : wire [(P.addr .PLL1, p.pll1), (P.addr .PLL2, p.pll2)]
      = wire [(P.addr .PLL1, p.pll1)] ++ wire [(P.addr .PLL2, p.pll2)] := rfl
  simp only [initEvents, initWrites, events_append, frames_append, frames_writePrims, frames_resetPrims, wire_append, hhold, hdelay,
    hrelease, hpll, List.append_assoc, List.nil_append, List.append_nil]

theorem length_initWrites (P : Params) (p : Panel) (width height : Half) :
    (initWrites P p width height).length = 11 + p.timing.length + p.layer.length + P.font.length := by
  simp [initWrites, atAddr, windowWrites, pairWrites]
  omega

theorem length_resetFrames (P : Params) (v : Byte) : (resetFrames P v).length = if P.hasResetLine then 0 else 6 := by
  unfold resetFrames
  split <;> rfl

theorem drop_length_sub_two {α : Type} (l : List α) (a b : α) :
    (l ++ [a, b]).drop ((l ++ [a, b]).length - 2) = [a, b] := by
  rw [List.length_append, List.length_cons, List.length_singleton, Nat.add_sub_cancel, List.drop_left]

/-- Settles O38: two frames for each of INIT's writes, after those of its reset step. -/
theorem initFrameCount : Obligations.InitFrameCount := by
  intro width height depth p s h hb hP hp
  obtain ⟨d, q, v, -, hexec, hq, -⟩ := initBringsDeviceUp width height depth p s hP h hb hp
  have hframes := frames_initEvents s.P p width height s.seq.phase v
  refine ⟨_, initEvents s.P p width height s.seq.phase v, hexec, ?_, ?_, rfl, ?_, ?_, ?_⟩
  · rw [after_seq, hq]; rfl
  · rw [after_seq, hq]; rfl
  · rw [hframes, List.length_append, length_resetFrames, length_wire, length_initWrites]
    omega
  · rw [hframes, resetFrames]
    cases s.P.hasResetLine <;> rfl
  · have hlast : wire (initWrites s.P p width height)
        = wire _ ++ [(0x80, s.P.addr .PWR), (0x00, 0x80)] := wire_append _ [(s.P.addr .PWR, 0x80)]
    rw [hframes, hlast, ← List.append_assoc]
    exact drop_length_sub_two _ _ _

end Sys2Proof.Machine
end

section
/-! PROOFS. Completion steps while SEQ waits (rules R206, R232), and the admission of the engine commands (rules R200, R221). -/

namespace Sys2Proof.Machine

/-! ### Waiting -/

/-- A gap without a reset of SEQ in which it waits lets DEV complete and changes nothing else. -/
theorem wait_calm {s : State} (h : s.now.seqReset = false) : s.wait = s.after s.seq (s.dev.complete s.now) 1 0 [] := by
  rw [State.wait, if_neg (by simp [h]), gap_eq_after, completeAll_take_one]
  rfl

/-- Settles O9: the step is that gap, and each completion step in it clears its own flag. -/
theorem enginesCompleteWhileSeqWaits : Obligations.EnginesCompleteWhileSeqWaits := fun s hu hw hr =>
  ⟨s.dev.complete s.now, (step_waits hu hw).trans (congrArg Host.Outcome.next (wait_calm hr)), rfl, rfl, rfl, rfl⟩

/-! ### Admission -/

theorem exec_draw_notAdmitted {s : State} {i : Instr} {o : Op} {prog : Depth → List Micro} (hb : s.seq.busy = false)
    (hg : s.seq.cfg = none) (hi : exec i s = s.draw o prog) : exec i s = .refused .notAdmitted := by
  simp [hi, State.draw, hb, hg]

theorem exec_draw_runs {s : State} {g : DeviceConfig} {i : Instr} {o : Op} {prog : Depth → List Micro} (hb : s.seq.busy = false)
    (hg : s.seq.cfg = some g) (hi : exec i s = s.draw o prog) :
    exec i s = .next (run (prog g.colorDepth) (s.accept o)) := by
  simp [hi, State.draw, hb, hg]

/-- What rule R221 does not admit: a layer that is neither 1 nor 2, or a vertical coordinate above 0x7FFF. -/
theorem bteOperandsOk_eq_false {sl dl : BitVec 2} {sy dy : Half}
    (h : (sl ≠ 1 ∧ sl ≠ 2) ∨ (dl ≠ 1 ∧ dl ≠ 2) ∨ 0x7FFF < sy.toNat ∨ 0x7FFF < dy.toNat) :
    bteOperandsOk sl dl sy dy = false := by
  have hlayer : ∀ {l : BitVec 2}, l ≠ 1 ∧ l ≠ 2 → layerOk l = false := fun h => by simpa [layerOk] using h
  have hcoord : ∀ {y : Half}, 0x7FFF < y.toNat → bteYOk y = false := fun {y} hy =>
    decide_eq_false (BitVec.not_le.mpr (BitVec.lt_def.mpr hy))
  rcases h with h | h | h | h
  · simp [bteOperandsOk, hlayer h]
  · simp [bteOperandsOk, hlayer h]
  · simp [bteOperandsOk, hcoord h]
  · simp [bteOperandsOk, hcoord h]

/-- Settles O40: each command tests SEQ.cfg first, and BTECOPY then its operands. -/
theorem engineCommandsNeedAdmission : Obligations.EngineCommandsNeedAdmission := by
  intro s x0 y0 x1 y1 x2 y2 c w h r sl dl tr hb
  refine ⟨fun hg i hi => ?_, fun hg hops => ?_⟩
  · simp only [List.mem_cons, List.not_mem_nil, or_false] at hi
    rcases hi with rfl | rfl | rfl | rfl | rfl | rfl | rfl | rfl
    iterate 3 exact exec_draw_notAdmitted (prog := fun d => draw2 s.P d _ _) hb hg rfl
    iterate 2 exact exec_draw_notAdmitted (prog := fun d => draw3 s.P d _ _) hb hg rfl
    iterate 2 exact exec_draw_notAdmitted (prog := fun d => drawC s.P d _ _) hb hg rfl
    exact exec_btecopy_notAdmitted hb hg
  · obtain ⟨g, hg⟩ := Option.ne_none_iff_exists'.mp hg
    exact exec_btecopy_badOperands hb hg (bteOperandsOk_eq_false hops)

end Sys2Proof.Machine
end

section
/-! PROOFS. A drawing command whose engine completes before the poll (rules R197 to R199, R201 to R205): from acceptance to its end,
said whole, the DEV it leaves, and the seven commands. -/

namespace Sys2Proof.Machine

/-! ### The flag of an engine over completion steps -/

/-- The tick holds the completion step of an engine (rules R206, R232). -/
def Tick.completes (t : Tick) : Engine → Bool
  | .draw => t.drawDone
  | .circ => t.circDone
  | .bte => t.bteDone
  | .unknown => false

theorem complete_flagOf (d : Dev) (t : Tick) (e : Engine) :
    (d.complete t).flagOf e = if t.completes e then .known false else d.flagOf e := by
  cases e <;> rfl

theorem completeAll_flagOf (d : Dev) (l : List Tick) (e : Engine) :
    (d.completeAll l).flagOf e = if l.any (·.completes e) then .known false else d.flagOf e := by
  induction l generalizing d with
  | nil => rfl
  | cons t l ih =>
    refine (ih (d.complete t)).trans ?_
    rw [complete_flagOf, List.any_cons]
    cases t.completes e <;> simp

theorem flags_eq_clear_iff {d : Dev} :
    d.flags = (.known false, .known false, .known false) ↔ ∀ e, d.flagOf e = .known false := by
  constructor
  · intro h e
    simp only [Dev.flags, Prod.mk.injEq] at h
    obtain ⟨hdraw, hcirc, hbte⟩ := h
    cases e
    exacts [hdraw, hcirc, hbte, rfl]
  · intro h
    exact congrArg₂ Prod.mk (h .draw) (congrArg₂ Prod.mk (h .circ) (h .bte))

/-- The only engine that runs completes. -/
theorem flagOf_completeAll_clear {d : Dev} {g : Engine} {l : List Tick} (hrest : ∀ e, e ≠ g → d.flagOf e = .known false)
    (hdone : l.any (·.completes g) = true) (e : Engine) : (d.completeAll l).flagOf e = .known false := by
  rw [completeAll_flagOf]
  by_cases he : e = g
  · rw [he, if_pos hdone]
  · rw [hrest e he, ite_self]

/-! ### A command whose poll finds the flag clear, said whole -/

/-- The staging and the trigger writes of an engine command, said whole but for the device. -/
theorem triggered_eq (s : State) (w w' : List (Byte × Byte)) :
    s.triggered w w'
      = s.performed { s.seq with cur := (s.triggered w w').seq.cur, phase := .triggered, pollcnt := 0 } (s.triggered w w').dev
          (events s.seq.phase (writePrims w) ++ events .paramsStaged (writePrims w')) := by
  have hstaged : s.staged w = s.performed { s.seq with cur := (s.wroteAll w).seq.cur, phase := .paramsStaged } (s.wroteAll w).dev
      (events s.seq.phase (writePrims w)) := by
    conv_lhs => rw [State.staged, wroteAll_eq]
    rfl
  have htriggered : s.triggered w w' = (s.staged w).performed
      { (s.staged w).seq with cur := (s.triggered w w').seq.cur, phase := .triggered, pollcnt := 0 } (s.triggered w w').dev
      (events .paramsStaged (writePrims w')) := by
    conv_lhs => rw [State.triggered, wroteAll_eq]
    rfl
  rw [htriggered]
  conv_lhs => rw [hstaged, performed_performed]
  rfl

/-- The same from acceptance on, but for the shadow and the device. -/
theorem triggered_opened_eq (s : State) (o : Op) (w w' : List (Byte × Byte)) :
    let n := 2 * w.length + 2 * w'.length
    ∃ c d, (s.opened o).triggered w w'
      = s.after
          { s.seq with op := o, busy := true, step := n + 1, pollcnt := 0, hold := true, cur := c, phase := .triggered } d (n + 1) n
          (events s.seq.phase ([.hold] ++ writePrims w) ++ events .paramsStaged (writePrims w')) := by
  intro n
  refine ⟨((s.opened o).triggered w w').seq.cur, ((s.opened o).triggered w w').dev, (triggered_eq (s.opened o) w w').trans ?_⟩
  rw [opened_eq, State.performed, after_after]
  simp only [after_seq, List.length_append, frames_append, frames_writePrims, length_wire, length_events_writePrims,
    Nat.zero_add, Nat.add_comm 1, ← List.append_assoc, ← events_append, n]

/-- An engine command in a calm world whose poll finds its flag clear: it ends OK (rules R197 to R203, R220, R227). -/
theorem exec_engine_clear {s : State} {i : Instr} {o : Op} {w w' : List (Byte × Byte)} {k : PollKind} (h : s.calm = true)
    (hk : k ∈ enginePolls s.P) (hexec : exec i s = .next (run (engineProgram w w' k) (s.accept o))) :
    let u := (s.opened o).triggered w w'
    let n := 2 * w.length + 2 * w'.length
    let m := (pollFrames k).length
    u.dev.awake s.P = true → k.flag (u.dev.completeAll ((s.env.drop (n + 1)).take m)) = .known false →
    u.pollByte k &&& k.mask = 0
      ∧ exec i s
        = .next (s.after
            { s.seq.answered o (n + 1 + (m + 1)) (k.curAfter s.P u.seq.cur) with rx := u.pollByte k, rxPrev := s.seq.rx }
            { u.dev.completeAll ((s.env.drop (n + 1)).take (m + 1)) with cur := k.curAfter s.P u.dev.cur }
            (n + 1 + (m + 1)) (n + m) (commandEvents s.seq.phase w w' (k.prims (u.pollByte k)))) := by
  have hcalm : ((s.opened o).triggered w w').calm = true := calm_triggered (calm_of_env (s := s.accept o) h rfl) w w'
  obtain ⟨c, d, hu⟩ := triggered_opened_eq s o w w'
  rw [hexec, run_engineProgram_calm h]
  generalize (s.opened o).triggered w w' = u at *
  subst hu
  intro u n m hawake hflag
  refine ⟨pollByte_and_mask (s := u) hk hawake hflag, ?_⟩
  rw [run_pollingRest_clear hcalm hk hawake hflag, after_after, ← List.append_assoc]
  rfl

/-! ### The DEV it leaves -/

/-- DEV `e` is `d` once an engine command has triggered: the writes `w` staged, engine `g` alone perhaps running, its operation
logged with the registers it latched (rules R45, R204, R205, R231). -/
def Dev.Started (P : Params) (d e : Dev) (g : Engine) (b : Byte) (w : List (Byte × Byte)) : Prop :=
  e.awake P = true ∧ (∀ x, e.cell x = lastWrite w x (d.cell x)) ∧ (∀ f, f ≠ g → e.flagOf f = .known false)
    ∧ e.oplog = d.oplog ++ [⟨g, b, .known (e.snapshot P g.latched)⟩] ∧ e.rstIfUnk = d.rstIfUnk

/-- DEV `e` is `d` once that operation has completed. -/
def Dev.Finished (P : Params) (d e : Dev) (g : Engine) (b : Byte) (w : List (Byte × Byte)) : Prop :=
  (∀ x, e.cell x = lastWrite w x (d.cell x)) ∧ e.flags = (.known false, .known false, .known false)
    ∧ e.oplog = d.oplog ++ [⟨g, b, .known (e.snapshot P g.latched)⟩] ∧ e.rstIfUnk = d.rstIfUnk

theorem finished_completeAll {P : Params} {d e : Dev} {g : Engine} {b : Byte} {w : List (Byte × Byte)} (h : d.Started P e g b w)
    {l : List Tick} (hdone : l.any (·.completes g) = true) (c : Unk Byte) :
    d.Finished P { e.completeAll l with cur := c } g b w := by
  obtain ⟨-, hcell, hrest, hlog, hrst⟩ := h
  have hsnap : ({ e.completeAll l with cur := c } : Dev).snapshot P g.latched = e.snapshot P g.latched :=
    snapshot_congr (completeAll_mem e l) P _
  refine ⟨fun x => (completeAll_cell e l x).trans (hcell x), flags_eq_clear_iff.mpr (flagOf_completeAll_clear hrest hdone), ?_,
    (completeAll_rstIfUnk e l).trans hrst⟩
  rw [hsnap, ← hlog]
  exact completeAll_oplog e l

theorem any_take_mono {l : List Tick} {f : Tick → Bool} {m n : Nat} (hmn : m ≤ n) (h : (l.take m).any f = true) :
    (l.take n).any f = true := by
  obtain ⟨t, ht, hf⟩ := List.any_eq_true.mp h
  exact List.any_eq_true.mpr ⟨t, List.take_subset_take_left l hmn ht, hf⟩

/-- An engine command whose engine completes before the poll reads its flag ends OK, its operation done. -/
theorem exec_engine_completes {s : State} {i : Instr} {o : Op} {w w' v : List (Byte × Byte)} {k : PollKind} {g : Engine} {b : Byte}
    (h : s.calm = true) (hk : k ∈ enginePolls s.P) (hexec : exec i s = .next (run (engineProgram w w' k) (s.accept o)))
    (hflag : ∀ d, k.flag d = d.flagOf g) :
    let u := (s.opened o).triggered w w'
    let n := 2 * w.length + 2 * w'.length
    let m := (pollFrames k).length
    s.dev.Started s.P u.dev g b v → ((s.env.drop (n + 1)).take m).any (·.completes g) = true →
    ∃ d r, r &&& k.mask = 0
      ∧ exec i s
        = .next (s.after { s.seq.answered o (n + 1 + (m + 1)) (k.curAfter s.P u.seq.cur) with rx := r, rxPrev := s.seq.rx } d
            (n + 1 + (m + 1)) (n + m) (commandEvents s.seq.phase w w' (k.prims r)))
      ∧ s.dev.Finished s.P d g b v ∧ d.cur = k.curAfter s.P u.dev.cur := by
  intro u n m hstart hdone
  have ⟨hawake, _, hrest, _⟩ := hstart
  have hclear : k.flag (u.dev.completeAll ((s.env.drop (n + 1)).take m)) = .known false :=
    (hflag _).trans (flagOf_completeAll_clear hrest hdone g)
  obtain ⟨hbyte, hexec⟩ := exec_engine_clear h hk hexec hawake hclear
  exact ⟨_, _, hbyte, hexec, finished_completeAll hstart (any_take_mono (Nat.le_succ m) hdone) _, rfl⟩

/-! ### The seven commands -/

/-- A start byte written to DCR of an idle and awake device. -/
theorem wrote_dev_starts {v : State} {e : Engine} {b : Byte} (hs : Starts e b) (hw : v.dev.awake v.P = true)
    (hi : v.dev.allIdle = true) :
    (v.wrote (v.P.addr .DCR) b).dev = { v.dev with
      cur := .known (advByte v.P (v.P.addr .DCR))
      drawBusy := .known (e == .draw)
      circBusy := .known (e == .circ)
      bteBusy := .known false
      oplog := v.dev.oplog ++ [⟨e, b, .known (v.dev.snapshot v.P drawRegs)⟩] } := by
  have hidle : (v.dev.cmdw (v.P.addr .DCR)).allIdle = true := hi
  rw [wrote_dev, complete_of_allIdle hi, complete_of_allIdle hidle,
    datw_dcr_starts hs hidle (inReset_of_awake (by exact hw) _) rfl]
  rfl

/-- A drawing engine latches the geometry and the colour (rules R43, R46). -/
theorem latched_of_starts {e : Engine} {b : Byte} (hs : Starts e b) : e.latched = drawRegs := by
  rcases hs with ⟨rfl, -⟩ | ⟨rfl, -⟩ <;> rfl

/-- Plain writes and then a start byte, on an idle and awake device. -/
theorem started_dcr {s : State} {e : Engine} {b : Byte} {w : List (Byte × Byte)} (hs : Starts e b)
    (hp : ∀ r ∈ w, plainReg s.P r.1 = true) (hw : s.dev.awake s.P = true) (hi : s.dev.allIdle = true) :
    s.dev.Started s.P (s.triggered w [(s.P.addr .DCR, b)]).dev e b w := by
  obtain ⟨hawake, hidle, hcell, hlog, hrst⟩ := wroteAll_dev_plain w hp hw hi
  have hP : (s.staged w).P = s.P := (wroteAll_rest s w).1
  have hdev := wrote_dev_starts (v := s.staged w) hs (hP.symm ▸ hawake) hidle
  rw [hP] at hdev
  change s.dev.Started s.P ((s.staged w).wrote (s.P.addr .DCR) b).dev e b w
  rw [hdev]
  refine ⟨hawake, hcell, fun f hf => ?_, ?_, hrst⟩
  · cases f with
    | draw | circ => exact congrArg Unk.known (beq_eq_false_iff_ne.mpr hf.symm)
    | bte | unknown => rfl
  · rw [latched_of_starts hs]
    exact congrArg (· ++ _) hlog

/-- Writes to names of which no two share an address (rule R33). -/
def namesApart (w : List (RegName × Byte)) : Prop := (w.map Prod.fst).Pairwise fun n m => n ≠ m ∧ n.mayAlias m = false

theorem lastWrite_of_mem {w : List (Byte × Byte)} (hw : (w.map Prod.fst).Nodup) {e : Byte × Byte} (he : e ∈ w) (u : Unk Byte) :
    lastWrite w e.1 u = .known e.2 := by
  induction w generalizing u with
  | nil => cases he
  | cons r w ih =>
    obtain ⟨hr, hw⟩ := List.nodup_cons.mp hw
    rcases List.mem_cons.mp he with rfl | he
    · have hrest : ∀ r ∈ w, e.1 ≠ r.1 := fun r hmem heq => hr (heq ▸ List.mem_map_of_mem hmem)
      exact (lastWrite_of_ne hrest _).trans (if_pos rfl)
    · exact ih hw he _

theorem nodup_atAddr {P : Params} (hP : P.wf = true) {w : List (RegName × Byte)} (h : namesApart w) :
    ((atAddr P w).map Prod.fst).Nodup := by
  have hmap : (atAddr P w).map Prod.fst = (w.map Prod.fst).map P.addr := by simp [atAddr]
  rw [hmap, List.Nodup, List.pairwise_map]
  exact h.imp fun ⟨hne, hal⟩ => addr_ne hP hne hal

/-- Each of such registers holds the byte written to it, and every other cell what it held. -/
theorem holds_of_lastWrite {P : Params} (hP : P.wf = true) {d e : Dev} {w : List (RegName × Byte)} (h : namesApart w)
    (hcell : ∀ x, e.cell x = lastWrite (atAddr P w) x (d.cell x)) : d.holds P e w := by
  refine ⟨fun r hr => ?_, fun x hx => ?_⟩
  · have hmem : (P.addr r.1, r.2) ∈ atAddr P w := List.mem_map_of_mem hr
    exact (hcell _).trans (lastWrite_of_mem (nodup_atAddr hP h) hmem _)
  · refine (hcell x).trans (lastWrite_of_ne (fun e he => ?_) _)
    obtain ⟨r, hr, rfl⟩ := List.mem_map.mp he
    exact hx r hr

/-- A drawing command, by its program, its staging writes and its start byte. -/
theorem draw_completes {s : State} {g : DeviceConfig} {i : Instr} {o : Op} {prog : Depth → List Micro} {e : Engine} {b m : Byte}
    {w : List (RegName × Byte)} (hP : s.P.wf = true) (h : s.calm = true) (hb : s.seq.busy = false) (hg : s.seq.cfg = some g)
    (hw : s.dev.awake s.P = true) (hidle : s.dev.allIdle = true) (hi : exec i s = s.draw o prog)
    (hprog : prog g.colorDepth = engineProgram (atAddr s.P w) [(s.P.addr .DCR, b)] (.reg (s.P.addr .DCR) m))
    (hplain : ∀ r ∈ w, r.1 ≠ .DCR ∧ r.1 ≠ .BTE_CTRL0 ∧ r.1 ≠ .PWR) (hnames : namesApart w) (hs : Starts e b)
    (hm : e = .draw ∧ m = 0x80 ∨ e = .circ ∧ m = 0x40)
    (hdone : ((s.env.drop (2 * w.length + 3)).take 2).any (·.completes e) = true) :
    ∃ d r, r &&& m = 0
      ∧ exec i s
        = .next (s.after
            { s.seq.answered o (2 * w.length + 6) (.known (advByte s.P (s.P.addr .DCR))) with rx := r, rxPrev := s.seq.rx } d
            (2 * w.length + 6) (2 * w.length + 4)
            (commandEvents s.seq.phase (atAddr s.P w) [(s.P.addr .DCR, b)]
              [.xfer .cmdw (s.P.addr .DCR) none, .xfer .datr 0x00 (some r)]))
      ∧ s.dev.holds s.P d w ∧ d.flags = (.known false, .known false, .known false)
      ∧ d.oplog = s.dev.oplog ++ [⟨e, b, .known (d.snapshot s.P drawRegs)⟩]
      ∧ d.cur = .known (advByte s.P (s.P.addr .DCR)) ∧ d.rstIfUnk = s.dev.rstIfUnk := by
  have hopen : (s.opened o).dev = s.dev := complete_of_allIdle hidle _
  have hexec := exec_draw_runs hb hg hi
  rw [hprog] at hexec
  have hpoll : PollKind.reg (s.P.addr .DCR) m ∈ enginePolls s.P
      ∧ ∀ d, (PollKind.reg (s.P.addr .DCR) m).flag d = d.flagOf e := by
    rcases hm with ⟨rfl, rfl⟩ | ⟨rfl, rfl⟩ <;> exact ⟨by simp [enginePolls], fun _ => rfl⟩
  obtain ⟨hk, hflag⟩ := hpoll
  have hstart := started_dcr (s := s.opened o) hs (plainReg_atAddr hP hplain) (hopen ▸ hw) (hopen ▸ hidle)
  rw [hopen] at hstart
  have hlen : (atAddr s.P w).length = w.length := List.length_map _
  obtain ⟨d, r, hr, hexec, ⟨hcell, hflags, hlog, hrst⟩, hcur⟩ :=
    exec_engine_completes h hk hexec hflag hstart (by rw [hlen]; exact hdone)
  rw [hlen] at hexec
  rw [latched_of_starts hs] at hlog
  exact ⟨d, r, hr, hexec, holds_of_lastWrite hP hnames hcell, hflags, hlog, hcur, hrst⟩

theorem namesApart_twoPointWrites (P : Params) (d : Depth) (x0 y0 x1 y1 c : Half) :
    namesApart (twoPointWrites P d x0 y0 x1 y1 c) := by
  simp [namesApart, twoPointWrites, pairWrites, colourWrites, RegName.mayAlias]

theorem namesApart_threePointWrites (P : Params) (d : Depth) (x0 y0 x1 y1 x2 y2 c : Half) :
    namesApart (threePointWrites P d x0 y0 x1 y1 x2 y2 c) := by
  simp [namesApart, threePointWrites, pairWrites, colourWrites, RegName.mayAlias]

theorem namesApart_circleWrites (P : Params) (d : Depth) (cx cy : Half) (r : Byte) (c : Half) :
    namesApart (circleWrites P d cx cy r c) := by
  simp [namesApart, circleWrites, pairWrites, colourWrites, RegName.mayAlias]

/-- Settles O41: each of the three is draw2 with its own code and start byte. -/
theorem twoPointCommandsDraw : Obligations.TwoPointCommandsDraw := by
  intro x0 y0 x1 y1 c g s hP h hb hg hw hidle hdone e he w
  have hrow : exec e.1 s = s.draw (s.seq.op.twoPoint e.2.1 x0 y0 x1 y1 c)
        (fun d => draw2 s.P d (s.seq.op.twoPoint e.2.1 x0 y0 x1 y1 c) e.2.2)
      ∧ e.2.2 ∈ ([0x80, 0x90, 0xB0, 0x81, 0xA1] : List Byte) := by
    simp only [List.mem_cons, List.not_mem_nil, or_false] at he
    rcases he with rfl | rfl | rfl <;> exact ⟨rfl, by simp⟩
  obtain ⟨hexec, hstart⟩ := hrow
  exact draw_completes hP h hb hg hw hidle hexec (draw2_eq s.P g.colorDepth _ _)
    (by simp [twoPointWrites, pairWrites, colourWrites]) (namesApart_twoPointWrites s.P g.colorDepth x0 y0 x1 y1 c)
    (.inl ⟨rfl, hstart⟩) (.inl ⟨rfl, rfl⟩) hdone

/-- Settles O42: both are draw3. -/
theorem threePointCommandsDraw : Obligations.ThreePointCommandsDraw := by
  intro x0 y0 x1 y1 x2 y2 c g s hP h hb hg hw hidle hdone e he w
  have hrow : exec e.1 s = s.draw (s.seq.op.threePoint e.2.1 x0 y0 x1 y1 x2 y2 c)
        (fun d => draw3 s.P d (s.seq.op.threePoint e.2.1 x0 y0 x1 y1 x2 y2 c) e.2.2)
      ∧ e.2.2 ∈ ([0x80, 0x90, 0xB0, 0x81, 0xA1] : List Byte) := by
    simp only [List.mem_cons, List.not_mem_nil, or_false] at he
    rcases he with rfl | rfl <;> exact ⟨rfl, by simp⟩
  obtain ⟨hexec, hstart⟩ := hrow
  exact draw_completes hP h hb hg hw hidle hexec (draw3_eq s.P g.colorDepth _ _)
    (by simp [threePointWrites, pairWrites, colourWrites]) (namesApart_threePointWrites s.P g.colorDepth x0 y0 x1 y1 x2 y2 c)
    (.inl ⟨rfl, hstart⟩) (.inl ⟨rfl, rfl⟩) hdone

/-- Settles O43: both are drawC, with the start bytes and the poll bit of the circle engine. -/
theorem circleCommandsDraw : Obligations.CircleCommandsDraw := by
  intro cx cy rad c g s hP h hb hg hw hidle hdone e he w
  have hrow : exec e.1 s = s.draw (s.seq.op.circle e.2.1 cx cy rad c)
        (fun d => drawC s.P d (s.seq.op.circle e.2.1 cx cy rad c) e.2.2)
      ∧ e.2.2 ∈ ([0x40, 0x60] : List Byte) := by
    simp only [List.mem_cons, List.not_mem_nil, or_false] at he
    rcases he with rfl | rfl <;> exact ⟨rfl, by simp⟩
  obtain ⟨hexec, hstart⟩ := hrow
  exact draw_completes hP h hb hg hw hidle hexec (drawC_eq s.P g.colorDepth _ _)
    (by simp [circleWrites, pairWrites, colourWrites]) (namesApart_circleWrites s.P g.colorDepth cx cy rad c)
    (.inr ⟨rfl, hstart⟩) (.inr ⟨rfl, rfl⟩) hdone

end Sys2Proof.Machine
end

section
/-! PROOFS. Block copies (rules R220 to R227, R231): one of zero size does nothing, any other copies. -/

namespace Sys2Proof.Machine

/-! ### Zero size -/

/-- A command that ends as soon as it is accepted performs nothing. -/
theorem accept_finish (s : State) (o : Op) :
    (s.accept o).finish .ok .none = s.after { s.seq.answered o 0 s.seq.cur with hold := s.seq.hold } s.dev 0 0 [] := by
  simp [State.finish, State.accept, State.after, Seq.answered, Seq.returned]

/-- Settles O44: BTECOPY tests its size before the bus is touched. -/
theorem zeroSizeCopyTouchesNothing : Obligations.ZeroSizeCopyTouchesNothing := by
  intro sl sx sy w h dl dx dy tr key g s hb hg hops hz
  rw [exec_btecopy_zeroSize hb hg hops hz, accept_finish]

/-! ### The trigger -/

/-- The start byte written to BTE_CTRL0 of an idle and awake device with a listed operation and a size that is not zero. -/
theorem wrote_dev_bteStart {v : State} (hP : v.P.wf = true) (hw : v.dev.awake v.P = true) (hi : v.dev.allIdle = true)
    (ho : v.dev.bteOperationOk v.P = true) (hz : ∀ n, v.dev.bteSizeZero v.P n = false) :
    (v.wrote (v.P.addr .BTE_CTRL0) 0x80).dev = { v.dev with
      cur := .known (advByte v.P (v.P.addr .BTE_CTRL0))
      bteBusy := .known true
      oplog := v.dev.oplog ++ [⟨.bte, 0x80, .known (v.dev.snapshot v.P bteRegs)⟩] } := by
  have hidle : (v.dev.cmdw (v.P.addr .BTE_CTRL0)).allIdle = true := hi
  rw [wrote_dev, complete_of_allIdle hi, complete_of_allIdle hidle,
    datw_bteStart hP (target_known rfl _) (inReset_of_awake (by exact hw) _),
    writeBteStart_start hidle (by exact hz _) (by exact ho)]
  rfl

/-- The shadow after a byte written to BTE_CTRL0, which is not PWR (rules R54, R134). -/
theorem wrote_bteStart_shadow {v : State} (hP : v.P.wf = true) (b : Byte) :
    (v.wrote (v.P.addr .BTE_CTRL0) b).seq.cur = .known (advByte v.P (v.P.addr .BTE_CTRL0)) := by
  have hpwr : v.P.addr .BTE_CTRL0 ≠ v.P.addr .PWR := addr_ne hP (by decide) rfl
  rw [wrote_seq]
  exact if_neg fun hc => hpwr hc.1

/-- A device that holds a listed operation byte and a size that is not zero is ready for the start byte (rule R231, U3, U11). -/
theorem bteReady_of_stored {P : Params} {d : Dev} {v : List (RegName × Byte)} {rop : Byte} {w h : Half}
    (hstored : ∀ r ∈ v ++ [(.BTE_CTRL1, rop)], d.cell (P.addr r.1) = .known r.2) (hrop : rop = 0xC2 ∨ rop = 0xC5)
    (hsize : pairWrites .BW_L .BW_H w ++ pairWrites .BH_L .BH_H h ⊆ v) (hwz : w ≠ 0) (hhz : h ≠ 0) :
    d.bteOperationOk P = true ∧ ∀ n, d.bteSizeZero P n = false := by
  have hctrl : d.cell (P.addr .BTE_CTRL1) = .known rop := hstored (.BTE_CTRL1, rop) (by simp)
  have hheld : ∀ r ∈ pairWrites .BW_L .BW_H w ++ pairWrites .BH_L .BH_H h, d.cell (P.addr r.1) = .known r.2 :=
    fun r hr => hstored r (List.mem_append_left _ (hsize hr))
  simp only [pairWrites, List.cons_append, List.nil_append, List.forall_mem_cons] at hheld
  obtain ⟨hw0, hw1, hh0, hh1, -⟩ := hheld
  refine ⟨bteOperationOk_iff.mpr ?_, fun n => Bool.eq_false_iff.mpr fun hz => ?_⟩
  · rcases hrop with rfl | rfl
    exacts [.inl hctrl, .inr hctrl]
  · rw [bteSizeZero_iff hw0 hw1 hh0 hh1, join16_lo_hi, join16_lo_hi] at hz
    exact hz.elim hwz hhz

/-- Register writes by name and then the start byte, on an idle and awake device: where the writes leave a listed operation and a
size that is not zero, the block transfer is started, and the pointer and its shadow are where the start byte leaves them. -/
theorem started_bte {s : State} {v : List (RegName × Byte)} {rop : Byte} {w h : Half} (hP : s.P.wf = true)
    (hw : s.dev.awake s.P = true) (hi : s.dev.allIdle = true) (hrop : rop = 0xC2 ∨ rop = 0xC5)
    (hplain : ∀ r ∈ v ++ [(.BTE_CTRL1, rop)], r.1 ≠ .DCR ∧ r.1 ≠ .BTE_CTRL0 ∧ r.1 ≠ .PWR)
    (hnames : namesApart (v ++ [(.BTE_CTRL1, rop)])) (hsize : pairWrites .BW_L .BW_H w ++ pairWrites .BH_L .BH_H h ⊆ v)
    (hwz : w ≠ 0) (hhz : h ≠ 0) :
    let u := s.triggered (atAddr s.P v) [(s.P.addr .BTE_CTRL1, rop), (s.P.addr .BTE_CTRL0, 0x80)]
    let c := Unk.known (advByte s.P (s.P.addr .BTE_CTRL0))
    s.dev.Started s.P u.dev .bte 0x80 (atAddr s.P (v ++ [(.BTE_CTRL1, rop)])) ∧ u.dev.cur = c ∧ u.seq.cur = c := by
  intro u c
  let t := (s.staged (atAddr s.P v)).wrote (s.P.addr .BTE_CTRL1) rop
  have hdev : t.dev = (s.wroteAll (atAddr s.P (v ++ [(.BTE_CTRL1, rop)]))).dev := by
    have hwrites : atAddr s.P (v ++ [(.BTE_CTRL1, rop)]) = atAddr s.P v ++ [(s.P.addr .BTE_CTRL1, rop)] := List.map_append
    rw [hwrites, wroteAll_concat]
    rfl
  obtain ⟨hawake, hidle, hcell, hlog, hrst⟩ := wroteAll_dev_plain _ (plainReg_atAddr hP hplain) hw hi
  obtain ⟨hstored, -⟩ := holds_of_lastWrite hP hnames hcell
  rw [← hdev] at hawake hidle hcell hlog hrst hstored
  have htP : t.P = s.P := (wroteAll_rest s _).1
  obtain ⟨hop, hz⟩ := bteReady_of_stored hstored hrop hsize hwz hhz
  have hstart := wrote_dev_bteStart (v := t) (htP ▸ hP) (htP ▸ hawake) hidle (htP ▸ hop) (htP ▸ hz)
  have hshadow := wrote_bteStart_shadow (v := t) (htP ▸ hP) 0x80
  rw [htP] at hstart hshadow
  change s.dev.Started s.P (t.wrote (s.P.addr .BTE_CTRL0) 0x80).dev _ _ _ ∧ (t.wrote _ _).dev.cur = c ∧ _
  rw [hstart]
  refine ⟨⟨hawake, hcell, fun f hf => ?_, congrArg (· ++ _) hlog, hrst⟩, rfl, hshadow⟩
  obtain ⟨hdraw, hcirc, -⟩ := allIdle_iff.mp hidle
  cases f with
  | draw => exact hdraw
  | circ => exact hcirc
  | bte => exact absurd rfl hf
  | unknown => rfl

/-! ### The copy -/

theorem namesApart_copyWrites (P : Params) (d : Depth) (sl : BitVec 2) (sx sy w h : Half) (dl : BitVec 2) (dx dy : Half)
    (tr : Bool) (key : Half) (rop : Byte) :
    namesApart (copyWrites P d sl sx sy w h dl dx dy tr key ++ [(.BTE_CTRL1, rop)]) := by
  cases tr <;> simp [namesApart, copyWrites, pairWrites, RegName.mayAlias]

theorem length_copyWrites (P : Params) (d : Depth) (sl : BitVec 2) (sx sy w h : Half) (dl : BitVec 2) (dx dy : Half)
    (tr : Bool) (key : Half) :
    (copyWrites P d sl sx sy w h dl dx dy tr key).length = if tr then 15 else 12 := by
  cases tr <;> rfl

/-- Settles O45: the trigger of a block copy starts the BTE, and the poll finds it done. -/
theorem btecopyCopies : Obligations.BtecopyCopies := by
  intro sl sx sy w h dl dx dy tr key g s hP hcalm hb hg hops hwz hhz hw hi m rop hdone
  let o := s.seq.op.copy sl sx sy w h dl dx dy tr key
  let ws := copyWrites s.P g.colorDepth sl sx sy w h dl dx dy tr key
  have hopen : (s.opened o).dev = s.dev := complete_of_allIdle hi _
  have hexec : exec (.btecopy sl sx sy w h dl dx dy tr key) s
      = .next (run (engineProgram (atAddr s.P ws) [(s.P.addr .BTE_CTRL1, rop), (s.P.addr .BTE_CTRL0, 0x80)] (.status 0x40))
          (s.accept o)) :=
    (exec_btecopy_runs hb hg hops hwz hhz).trans (by rw [bteCopy_eq]; rfl)
  have hplain : ∀ r ∈ ws ++ [(.BTE_CTRL1, rop)], r.1 ≠ .DCR ∧ r.1 ≠ .BTE_CTRL0 ∧ r.1 ≠ .PWR := by
    cases tr <;> simp [ws, copyWrites, pairWrites]
  have hnames := namesApart_copyWrites s.P g.colorDepth sl sx sy w h dl dx dy tr key rop
  let u := (s.opened o).triggered (atAddr s.P ws) [(s.P.addr .BTE_CTRL1, rop), (s.P.addr .BTE_CTRL0, 0x80)]
  obtain ⟨hstart, hcur, hshadow⟩ : s.dev.Started s.P u.dev .bte 0x80 (atAddr s.P (ws ++ [(.BTE_CTRL1, rop)]))
      ∧ u.dev.cur = .known (advByte s.P (s.P.addr .BTE_CTRL0)) ∧ u.seq.cur = .known (advByte s.P (s.P.addr .BTE_CTRL0)) := by
    have hstart := started_bte (s := s.opened o) hP (hopen ▸ hw) (hopen ▸ hi) (bteOperation_cases tr) hplain hnames
      (size_mem_copyWrites s.P g.colorDepth sl sx sy w h dl dx dy tr key) hwz hhz
    rwa [hopen] at hstart
  have hlen : 2 * (atAddr s.P ws).length + 4 + 1 = 29 + m := by
    rw [atAddr, List.length_map, length_copyWrites]
    cases tr <;> rfl
  have hsteps : 29 + m + 2 = 31 + m := by omega
  obtain ⟨d, r, hr, hend, ⟨hcell, hflags, hlog, hrst⟩, hdcur⟩ :=
    exec_engine_completes hcalm (by simp [enginePolls]) hexec (fun _ => rfl) hstart (hlen ▸ hdone)
  refine ⟨d, r, hr, ?_, holds_of_lastWrite hP hnames hcell, hflags, hlog, hdcur.trans hcur, hrst⟩
  rw [← hsteps, ← hlen, ← hshadow]
  exact hend

end Sys2Proof.Machine
end

section
/-! PROOFS. The results a command can end with (rules R260, R264): what each micro-operation of a command can post, and the
row of the table its operand record and its instruction share. -/

namespace Sys2Proof.Machine

/-! ### The rows of the table -/

theorem ok_mem_resultsOfOp (P : Params) (o : Op) : .ok ∈ resultsOfOp P o := by
  unfold resultsOfOp
  split <;> simp

/-- A command that sends frames may end with a transport failure. -/
theorem busTransportFailure_mem_resultsOfOp {o : Op} (hz : o.zeroSize = false) (P : Params) :
    .busTransportFailure ∈ resultsOfOp P o := by
  simp [resultsOfOp, hz]

/-- An engine command may time out where POLL_MAX is finite. -/
theorem deviceTimeout_mem_resultsOfOp {P : Params} {o : Op} (he : o.code ∈ engineCodes) (hz : o.zeroSize = false)
    (hmax : P.pollMax ≠ none) : .deviceTimeout ∈ resultsOfOp P o := by
  simp [resultsOfOp, hz, he, hmax]

/-- The row of an engine command that is no block copy of zero size. -/
def engineRow (P : Params) : List Result := [.ok, .busTransportFailure] ++ (if P.pollMax = none then [] else [.deviceTimeout])

theorem resultsOfOp_zeroSize {o : Op} (hz : o.zeroSize = true) (P : Params) : resultsOfOp P o = [.ok] := if_pos hz

theorem resultsOfOp_access {o : Op} (hz : o.zeroSize = false) (hi : o.code ≠ 0x10) (he : o.code ∉ engineCodes) (P : Params) :
    resultsOfOp P o = [.ok, .busTransportFailure] := by
  simp only [resultsOfOp, hz, hi, he, if_false, false_and, Bool.false_eq_true, List.append_nil]

theorem resultsOfOp_engine {o : Op} (hz : o.zeroSize = false) (he : o.code ∈ engineCodes) (P : Params) :
    resultsOfOp P o = engineRow P := by
  have hi : o.code ≠ 0x10 := fun h => absurd (h ▸ he) (by decide)
  simp only [resultsOfOp, engineRow, hz, hi, he, if_false, true_and, Bool.false_eq_true, List.append_nil, ne_eq, ite_not]

theorem mem_resultsOfOp_init {o : Op} (hc : o.code = 0x10) (P : Params) (x : Result) :
    x ∈ resultsOfOp P o ↔ x ∈ [Result.ok, .unsupportedConfiguration, .busTransportFailure] := by
  have hz : o.zeroSize = false := by
    rw [Op.zeroSize, hc]
    rfl
  have he : (0x10 : Byte) ∉ engineCodes := by decide
  simp only [resultsOfOp, hz, hc, he, if_true, if_false, false_and, Bool.false_eq_true, List.append_nil]
  cases x <;> decide

/-- The row of a block copy is that of an engine command unless its size is zero (rule R222). -/
theorem resultsOf_btecopy (P : Params) (sl dl : BitVec 2) (sx sy w h dx dy key : Half) (tr : Bool) :
    resultsOf P (.btecopy sl sx sy w h dl dx dy tr key) = if w = 0 ∨ h = 0 then [.ok] else engineRow P := rfl

theorem copy_zeroSize (o : Op) (sl dl : BitVec 2) (sx sy w h dx dy key : Half) (tr : Bool) :
    (o.copy sl sx sy w h dl dx dy tr key).zeroSize = decide (w = 0 ∨ h = 0) := by
  simp [Op.zeroSize, Op.copy, Bool.beq_eq_decide_eq]

/-! ### What a command in progress can post -/

/-- A state in the run of the command of `o` under parameters `P`, with no reset of SEQ pending: once SEQ is idle, the result is
one of the command's row. -/
structure State.InRow (P : Params) (o : Op) (s : State) : Prop where
  params : s.P = P
  op : s.seq.op = o
  free : ∀ k ∈ s.env, k.seqReset = false
  ended : s.seq.busy = false → s.seq.result ∈ resultsOfOp P o

theorem abort_inRow {P : Params} {o : Op} {s : State} {x : Result} (h : s.InRow P o) (hx : x ∈ resultsOfOp P o) :
    (s.abort x).InRow P o where
  params := (abort_cases s x).P.trans h.params
  op := (abort_cases s x).op.trans h.op
  free k hk := h.free k ((abort_env s x).subset hk)
  ended _ := by rwa [(abort_free h.free x).1]

/-- Only a command that is no block copy of zero size sends frames (rule R222). -/
theorem zeroSize_of_sends {s : State} {op : FrameOp} {p : Byte} {m : Micro} {q : Seq} (hm : m.sends s op p)
    (hq : m.fits q = true) (hb : q.busy = true) : q.op.zeroSize = false := by
  cases m with
  | frame | writeSet | writeClr => simpa [Micro.fits, hb] using hq
  | _ => exact hm.elim

/-- A micro-operation of the command stops it, if at all, with a result of its row. -/
theorem stops_inRow {P : Params} {q : Seq} {s t : State} {m : Micro} (hb : q.busy = true) (hm : m.fits q = true)
    (h : s.InRow P q.op) (ht : s.Stops t m) : t.InRow P q.op := by
  cases ht with
  | finished r _ ht =>
    subst ht
    exact ⟨h.params, h.op, h.free, fun _ => ok_mem_resultsOfOp P q.op⟩
  | failed u op p acted hsends hu ht =>
    subst hu ht
    have hu : (s.gap.unsent op p acted).InRow P q.op :=
      ⟨h.params, h.op, fun k hk => h.free k (List.mem_of_mem_tail hk), h.ended⟩
    exact abort_inRow hu (busTransportFailure_mem_resultsOfOp (zeroSize_of_sends hsends hm hb) P)
  | timedOut u k hk hmax hu ht =>
    subst hk hu ht
    have hfit : q.op.code ∈ engineCodes ∧ q.op.zeroSize = false := by simpa [Micro.fits, hb] using hm
    have hfin : P.pollMax ≠ none := by simp [← h.params, hmax]
    exact abort_inRow ⟨h.params, h.op, h.free, h.ended⟩ (deviceTimeout_mem_resultsOfOp hfit.1 hfit.2 hfin)
  | reset hr => exact absurd hr (not_reset_of_free h.free)

/-- A micro-operation of the command leaves it within its row. -/
theorem micro_inRow {P : Params} {q : Seq} {s : State} {m : Micro} (hb : q.busy = true) (hm : m.fits q = true)
    (h : s.InRow P q.op) : (s.micro m).state.InRow P q.op := by
  have hon : ∀ t, s.GoesOn t m → t.InRow P q.op := fun t ht =>
    ⟨ht.P.trans h.params, ht.op.trans h.op, fun k hk => h.free k (ht.env.subset hk), by rw [ht.busy, ht.result]; exact h.ended⟩
  have hfrom := micro_from s m
  cases hf : s.micro m with
  | go t => rw [hf] at hfrom; exact hon t hfrom
  | pause t => rw [hf] at hfrom; exact hon t hfrom
  | again k t => rw [hf] at hfrom; exact hon t hfrom.2
  | halt t => rw [hf] at hfrom; exact stops_inRow hb hm h hfrom

/-- A run of micro-operations of the command SEQ is busy with stays within the command's row. -/
theorem run_inRow {s : State} {k : List Micro} (hb : s.seq.busy = true) (hk : k.all (Micro.fits s.seq) = true)
    (hfree : ∀ x ∈ s.env, x.seqReset = false) : (run k s).InRow s.P s.seq.op :=
  run_ind (I := State.InRow s.P s.seq.op) (fun _ _ h => ⟨h.params, h.op, h.free, h.ended⟩) k
    (fun _ hm _ h => micro_inRow hb (List.all_eq_true.mp hk _ hm) h) s ⟨rfl, rfl, hfree, by simp [hb]⟩

/-! ### What a command runs is of it -/

theorem window_fits {q : Seq} (hz : q.op.zeroSize = false) (fs : List (FrameOp × Byte)) (r : Ret) :
    (window (frameMicros fs) r).all (Micro.fits q) = true := by
  refine fits_plain hz _ fun m hm => ?_
  simp only [window, frameMicros, List.mem_append, List.mem_map, List.mem_cons, List.not_mem_nil, or_false] at hm
  obtain (rfl | ⟨f, -, rfl⟩) | rfl | rfl := hm <;> exact ⟨nofun, nofun⟩

theorem engineProgram_fits {q : Seq} (hb : q.busy = true) (he : q.op.code ∈ engineCodes) (hz : q.op.zeroSize = false)
    (w w' : List (Byte × Byte)) (k : PollKind) : (engineProgram w w' k).all (Micro.fits q) = true := by
  have hrest := pollingRest_fits hb (List.contains_iff_mem.mpr he) hz k
  simp only [engineProgram, List.all_append, wrTable_fits hz, hrest]
  rfl

theorem initProgram_fits {q : Seq} (hb : q.busy = true) (hc : q.op.code = 0x10) (P : Params) (o : Op) (p : Panel) :
    (initProgram P o p).all (Micro.fits q) = true := by
  have hz : q.op.zeroSize = false := by simp [Op.zeroSize, hc]
  have hreset : (resetSteps P).all (Micro.fits q) = true := by
    refine fits_plain hz _ ?_
    unfold resetSteps hardResetSteps softResetSteps rdAddr
    split <;> simp
  have hset : (Micro.setCfg p.depth).fits q = true := by simp [Micro.fits, hb, hc]
  rw [initProgram_eq]
  simp only [List.all_append, List.all_cons, wrTable_fits hz, hreset, hset]
  rfl

/-! ### What an accepted command runs, and its row -/

/-- What an idle SEQ does with a command it does not refuse: it accepts operands whose row of the table is the instruction's, and
either ends it at once with a result of that row or runs a program of the command. -/
structure State.AcceptsInRow (s : State) (i : Instr) (o : Op) (t : State) : Prop where
  row : ∀ x, x ∈ resultsOfOp s.P o ↔ x ∈ resultsOf s.P i
  how : (∃ x ∈ resultsOf s.P i, t = (s.accept o).finish x .none)
    ∨ ∃ k, k.all (Micro.fits (s.accept o).seq) = true ∧ t = run k (s.accept o)

theorem command_acceptsInRow {i : Instr} {s t : State} {o : Op} {fs : List (FrameOp × Byte)} {r : Ret}
    (hb : s.seq.busy = false) (hi : resultsOf s.P i = [.ok, .busTransportFailure]) (hz : o.zeroSize = false)
    (hc : o.code ≠ 0x10 ∧ o.code ∉ engineCodes) (h : s.command o (window (frameMicros fs) r) = .next t) :
    s.AcceptsInRow i o t where
  row x := by rw [hi, resultsOfOp_access hz hc.1 hc.2]
  how := .inr ⟨_, window_fits (q := (s.accept o).seq) hz fs r, by simpa [State.command, hb, eq_comm] using h⟩

theorem engine_acceptsInRow {i : Instr} {s : State} {o : Op} {k : List Micro} (hi : resultsOf s.P i = engineRow s.P)
    (hz : o.zeroSize = false) (he : o.code ∈ engineCodes) (hk : ∃ w w' p, k = engineProgram w w' p) :
    s.AcceptsInRow i o (run k (s.accept o)) where
  row x := by rw [hi, resultsOfOp_engine hz he]
  how := by
    obtain ⟨w, w', p, rfl⟩ := hk
    exact .inr ⟨_, engineProgram_fits (q := (s.accept o).seq) rfl he hz w w' p, rfl⟩

theorem draw_acceptsInRow {i : Instr} {s t : State} {o : Op} {prog : Depth → List Micro} (hb : s.seq.busy = false)
    (he : exec i s = s.draw o prog) (hi : resultsOf s.P i = engineRow s.P) (hz : o.zeroSize = false) (hc : o.code ∈ engineCodes)
    (hp : ∀ d, ∃ w w' p, prog d = engineProgram w w' p) (h : exec i s = .next t) : s.AcceptsInRow i o t := by
  cases hg : s.seq.cfg with
  | none => rw [exec_draw_notAdmitted hb hg he] at h; cases h
  | some g =>
    rw [exec_draw_runs hb hg he] at h
    obtain rfl := Host.Outcome.next.inj h
    exact engine_acceptsInRow hi hz hc (hp g.colorDepth)

theorem init_acceptsInRow {w h : Half} {d : Byte} {s t : State} (hb : s.seq.busy = false) (ht : exec (.init w h d) s = .next t) :
    s.AcceptsInRow (.init w h d) (s.seq.op.forInit w h d) t where
  row := mem_resultsOfOp_init rfl s.P
  how := by
    cases hp : s.P.panel? w h d with
    | none =>
      rw [exec_init_unsupported hb hp] at ht
      exact .inl ⟨_, by simp [resultsOf], (Host.Outcome.next.inj ht).symm⟩
    | some p =>
      rw [exec_init_supported hb hp] at ht
      exact .inr ⟨_, initProgram_fits (q := (s.accept _).seq) rfl rfl _ _ p, (Host.Outcome.next.inj ht).symm⟩

theorem btecopy_acceptsInRow {sl dl : BitVec 2} {sx sy w h dx dy key : Half} {tr : Bool} {s t : State} (hb : s.seq.busy = false)
    (ht : exec (.btecopy sl sx sy w h dl dx dy tr key) s = .next t) :
    s.AcceptsInRow (.btecopy sl sx sy w h dl dx dy tr key) (s.seq.op.copy sl sx sy w h dl dx dy tr key) t := by
  have hsize := copy_zeroSize s.seq.op sl dl sx sy w h dx dy key tr
  have hrow := resultsOf_btecopy s.P sl dl sx sy w h dx dy key tr
  cases hg : s.seq.cfg with
  | none => rw [exec_btecopy_notAdmitted hb hg] at ht; cases ht
  | some g =>
    cases hops : bteOperandsOk sl dl sy dy with
    | false => rw [exec_btecopy_badOperands hb hg hops] at ht; cases ht
    | true =>
      by_cases hz : w = 0 ∨ h = 0
      · rw [exec_btecopy_zeroSize hb hg hops hz] at ht
        rw [if_pos hz] at hrow
        exact ⟨fun x => by rw [hrow, resultsOfOp_zeroSize (hsize.trans (decide_eq_true hz))],
          .inl ⟨.ok, hrow ▸ List.mem_singleton_self _, (Host.Outcome.next.inj ht).symm⟩⟩
      · obtain ⟨hw, hh⟩ := not_or.mp hz
        rw [exec_btecopy_runs hb hg hops hw hh, bteCopy_eq] at ht
        obtain rfl := Host.Outcome.next.inj ht
        exact engine_acceptsInRow (hrow.trans (if_neg hz)) (hsize.trans (decide_eq_false hz)) (by simp [Op.copy, engineCodes])
          ⟨_, _, _, rfl⟩

/-- What exec does with a command that an idle SEQ does not refuse keeps to the command's row. -/
theorem exec_acceptsInRow {i : Instr} {s t : State} (hf : i.format = .seqcmd) (hb : s.seq.busy = false)
    (h : exec i s = .next t) : ∃ o, s.AcceptsInRow i o t := by
  have haccess : ∀ c ∈ ([0x01, 0x02, 0x03, 0x04, 0x05, 0x06, 0x07, 0x08] : List Byte), c ≠ 0x10 ∧ c ∉ engineCodes := by
    decide
  have hdraw : ∀ c ∈ ([0x20, 0x21, 0x22, 0x23, 0x24, 0x25, 0x26] : List Byte), c ∈ engineCodes := by decide
  cases i with
  | cmdw | datw | datr | stsr | tLine | tRect | tFrect | tTri | tFtri | tCirc | tFcirc | bMove | bTmove | bStart | pwrOn =>
    cases hf
  | wrcmd reg => exact ⟨_, command_acceptsInRow (fs := [(.cmdw, reg)]) hb rfl rfl (haccess _ (by simp)) h⟩
  | wrdata b => exact ⟨_, command_acceptsInRow (fs := [(.datw, b)]) hb rfl rfl (haccess _ (by simp)) h⟩
  | rddata => exact ⟨_, command_acceptsInRow (fs := [(.datr, 0x00)]) hb rfl rfl (haccess _ (by simp)) h⟩
  | rdstatus => exact ⟨_, command_acceptsInRow (fs := [(.stsr, 0x00)]) hb rfl rfl (haccess _ (by simp)) h⟩
  | wrreg reg b =>
    exact ⟨_, command_acceptsInRow (fs := [(.cmdw, reg), (.datw, b)]) hb rfl rfl (haccess _ (by simp)) h⟩
  | rdreg reg =>
    exact ⟨_, command_acceptsInRow (fs := [(.cmdw, reg), (.datr, 0x00)]) hb rfl rfl (haccess _ (by simp)) h⟩
  | wr16 r0 r1 v =>
    exact ⟨_, command_acceptsInRow (fs := [(.cmdw, r0), (.datw, lo v), (.cmdw, r1), (.datw, hi v)]) hb rfl rfl
      (haccess _ (by simp)) h⟩
  | rd16 r0 r1 =>
    exact ⟨_, command_acceptsInRow (fs := [(.cmdw, r0), (.datr, 0x00), (.cmdw, r1), (.datr, 0x00)]) hb rfl rfl
      (haccess _ (by simp)) h⟩
  | init w hh d => exact ⟨_, init_acceptsInRow hb h⟩
  | line | rect | frect =>
    exact ⟨_, draw_acceptsInRow (prog := fun d => draw2 s.P d _ _) hb rfl rfl rfl (hdraw _ (by simp [Op.twoPoint]))
      (fun d => ⟨_, _, _, draw2_eq _ d _ _⟩) h⟩
  | tri | ftri =>
    exact ⟨_, draw_acceptsInRow (prog := fun d => draw3 s.P d _ _) hb rfl rfl rfl (hdraw _ (by simp [Op.threePoint]))
      (fun d => ⟨_, _, _, draw3_eq _ d _ _⟩) h⟩
  | circ | fcirc =>
    exact ⟨_, draw_acceptsInRow (prog := fun d => drawC s.P d _ _) hb rfl rfl rfl (hdraw _ (by simp [Op.circle]))
      (fun d => ⟨_, _, _, drawC_eq _ d _ _⟩) h⟩
  | btecopy => exact ⟨_, btecopy_acceptsInRow hb h⟩

/-! ### The obligation -/

/-- Settles O54: a command runs micro-operations of it alone, in the accepting step and in later ones, and each of those that ends
it does so with a result of its row. -/
theorem resultTable : Obligations.ResultTable := by
  refine ⟨fun i s t hf hb hfree h => ?_, fun s t hb hfits hfree h => ?_⟩
  · obtain ⟨o, hrow, ⟨x, hx, rfl⟩ | ⟨k, hk, rfl⟩⟩ := exec_acceptsInRow hf hb h
    · exact ⟨fun _ => hx, nofun⟩
    · have hrun := run_inRow (s := s.accept o) rfl hk hfree
      refine ⟨fun hend => (hrow _).mp (hrun.ended hend), fun _ => ⟨exec_fits hb h, ?_⟩⟩
      rw [hrun.op]
      exact hrow
  · rcases step_cases h with ⟨-, rfl⟩ | ⟨-, rfl⟩ | ⟨p, ps, i, -, hidle, -⟩
    · have hrun : s.resume.InRow s.P s.seq.op := run_inRow (s := s.keep []) hb hfits hfree
      exact ⟨hrun.ended, fun _ => ⟨step_fits h hfits, hrun.op⟩⟩
    · have hwait : s.wait = s.gap := if_neg fun hr => not_reset_of_free hfree (now_mem hr)
      rw [hwait]
      exact ⟨fun (hend : s.seq.busy = false) => absurd hb (by simp [hend]), fun _ => ⟨hfits, rfl⟩⟩
    · rw [hb] at hidle
      cases hidle

end Sys2Proof.Machine
end

section
/-! PROOFS. The machine right after reset (rules R52, R301), and a data write that software reset disturbs (rule R303, U5). -/

namespace Sys2Proof.Machine

/-- Settles O57: DEV lists no cell at power-up, so each is `?`; every other value is the field of State.reset itself. -/
theorem resetState : Obligations.ResetState := by
  have hcells : ∀ x, State.reset.dev.cell x = .unknown := cell_of_mem_nil rfl
  exact ⟨rfl, rfl, rfl, rfl, rfl, rfl, rfl, rfl, rfl, rfl, rfl, rfl, hcells, rfl, rfl⟩

/-- A data write that software reset disturbs, field by field. -/
theorem datw_lost_fields {P : Params} {d : Dev} {n : Nat} {a : Byte} (ht : d.target n = a) (ha : a ≠ P.addr .PWR)
    (hr : d.inReset P n = true) (b : Byte) :
    (∀ x, (d.datw P n b).cell x = if x = a then .unknown else d.cell x) ∧ (d.datw P n b).flags = d.flags
      ∧ (d.datw P n b).cur = adv P d.cur ∧ (d.datw P n b).oplog = d.oplog ∧ (d.datw P n b).rstIfUnk = d.rstIfUnk := by
  rw [datw_lost ht ha hr]
  exact ⟨cell_loseCell d a, rfl, rfl, rfl, rfl⟩

/-- Settles O13: the completion steps before the byte change the flags alone, and DEV, still in software reset, loses the cell. -/
theorem datwLostInSoftwareReset : Obligations.DatwLostInSoftwareReset := by
  intro b a s h ha hpwr hr
  obtain ⟨hcell, hflags, hcur, hlog, hrst⟩ := datw_lost_fields ((devAtFrame_target s 0 s.draws).trans ha.symm) hpwr
    ((devAtFrame_inReset s 0 _ _).trans hr) b
  refine ⟨_, exec_datw_after h b, fun x => ?_, hflags, ?_, ?_, ?_⟩
  · rw [hcell, devAtFrame_cell]
  · rw [hcur, devAtFrame_cur]
  · rw [hlog, devAtFrame_oplog]
  · rw [hrst, devAtFrame_rstIfUnk]

end Sys2Proof.Machine
end
